-- ==== Sys2Proof/Word.lean ====
section
/-! DEFINITION. The word types of the block (00_scope.md R6). -/

namespace Sys2Proof

/-- A byte: 8 bits, bit 0 the least significant (R6). -/
abbrev Byte := BitVec 8

/-- A 32-bit pattern: a checksum or a temperature (R54, R55). -/
abbrev Word := BitVec 32

end Sys2Proof
end

