-- ==== Sys2Proof/Config.lean ====
section
/-! DEFINITION. The constants of 00_scope.md R5, the parameters of one machine, and the free values. -/

namespace Sys2Proof

/-- `PAYLOAD_STUB_LEN`: the bytes the parser's PAYLOAD placeholder consumes (R5, 92 D6): 1 or 0. -/
inductive StubLen where
  | one
  | zero
deriving DecidableEq, Repr

/-- Which checksum function both ends of the link share (R5, R181, 92 D13; log 4). -/
inductive Checksum where
  /-- The uninterpreted `Config.crc32`: nothing is known of it but that it is a function. -/
  | device
  /-- The stand-in `crcT` of 95_test_vectors.md section 0: the sum of the bytes modulo 2^32. -/
  | sum
  /-- The stand-in `crcZ` of 95_test_vectors.md section 0. PRESUMED by the spec itself (93 G2). -/
  | zlib
deriving DecidableEq, Repr

/-- The parameters of R5 that the source does not fix; they never change while the machine runs. -/
structure Params where
  /-- `N`, the number of byte slots of the queue. -/
  capacity  : Nat
  /-- `PAYLOAD_STUB_LEN`. -/
  stubLen   : StubLen
  /-- `TX_SER_CAP`, the capacity `SEND` passes to `SERIALIZE`. -/
  serCap    : Nat
  /-- `TICK_WIDTH`, the width of the millisecond tick in bits. -/
  tickWidth : Nat
  /-- `crc32`. -/
  checksum  : Checksum
deriving DecidableEq, Repr

/-- The private byte spaces of R41 and R50, and the buffer a caller of SERIALIZE supplies (R101; log 15). -/
inductive Space where
  | qmem
  | rxbuf
  | txbuf
  | caller
deriving DecidableEq, Repr

namespace Config

/-- `MAGIC0` (R5, R73). -/
def magic0 : Byte := 0xAA#8
/-- `MAGIC1` (R5, R73). -/
def magic1 : Byte := 0x55#8
/-- `FRAME_BUF_SIZE` (R5, R23, R24). -/
def frameBufSize : Nat := 16
/-- `FRAME_BUF_ALIGN` (R5, R57): a precondition of the checksum engine with no effect in the model (log 28). -/
def frameBufAlign : Nat := 4
/-- `HEADER_LEN` (R5). -/
def headerLen : Nat := 3
/-- `CRC_LEN` (R5). -/
def crcLen : Nat := 4
/-- `PAYLOAD_LEN_RESPONSE` (R5). -/
def payloadLenResponse : Nat := 4
/-- `TX_TIMEOUT_MS` (R5, R144). -/
def txTimeoutMs : Nat := 100

/-- The defaults of R5. DESIGN CHOICE of the spec where it is OPEN (log 5, log 6, log 7). -/
def defaultParams : Params :=
  { capacity := 32, stubLen := .one, serCap := 12, tickWidth := 32, checksum := .device }

/-- The checksum function, uninterpreted (R181, 93 U1). -/
opaque crc32 : List Byte → Word

/-- What a byte of a space reads as while nothing has written it since reset (93 U3; log 8). -/
opaque powerOnByte : Space → Nat → Byte

/-- The bytes a failed SERIALIZE leaves below its capacity (R107, 93 U5; log 14). -/
opaque freeByte : Nat → Byte

/-- Draws of the abstract outcome of SEND_BYTE, true for ready (R145, 93 U11; log 12). -/
opaque freeReady : Nat → Bool

/-- Draws of the milliseconds that pass before a read of the tick (R179, 93 U12; log 26). -/
opaque freeAdvance : Nat → Nat

/-- Draws of the temperature pattern (R180, 93 U10; log 3). -/
opaque freeTemp : Nat → Word

end Config
end Sys2Proof
end

