-- ==== Sys2Proof/Syntax.lean ====
section
/-! DEFINITION. Type codes, packets, and the one inductive of instructions: a constructor per row of
spec/opcode_table.json (30_encoding.md R85). -/

namespace Sys2Proof

/-- The type enumeration of R74, eight members numbered 0 to 7 in this order. -/
inductive PacketType where
  | invalid
  | error
  | ping
  | pong
  | request
  | requestContinuousStart
  | requestContinuousStop
  | response
deriving DecidableEq, Repr

/-- The packets of R100: exactly five variants. -/
inductive Packet where
  | error
  | ping
  | pong
  | request
  /-- The temperature as a raw 32-bit pattern (R75). -/
  | responseTemp (w : Word)
deriving DecidableEq, Repr

/-- The buffer operand of SERIALIZE (R101): the transmit frame buffer, or one the caller supplies (log 15). -/
inductive Buffer where
  | txbuf
  | caller
deriving DecidableEq, Repr

/-- One constructor per row of spec/opcode_table.json. -/
inductive Instr where
  /-- RX.ERROR, R123: header `AA 55 01` and the received trailer. -/
  | rxError (crc : Word)
  /-- RX.PING, R121. -/
  | rxPing (crc : Word)
  /-- RX.PONG, R124. -/
  | rxPong (crc : Word)
  /-- RX.REQUEST, R122. -/
  | rxRequest (crc : Word)
  /-- RX.REQUEST_CONTINUOUS_START, R125. -/
  | rxRequestContinuousStart (crc : Word)
  /-- RX.REQUEST_CONTINUOUS_STOP, R126. -/
  | rxRequestContinuousStop (crc : Word)
  /-- RX.RESPONSE, R127: the stub byte is present exactly when PAYLOAD_STUB_LEN is 1. -/
  | rxResponse (stub : Option Byte) (crc : Word)
  /-- RX.INVALID, R116: header `AA 55 00`. -/
  | rxInvalid
  /-- RX.UNASSIGNED, R116: header `AA 55 t`, t in 8..255. -/
  | rxUnassigned (t : Byte)
  /-- TX.ERROR, R102. -/
  | txError
  /-- TX.PING, R103. -/
  | txPing
  /-- TX.PONG, R104. -/
  | txPong
  /-- TX.REQUEST, R105. -/
  | txRequest
  /-- TX.RESPONSE, R106: `w` is the pattern of the temperature. -/
  | txResponse (w : Word)
  /-- PUSH, R91. -/
  | push (b : Byte)
  /-- POP, R92. -/
  | pop
  /-- IS_EMPTY, R93. -/
  | isEmpty
  /-- IS_FULL, R94. -/
  | isFull
  /-- ENQUEUE, R95. -/
  | enqueue (b : Byte)
  /-- SERIALIZE, R101 to R107. -/
  | serialize (pkt : Packet) (buf : Buffer) (cap : Nat)
  /-- PARSE_BYTE, R109 to R120. -/
  | parseByte (b : Byte)
  /-- DISPATCH, R121 to R127; the operand is a type code in 1..7. -/
  | dispatch (t : PacketType)
  /-- PARSER_RESET, R128. -/
  | parserReset
  /-- FRAMING_ERROR, R130. -/
  | framingError
  /-- SEND, R140. -/
  | send (pkt : Packet)
  /-- SEND_BYTE, R144 and R145. -/
  | sendByte (b : Byte)
  /-- sendPong, R146. -/
  | sendPong
  /-- sendTemperature, R147. -/
  | sendTemperature
  /-- sendError, R148. -/
  | sendError
  /-- MAIN_ITER, R155 to R157. -/
  | mainIter
deriving DecidableEq, Repr

end Sys2Proof
end

