-- ==== Sys2Proof/Machine/Operands.lean ====
section
/-! DEFINITION. Operand forms: byte order, type codes, packet bodies, checksum functions and frames.
No state is touched here. -/

namespace Sys2Proof.Machine

/-- `LE32(v)` (R7): least significant byte first. -/
def le32Bytes (v : Word) : List Byte :=
  [v.extractLsb' 0 8, v.extractLsb' 8 8, v.extractLsb' 16 8, v.extractLsb' 24 8]

/-- `le32(b0, b1, b2, b3)` (R7, R55): the first byte is the least significant. -/
def ofLE32 (b0 b1 b2 b3 : Byte) : Word := b3 ++ b2 ++ b1 ++ b0

/-- The type codes of R74. -/
def typeCode (t : PacketType) : Byte :=
  match t with
  | .invalid => 0
  | .error => 1
  | .ping => 2
  | .pong => 3
  | .request => 4
  | .requestContinuousStart => 5
  | .requestContinuousStop => 6
  | .response => 7

/-- The member of the enumeration a byte names; codes 8..255 name nothing (R74). -/
def typeOfByte (b : Byte) : Option PacketType :=
  match b.toNat with
  | 0 => some .invalid
  | 1 => some .error
  | 2 => some .ping
  | 3 => some .pong
  | 4 => some .request
  | 5 => some .requestContinuousStart
  | 6 => some .requestContinuousStop
  | 7 => some .response
  | _ => none

/-- `HDR(T)` (R86): magic low, magic high, type. -/
def header (t : PacketType) : List Byte := [Config.magic0, Config.magic1, typeCode t]

/-- The fixed type of each variant (R100). -/
def packetType (pkt : Packet) : PacketType :=
  match pkt with
  | .error => .error
  | .ping => .ping
  | .pong => .pong
  | .request => .request
  | .responseTemp _ => .response

/-- The payload of a packet: none, or `LE32(w)` copied bit for bit (R75, R106). -/
def packetPayload (pkt : Packet) : List Byte :=
  match pkt with
  | .error | .ping | .pong | .request => []
  | .responseTemp w => le32Bytes w

/-- The body of a packet: header and payload, no checksum (R101). -/
def packetBody (pkt : Packet) : List Byte := header (packetType pkt) ++ packetPayload pkt

/-- `size(pkt)` (R101): 7 for ResponseTemp, 3 for the others. -/
def packetSize (pkt : Packet) : Nat :=
  match pkt with
  | .responseTemp _ => Config.headerLen + Config.payloadLenResponse
  | .error | .ping | .pong | .request => Config.headerLen

/-- `crcT` of 95_test_vectors.md section 0: the sum of the bytes modulo 2^32. -/
def crcT (bs : List Byte) : Word := bs.foldl (fun acc b => acc + b.setWidth 32) 0

/-- One bit of `crcZ`, reflected polynomial 0xEDB88320. PRESUMED by the spec (93 G2). -/
def crcZBit (c : Word) : Word :=
  if c.getLsbD 0 then (c >>> 1) ^^^ 0xEDB88320#32 else c >>> 1

/-- One byte of `crcZ`. -/
def crcZByte (c : Word) (b : Byte) : Word :=
  crcZBit (crcZBit (crcZBit (crcZBit (crcZBit (crcZBit (crcZBit (crcZBit (c ^^^ b.setWidth 32))))))))

/-- `crcZ` of 95_test_vectors.md section 0: zlib's CRC-32. -/
def crcZ (bs : List Byte) : Word := ~~~ (bs.foldl crcZByte 0xFFFFFFFF#32)

/-- `crc32(bytes)` of R181 for the function the parameter names. -/
def checksumOf (c : Checksum) (bs : List Byte) : Word :=
  match c with
  | .device => Config.crc32 bs
  | .sum => crcT bs
  | .zlib => crcZ bs

/-- `FRAME(pkt)` (R71, R72, R86): the body and `LE32` of its checksum. -/
def packetFrame (c : Checksum) (pkt : Packet) : List Byte :=
  packetBody pkt ++ le32Bytes (checksumOf c (packetBody pkt))

/-- The space a buffer operand names. -/
def bufferSpace (buf : Buffer) : Space :=
  match buf with
  | .txbuf => .txbuf
  | .caller => .caller

/-- `PAYLOAD_STUB_LEN` as a number (R5). -/
def stubBytes (l : StubLen) : Nat :=
  match l with
  | .one => 1
  | .zero => 0

end Sys2Proof.Machine
end

