-- ==== Sys2Proof/WellFormed.lean ====
section
/-! DEFINITION. Which instructions are well formed: the operand ranges of spec/opcode_table.json. -/

namespace Sys2Proof

/-- The stub byte of RX.RESPONSE is present exactly when PAYLOAD_STUB_LEN is 1 (R78, R115). -/
def stubMatches (P : Params) (stub : Option Byte) : Bool :=
  match P.stubLen with
  | .one => stub.isSome
  | .zero => stub.isNone

/-- The operand ranges of each row. They bound what is encoded; a direct call runs with any operands (log 22). -/
def wellFormed (P : Params) (i : Instr) : Bool :=
  match i with
  | .rxError _ | .rxPing _ | .rxPong _ | .rxRequest _ => true
  | .rxRequestContinuousStart _ | .rxRequestContinuousStop _ => true
  | .rxResponse stub _ => stubMatches P stub
  | .rxInvalid => true
  | .rxUnassigned t => decide (8 ≤ t.toNat)
  | .txError | .txPing | .txPong | .txRequest | .txResponse _ => true
  | .push _ | .pop | .isEmpty | .isFull | .enqueue _ => true
  | .serialize _ _ _ => true
  | .parseByte _ => true
  | .dispatch t => decide (t ≠ .invalid)
  | .parserReset | .framingError => true
  | .send _ | .sendByte _ | .sendPong | .sendTemperature | .sendError => true
  | .mainIter => true

end Sys2Proof
end

