-- ==== Sys2Proof/Decode.lean ====
section
/-! DEFINITION. The decoder of received frames, total on any bytes and rejecting by name, and the
encoder (30_encoding.md R70 to R85). -/

namespace Sys2Proof

open Machine

/-- Why a byte string is not (yet) a received frame. -/
inductive DecodeError where
  /-- The first byte is not 0xAA: the header selects no row (R83). -/
  | badMagic0
  /-- The second byte is not 0x55: the header selects no row (R83). -/
  | badMagic1
  /-- The bytes end before the frame does. -/
  | truncated
deriving DecidableEq, Repr

/-- A trailer: the four bytes after a body, least significant first (R55, R76). -/
def decodeTrailer (bs : List Byte) : Except DecodeError (Word × List Byte) :=
  match bs with
  | c0 :: c1 :: c2 :: c3 :: rest => .ok (ofLE32 c0 c1 c2 c3, rest)
  | _ => .error .truncated

/-- Puts the constructor of a short frame around its trailer (format RX_S, R71, R85). -/
def decodeShort (mk : Word → Instr) (bs : List Byte) : Except DecodeError (Instr × List Byte) :=
  match decodeTrailer bs with
  | .ok (crc, rest) => .ok (mk crc, rest)
  | .error e => .error e

/-- A received type-7 frame (format RX_P, R78, R85): the stub byte where there is one, then the trailer. -/
def decodeResponse (l : StubLen) (bs : List Byte) : Except DecodeError (Instr × List Byte) :=
  match l, bs with
  | .zero, bs => decodeShort (Instr.rxResponse none) bs
  | .one, [] => .error .truncated
  | .one, x :: bs => decodeShort (Instr.rxResponse (some x)) bs

/-- What follows the magic, chosen by the type byte (R77, R80). -/
def decodeType (l : StubLen) (t : Byte) (bs : List Byte) : Except DecodeError (Instr × List Byte) :=
  match typeOfByte t with
  | none => .ok (.rxUnassigned t, bs)
  | some .invalid => .ok (.rxInvalid, bs)
  | some .error => decodeShort .rxError bs
  | some .ping => decodeShort .rxPing bs
  | some .pong => decodeShort .rxPong bs
  | some .request => decodeShort .rxRequest bs
  | some .requestContinuousStart => decodeShort .rxRequestContinuousStart bs
  | some .requestContinuousStop => decodeShort .rxRequestContinuousStop bs
  | some .response => decodeResponse l bs

/-- The received frame at the head of a byte string, and the bytes after it. -/
def decode (l : StubLen) (bs : List Byte) : Except DecodeError (Instr × List Byte) :=
  match bs with
  | [] => .error .truncated
  | m0 :: bs =>
    if m0 ≠ Config.magic0 then .error .badMagic0
    else match bs with
      | [] => .error .truncated
      | m1 :: bs =>
        if m1 ≠ Config.magic1 then .error .badMagic1
        else match bs with
          | [] => .error .truncated
          | t :: bs => decodeType l t bs

/-- A short frame as received: header and trailer, the trailer as it came (R71). -/
def encodeShort (t : PacketType) (crc : Word) : List Byte := header t ++ le32Bytes crc

/-- The bytes of an instruction on the wire. A TX row's trailer is the checksum the transmitter computes
(R71, R72). The OP rows have no encoding (R85): no bytes. -/
def encode (P : Params) (i : Instr) : List Byte :=
  match i with
  | .rxError crc => encodeShort .error crc
  | .rxPing crc => encodeShort .ping crc
  | .rxPong crc => encodeShort .pong crc
  | .rxRequest crc => encodeShort .request crc
  | .rxRequestContinuousStart crc => encodeShort .requestContinuousStart crc
  | .rxRequestContinuousStop crc => encodeShort .requestContinuousStop crc
  | .rxResponse stub crc => header .response ++ stub.toList ++ le32Bytes crc
  | .rxInvalid => header .invalid
  | .rxUnassigned t => [Config.magic0, Config.magic1, t]
  | .txError => packetFrame P.checksum .error
  | .txPing => packetFrame P.checksum .ping
  | .txPong => packetFrame P.checksum .pong
  | .txRequest => packetFrame P.checksum .request
  | .txResponse w => packetFrame P.checksum (.responseTemp w)
  | .push _ | .pop | .isEmpty | .isFull | .enqueue _ => []
  | .serialize _ _ _ | .parseByte _ | .dispatch _ | .parserReset | .framingError => []
  | .send _ | .sendByte _ | .sendPong | .sendTemperature | .sendError | .mainIter => []

/-- Whether a row is a frame the parser decodes (R85: the mnemonics `RX.<NAME>`). -/
def isReceived (i : Instr) : Bool :=
  match i with
  | .rxError _ | .rxPing _ | .rxPong _ | .rxRequest _ | .rxRequestContinuousStart _ => true
  | .rxRequestContinuousStop _ | .rxResponse _ _ | .rxInvalid | .rxUnassigned _ => true
  | .txError | .txPing | .txPong | .txRequest | .txResponse _ => false
  | .push _ | .pop | .isEmpty | .isFull | .enqueue _ => false
  | .serialize _ _ _ | .parseByte _ | .dispatch _ | .parserReset | .framingError => false
  | .send _ | .sendByte _ | .sendPong | .sendTemperature | .sendError | .mainIter => false

/-- The longest received frame in bytes (R77). -/
def maxFrameBytes : Nat := 8

/-- The bytes of a table word in wire order: byte k is bits 8k+7..8k (R85: `H = byte0 + 256*byte1 + ...`),
zero above `nbits`. -/
def tableBytes (nbits w : Nat) : List Byte :=
  (List.range (max (nbits / 8) maxFrameBytes)).map fun k => BitVec.ofNat 8 (w % 2 ^ nbits / 2 ^ (8 * k))

/-- What the decoder reads from a table word, for the default parameters. It is the receive direction: the
wire does not tell a TX row from the RX row with the same header (log 19). -/
def decodeTableWord (nbits w : Nat) : Option Instr :=
  match decode Config.defaultParams.stubLen (tableBytes nbits w) with
  | .ok (i, _) => some i
  | .error _ => none

/-- The bytes of a table word less the zeros beyond the frame the decoder reads from it. -/
def tableFrame (l : StubLen) (nbits w : Nat) : List Byte :=
  match decode l (tableBytes nbits w) with
  | .ok (_, rest) => (tableBytes nbits w).take ((tableBytes nbits w).length - rest.length)
  | .error _ => tableBytes nbits w

end Sys2Proof
end

