-- ==== Sys2Proof/Machine/State.lean ====
section
/-! DEFINITION. The state as plain data (10_state.md), the reasons a step can stop, and reset
(70_reset_and_hazards.md R185). -/

namespace Sys2Proof.Machine

/-- A byte space as the bytes written since reset: (address, byte), addresses strictly rising. An address
that is not listed holds an unspecified byte (93 U3; log 8). -/
abbrev Memory := List Host.Cell

/-- The canonical form of a space: addresses strictly rising. -/
abbrev Memory.wf (m : Memory) : Prop := m.Pairwise (fun x y => x.1 < y.1)

/-- The queue: `q.buf`, `q.start`, `q.end`, `q.empty` (R22, R25). -/
structure Queue where
  buf      : Memory
  startIdx : Nat
  endIdx   : Nat
  empty    : Bool
deriving DecidableEq, Repr

/-- The five values of `p.state` (R30). -/
inductive ParserState where
  | firstMagic
  | secondMagic
  | packetType
  | payload
  | crc32
deriving DecidableEq, Repr

/-- The parser: `p.state`, `p.buf`, `p.idx`, `p.boundary`, `p.type` (R23, R30 to R34). -/
structure Parser where
  state    : ParserState
  buf      : Memory
  idx      : Nat
  boundary : Nat
  type     : PacketType
deriving DecidableEq, Repr

/-- Who called the SEND in progress: a dispatch handler (R146, R147) or the error report (R148). -/
inductive Sender where
  | handler
  | report
deriving DecidableEq, Repr

/-- Where the main context stands: the control point of R35, one constructor per atomic step of R61. The
transmit transient of R39 (`n`, `i`, `t0`) lives here while a SEND is in progress; its ranges are an invariant, and what
happens outside them is the model's choice (log 32). -/
inductive Ctl where
  /-- The start of phase 1 of an iteration: the next step is the POP. -/
  | iterStart
  /-- POP returned `b`: the next step is the parser's part of PARSE_BYTE. -/
  | parse (b : Byte)
  /-- A REQUEST was accepted: the next step calls the temperature supplier (R147). -/
  | readTemp
  /-- The next step serializes `pkt` and appends its checksum (R141, R142). -/
  | startSend (o : Sender) (pkt : Packet)
  /-- The next step emits byte `i` of a frame whose body has `n` bytes (R143). -/
  | emit (o : Sender) (n i : Nat)
  /-- Byte `i` is written, its wait began at tick `t0`: the next step is one poll (R144). -/
  | poll (o : Sender) (n i t0 : Nat)
  /-- The SEND returned `ok`: the next step is its caller's. -/
  | endSend (o : Sender) (ok : Bool)
  /-- The start of phase 2: the next step tests and clears the latch (R157). -/
  | report
deriving DecidableEq, Repr

/-- An entry of the schedule: what happens next at the block's boundary (R60, R64, R161; log 2). -/
inductive Event where
  /-- `enqueueReceivedByte(b)`: the receive interrupt runs ENQUEUE (R10, R172). -/
  | rx (b : Byte)
  /-- The main context takes its next atomic step. -/
  | main
  /-- One operation is called directly, as the component tests of R161 (c) do. -/
  | call (i : Instr)
  /-- Bytes handed to the parser without the queue; a frame at their head is one instruction (log 2, log 20). -/
  | wire (bs : List Byte)
deriving DecidableEq, Repr

/-- The environment of R10 and R40: the schedule, the scripted answers of the environment calls, the clock,
the transmit trace, a caller's buffer, and the counter of the free values. -/
structure Env where
  sched  : List Event
  /-- Answers of the next polls of `isTransmitReady()` (R178). -/
  ready  : List Bool
  /-- Milliseconds that pass before each of the next reads of the tick (R179). -/
  dt     : List Nat
  /-- The millisecond clock, not wrapped. -/
  now    : Nat
  /-- Next answers of `currentTemperature()` (R180). -/
  temps  : List Word
  /-- The transmit trace, oldest byte first (R8, R161). -/
  tx     : List Byte
  /-- The buffer a caller of SERIALIZE supplies (R101; log 15). -/
  caller : Memory
  /-- The model's own counter the free values are applied to (log 3). -/
  draws  : Nat
deriving DecidableEq, Repr

/-- What the last operation returned (R161 (c)); the model's own field (log 16). -/
inductive Ret where
  | nothing
  | bool (b : Bool)
  | byte (v : Option Byte)
  | size (n : Option Nat)
deriving DecidableEq, Repr

/-- The state of R21, with the parameters of R5 and the environment of R10 beside it. -/
structure State where
  par   : Params
  q     : Queue
  p     : Parser
  /-- `t.buf` (R24). -/
  tbuf  : Memory
  /-- The error latch (R36). -/
  latch : Bool
  ctl   : Ctl
  ret   : Ret
  env   : Env
deriving DecidableEq, Repr

/-- What stops the machine. -/
inductive Fault where
  /-- PUSH or POP (and ENQUEUE, MAIN_ITER and the main context's POP through them) reaches a slot of `sp` at
  an address the space does not have. Only states that break R26 do it (93 U19). SAFE. -/
  | noSuchAddress (sp : Space) (addr : Nat)
deriving DecidableEq, Repr

/-- What has no meaning. -/
inductive Refusal where
  /-- An instruction without a meaning yet, raised by `exec`'s arm only. SAFE. -/
  | notModelled (mnemonic : String)
deriving DecidableEq, Repr

/-- The environment at reset: nothing scheduled, nothing scripted, nothing transmitted. DESIGN CHOICE
(log 2, log 3, log 9). -/
def Env.reset : Env :=
  { sched := [], ready := [], dt := [], now := 0, temps := [], tx := [], caller := [], draws := 0 }

/-- The machine right after reset (R185). -/
def State.reset : State :=
  { par := Config.defaultParams
    q := { buf := [], startIdx := 0, endIdx := 0, empty := true }
    p := { state := .firstMagic, buf := [], idx := 0, boundary := 0, type := .invalid }
    tbuf := []
    latch := false
    ctl := .iterStart
    ret := .nothing
    env := Env.reset }

end Sys2Proof.Machine
end

