-- ==== Sys2Proof/Machine/Flags.lean ====
section
/-! DEFINITION. Every flag and test the spec computes: empty and full (R25, R26), the comparisons and
arithmetic of R68. -/

namespace Sys2Proof.Machine

/-- The full test of the queue: not stored, computed (R26 (c), R37, R94). -/
def queueFull (q : Queue) : Bool := !q.empty && q.startIdx == q.endIdx

/-- The empty test of the queue (R93). -/
def queueEmpty (q : Queue) : Bool := q.empty

/-- `q.empty` recomputed by POP, with the new start index (R92). -/
def emptyAfterPop (q : Queue) (newStart : Nat) : Bool := newStart == q.endIdx

/-- `(i + 1) mod N` (R68 (a), R98): a true modulo. -/
def nextIdx (n i : Nat) : Nat := (i + 1) % n

/-- The number of bytes held (R26). -/
def queueCount (n : Nat) (q : Queue) : Nat :=
  if q.empty then 0
  else if q.startIdx = q.endIdx then n
  else (q.endIdx + n - q.startIdx) % n

/-- The exhaustion test of PARSE_BYTE, on the index the store would use (R110). -/
def bufferExhausted (p : Parser) : Bool := decide (Config.frameBufSize ≤ p.idx)

/-- Whether the byte just stored was the fourth of the trailer: `p.idx - p.boundary == 4` (R118, R119). -/
def trailerComplete (p : Parser) : Bool := decide (p.idx = p.boundary + Config.crcLen)

/-- The tick a clock shows: a count of milliseconds that wraps at `2^TICK_WIDTH` (R179). -/
def tickOf (width now : Nat) : Nat := now % 2 ^ width

/-- `(now - t0) mod 2^TICK_WIDTH`: wrapping subtraction of ticks (R68 (g)). -/
def tickDiff (width now t0 : Nat) : Nat := (now + 2 ^ width - t0 % 2 ^ width) % 2 ^ width

/-- The deadline of SEND_BYTE has elapsed: strictly more than TX_TIMEOUT_MS (R144). -/
def deadlineElapsed (width now t0 : Nat) : Bool := decide (Config.txTimeoutMs < tickDiff width now t0)

/-- What state PACKET_TYPE makes of the type byte (R114, R115, R116). -/
inductive TypeClass where
  /-- Legal, no payload: 1..6. -/
  | short (t : PacketType)
  /-- 7, the payload-bearing type. -/
  | payloadBearing
  /-- 0 and 8..255. -/
  | illegal
deriving DecidableEq, Repr

/-- The classes of R114 to R116. -/
def classifyType (b : Byte) : TypeClass :=
  match typeOfByte b with
  | none => .illegal
  | some .invalid => .illegal
  | some .response => .payloadBearing
  | some t => .short t

end Sys2Proof.Machine
end

