-- ==== Sys2Proof/Machine/Ops.lean ====
section
/-! DEFINITION. The shared operations: byte spaces, registers, the environment calls, raising an error
(the block's exception entry, 60_exceptions.md R165) and the parser's return to FIRST_MAGIC. -/

namespace Sys2Proof.Machine

/-- The byte last written at an address, if any. -/
def Memory.read? (m : Memory) (a : Nat) : Option Byte :=
  match m with
  | [] => none
  | (x, b) :: rest => if a = x then some b else Memory.read? rest a

/-- Writes one byte, keeping the addresses strictly rising. -/
def Memory.write (m : Memory) (a : Nat) (b : Byte) : Memory :=
  match m with
  | [] => [(a, b)]
  | (x, c) :: rest =>
    if a < x then (a, b) :: (x, c) :: rest
    else if a = x then (a, b) :: rest
    else (x, c) :: Memory.write rest a b

/-- The contents of a space. -/
def State.mem (s : State) (sp : Space) : Memory :=
  match sp with
  | .qmem => s.q.buf
  | .rxbuf => s.p.buf
  | .txbuf => s.tbuf
  | .caller => s.env.caller

/-- Replaces the contents of a space. -/
def State.setMem (s : State) (sp : Space) (m : Memory) : State :=
  match sp with
  | .qmem => { s with q := { s.q with buf := m } }
  | .rxbuf => { s with p := { s.p with buf := m } }
  | .txbuf => { s with tbuf := m }
  | .caller => { s with env := { s.env with caller := m } }

/-- `MemRead(space, addr, 1)` (R8, R58). A byte nothing has written reads as a free value (93 U3; log 8). -/
def State.readByte (s : State) (sp : Space) (a : Nat) : Byte :=
  match (s.mem sp).read? a with
  | some b => b
  | none => Config.powerOnByte sp a

/-- `MemWrite(space, addr, 1, [b])` (R8, R58). -/
def State.writeByte (s : State) (sp : Space) (a : Nat) (b : Byte) : State :=
  s.setMem sp ((s.mem sp).write a b)

/-- `MemRead(space, addr, n)` (R8), least address first. -/
def State.readBytes (s : State) (sp : Space) (a n : Nat) : List Byte :=
  (List.range n).map fun k => s.readByte sp (a + k)

/-- `MemWrite(space, addr, n, bs)` (R8), least address first. -/
def State.writeBytes (s : State) (sp : Space) (a : Nat) (bs : List Byte) : State :=
  match bs with
  | [] => s
  | b :: bs => (s.writeByte sp a b).writeBytes sp (a + 1) bs

/-- Replaces the queue. -/
def State.setQueue (s : State) (q : Queue) : State := { s with q := q }

/-- Replaces the parser. -/
def State.setParser (s : State) (p : Parser) : State := { s with p := p }

/-- Replaces the latch. -/
def State.setLatch (s : State) (v : Bool) : State := { s with latch := v }

/-- Moves the main context's control point. -/
def State.setCtl (s : State) (c : Ctl) : State := { s with ctl := c }

/-- Sets the result of the operation (R161 (c)). -/
def State.setRet (s : State) (r : Ret) : State := { s with ret := r }

/-- Replaces the environment. -/
def State.setEnv (s : State) (e : Env) : State := { s with env := e }

/-- Replaces the schedule. -/
def State.setSched (s : State) (es : List Event) : State := { s with env := { s.env with sched := es } }

/-- The labels of the five causes (R165). -/
inductive ErrorCause where
  | queueOverflow
  | framingError
  | checksumMismatch
  | unimplementedType
  | transmitTimeout
deriving DecidableEq, Repr

/-- `raise Error(cause)` (R8, R165): every cause has the same effect, the latch is set; the label is held
in no state (log 25). -/
def State.raise (s : State) (cause : ErrorCause) : State :=
  match cause with
  | .queueOverflow | .framingError | .checksumMismatch | .unimplementedType | .transmitTimeout =>
    s.setLatch true

/-- `PARSER_RESET` (R128): `p.buf`, `p.boundary` and `p.type` stay. -/
def State.resetParser (s : State) : State :=
  s.setParser { s.p with state := .firstMagic, idx := 0 }

/-- `FRAMING_ERROR` (R130): raise, then PARSER_RESET. -/
def State.failFrame (s : State) : State := (s.raise .framingError).resetParser

/-- `emit TX(b)` (R8): appended to the transmit trace, whether or not the UART is ready (R178; log 24). -/
def State.emitTx (s : State) (b : Byte) : State :=
  s.setEnv { s.env with tx := s.env.tx ++ [b] }

/-- The milliseconds that pass before the next read of the tick: scripted, then free (R179; log 26). -/
def State.nextAdvance (s : State) : Nat :=
  match s.env.dt with
  | d :: _ => d
  | [] => Config.freeAdvance s.env.draws

/-- `monotonicMillis()` (R179): the clock never goes back; the tick it shows wraps. -/
def State.readTick (s : State) : Nat × State :=
  let now := s.env.now + s.nextAdvance
  (tickOf s.par.tickWidth now,
   s.setEnv { s.env with now := now, dt := s.env.dt.tail, draws := s.env.draws + 1 })

/-- `currentTemperature()` (R180): scripted, then free. -/
def State.readTemp (s : State) : Word × State :=
  match s.env.temps with
  | w :: ws => (w, s.setEnv { s.env with temps := ws })
  | [] => (Config.freeTemp s.env.draws, s.setEnv { s.env with draws := s.env.draws + 1 })

/-- `crc32(bytes)` (R181). -/
def State.crc (s : State) (bs : List Byte) : Word := checksumOf s.par.checksum bs

end Sys2Proof.Machine
end

