-- ==== Sys2Proof/Machine/Serialize.lean ====
section
/-! DEFINITION. SERIALIZE (41_packet_serialize.md R100 to R107). -/

namespace Sys2Proof.Machine

/-- The unspecified bytes a failed SERIALIZE leaves below `cap` (R107, 93 U5; log 14). -/
def failedBytes (s : State) (k : Nat) : List Byte :=
  (List.range k).map fun j => Config.freeByte (s.env.draws + j)

/-- `SERIALIZE(pkt, buf, cap)` (R101): the size, or none on insufficient capacity (R107). -/
def serialize (pkt : Packet) (buf : Buffer) (cap : Nat) (s : State) : Option Nat × State :=
  if cap < packetSize pkt then
    let k := min cap (packetSize pkt)
    let s1 := s.writeBytes (bufferSpace buf) 0 (failedBytes s k)
    (none, s1.setEnv { s1.env with draws := s1.env.draws + k })
  else (some (packetSize pkt), s.writeBytes (bufferSpace buf) 0 (packetBody pkt))

/-- SERIALIZE, R101 to R107. -/
def execSerialize (pkt : Packet) (buf : Buffer) (cap : Nat) (s : State) :
    Host.Outcome State Fault Refusal :=
  .next ((serialize pkt buf cap s).2.setRet (.size (serialize pkt buf cap s).1))

end Sys2Proof.Machine
end

