-- ==== Sys2Proof/Machine/Transmit.lean ====
section
/-! DEFINITION. The transmit assembler: SEND, SEND_BYTE, the three senders, and the transmitted frames
(43_transmit.md R140 to R150; rows TX.* of the opcode table). -/

namespace Sys2Proof.Machine

/-- What one round of polling finds. -/
inductive PollResult where
  | ready
  | timeout
  | again
deriving DecidableEq, Repr

/-- The abstract outcome of a wait whose polls are not scripted: ready or timeout, drawn free (R145). Time
passes as it must: more than the deadline before a timeout (log 12). -/
def abstractWait (s : State) : PollResult × State :=
  let d := Config.freeAdvance s.env.draws
  if Config.freeReady s.env.draws then
    (.ready, s.setEnv { s.env with now := s.env.now + d, draws := s.env.draws + 1 })
  else
    (.timeout, s.setEnv { s.env with now := s.env.now + (Config.txTimeoutMs + 1) + d, draws := s.env.draws + 1 })

/-- One round of the loop of R144: the flag first, the tick only when the flag was clear (92 D12). -/
def pollOnce (t0 : Nat) (s : State) : PollResult × State :=
  match s.env.ready with
  | true :: rest => (.ready, s.setEnv { s.env with ready := rest })
  | false :: rest =>
    let r := (s.setEnv { s.env with ready := rest }).readTick
    (if deadlineElapsed s.par.tickWidth r.1 t0 then .timeout else .again, r.2)
  | [] => abstractWait s

/-- The loop of R144. Every round that polls again uses up one scripted answer, so `length + 1` rounds
always decide; the zero case is never reached. -/
def pollLoop (t0 : Nat) (rounds : Nat) (s : State) : Bool × State :=
  match rounds with
  | 0 => (false, s)
  | k + 1 =>
    match pollOnce t0 s with
    | (.ready, t) => (true, t)
    | (.timeout, t) => (false, t)
    | (.again, t) => pollLoop t0 k t

/-- `SEND_BYTE(b)` (R144): write, sample the tick, wait. -/
def sendByte (b : Byte) (s : State) : Bool × State :=
  let r := (s.emitTx b).readTick
  pollLoop r.1 (r.2.env.ready.length + 1) r.2

/-- Stage 3 of SEND (R143): byte by byte, the first wait that fails ends the send. -/
def sendBytes (bs : List Byte) (s : State) : Bool × State :=
  match bs with
  | [] => (true, s)
  | b :: bs =>
    match sendByte b s with
    | (true, t) => sendBytes bs t
    | (false, t) => (false, t)

/-- Stages 1 and 2 of SEND (R141, R142): serialize into TXBUF, append the checksum. The length of the body,
or none when SERIALIZE fails. -/
def loadFrame (pkt : Packet) (s : State) : Option Nat × State :=
  match serialize pkt .txbuf s.par.serCap s with
  | (none, t) => (none, t)
  | (some n, t) => (some n, t.writeBytes .txbuf n (le32Bytes (t.crc (t.readBytes .txbuf 0 n))))

/-- `SEND(pkt)` (R140). -/
def sendPacket (pkt : Packet) (s : State) : Bool × State :=
  match loadFrame pkt s with
  | (none, t) => (false, t)
  | (some n, t) => sendBytes (t.readBytes .txbuf 0 (n + Config.crcLen)) t

/-- What a handler does with the result of its SEND: raise Error(TransmitTimeout) on failure (R146, R147). -/
def raiseUnlessSent (r : Bool × State) : State :=
  match r with
  | (true, t) => t
  | (false, t) => t.raise .transmitTimeout

/-- `sendPong` (R146). -/
def sendPong (s : State) : State := raiseUnlessSent (sendPacket .pong s)

/-- `sendTemperature` (R147): the supplier is read once, before serialization. -/
def sendTemperature (s : State) : State :=
  raiseUnlessSent (sendPacket (.responseTemp s.readTemp.1) s.readTemp.2)

/-- `sendError` (R148): the result is discarded. -/
def sendError (s : State) : State := (sendPacket .error s).2

/-- SEND with its result delivered (R161 (c)). -/
def sendReturning (pkt : Packet) (s : State) : State :=
  (sendPacket pkt s).2.setRet (.bool (sendPacket pkt s).1)

/-- SEND, R140. -/
def execSend (pkt : Packet) (s : State) : Host.Outcome State Fault Refusal := .next (sendReturning pkt s)

/-- SEND_BYTE, R144. -/
def execSendByte (b : Byte) (s : State) : Host.Outcome State Fault Refusal :=
  .next ((sendByte b s).2.setRet (.bool (sendByte b s).1))

/-- sendPong, R146. -/
def execSendPong (s : State) : Host.Outcome State Fault Refusal := .next (sendPong s)

/-- sendTemperature, R147. -/
def execSendTemperature (s : State) : Host.Outcome State Fault Refusal := .next (sendTemperature s)

/-- sendError, R148. -/
def execSendError (s : State) : Host.Outcome State Fault Refusal := .next (sendError s)

/-- TX.ERROR: the frame of R102, produced by R140 to R143 (log 18). -/
def execTxError (s : State) : Host.Outcome State Fault Refusal := .next (sendReturning .error s)

/-- TX.PING: the frame of R103 (log 18). -/
def execTxPing (s : State) : Host.Outcome State Fault Refusal := .next (sendReturning .ping s)

/-- TX.PONG: the frame of R104 (log 18). -/
def execTxPong (s : State) : Host.Outcome State Fault Refusal := .next (sendReturning .pong s)

/-- TX.REQUEST: the frame of R105 (log 18). -/
def execTxRequest (s : State) : Host.Outcome State Fault Refusal := .next (sendReturning .request s)

/-- TX.RESPONSE: the frame of R106 (log 18). -/
def execTxResponse (w : Word) (s : State) : Host.Outcome State Fault Refusal :=
  .next (sendReturning (.responseTemp w) s)

end Sys2Proof.Machine
end

