-- ==== Sys2Proof/Machine/Parser.lean ====
section
/-! DEFINITION. The packet parser: PARSE_BYTE, DISPATCH, PARSER_RESET, FRAMING_ERROR, and the received
frames (42_parser.md R109 to R131; rows RX.* of the opcode table). -/

namespace Sys2Proof.Machine

/-- The two replies a received frame can call for (R121, R122). -/
inductive Reply where
  | pong
  | temperature
deriving DecidableEq, Repr

/-- The handler of each type: PING and REQUEST have one; every other type is recognised but unhandled
(R121 to R127). The sentinel INVALID is dispatched in no reachable state (log 21). -/
def handlerOf (t : PacketType) : Option Reply :=
  match t with
  | .ping => some .pong
  | .request => some .temperature
  | .invalid | .error | .pong | .requestContinuousStart | .requestContinuousStop | .response => none

/-- Runs a reply to its end (R121, R122). -/
def runReply (r : Reply) (s : State) : State :=
  match r with
  | .pong => sendPong s
  | .temperature => sendTemperature s

/-- `DISPATCH(t)` (R121 to R127). -/
def dispatchType (t : PacketType) (s : State) : State :=
  match handlerOf t with
  | some r => runReply r s
  | none => s.raise .unimplementedType

/-- The store of PARSE_BYTE (R111). -/
def storeByte (b : Byte) (s : State) : State :=
  let s1 := s.writeByte .rxbuf s.p.idx b
  s1.setParser { s1.p with idx := s1.p.idx + 1 }

/-- The received checksum (R119): the four bytes at the boundary, first byte least significant (R55). -/
def receivedChecksum (s : State) : Word :=
  ofLE32 (s.readByte .rxbuf s.p.boundary) (s.readByte .rxbuf (s.p.boundary + 1))
    (s.readByte .rxbuf (s.p.boundary + 2)) (s.readByte .rxbuf (s.p.boundary + 3))

/-- The computed checksum (R119): over `[0, boundary)`. -/
def computedChecksum (s : State) : Word := s.crc (s.readBytes .rxbuf 0 s.p.boundary)

/-- Frame completion up to a dispatched send (R119, R120, R123 to R127): either the frame is finished, in
error and reset, or a reply is due and the reset waits for its end. -/
def completeFrame (s : State) : State × Option Reply :=
  if receivedChecksum s ≠ computedChecksum s then ((s.raise .checksumMismatch).resetParser, none)
  else
    match handlerOf s.p.type with
    | some r => (s, some r)
    | none => ((s.raise .unimplementedType).resetParser, none)

/-- State FIRST_MAGIC (R112). -/
def inFirstMagic (b : Byte) (s : State) : State :=
  if b = Config.magic0 then s.setParser { s.p with state := .secondMagic } else s.failFrame

/-- State SECOND_MAGIC (R113). -/
def inSecondMagic (b : Byte) (s : State) : State :=
  if b = Config.magic1 then s.setParser { s.p with state := .packetType } else s.failFrame

/-- Records the boundary and moves to CRC32 (R114, R117). -/
def enterCrc32 (s : State) : State :=
  s.setParser { s.p with boundary := s.p.idx, state := .crc32 }

/-- State PACKET_TYPE (R114, R115, R116). -/
def inPacketType (b : Byte) (s : State) : State :=
  match classifyType b with
  | .short t => enterCrc32 (s.setParser { s.p with type := t })
  | .payloadBearing =>
    match s.par.stubLen with
    | .one => s.setParser { s.p with type := .response, state := .payload }
    | .zero => enterCrc32 (s.setParser { s.p with type := .response })
  | .illegal => s.failFrame

/-- State CRC32 (R118, R119). -/
def inCrc32 (s : State) : State × Option Reply :=
  if trailerComplete s.p then completeFrame s else (s, none)

/-- The state handler, chosen by the state the call found, on the state after the store (R109). -/
def handleByte (st : ParserState) (b : Byte) (s : State) : State × Option Reply :=
  match st with
  | .firstMagic => (inFirstMagic b s, none)
  | .secondMagic => (inSecondMagic b s, none)
  | .packetType => (inPacketType b s, none)
  | .payload => (enterCrc32 s, none)
  | .crc32 => inCrc32 s

/-- PARSE_BYTE up to a dispatched SEND: the atomic step (b) of R61. -/
def parseStep (b : Byte) (s : State) : State × Option Reply :=
  if bufferExhausted s.p then (s.failFrame, none)
  else handleByte s.p.state b (storeByte b s)

/-- `PARSE_BYTE(b)` (R109): a reply that is due runs to its end, then the parser is reset (R119). -/
def parseByte (b : Byte) (s : State) : State :=
  match parseStep b s with
  | (t, none) => t
  | (t, some r) => (runReply r t).resetParser

/-- PARSE_BYTE of each byte in turn. -/
def parseBytes (bs : List Byte) (s : State) : State :=
  match bs with
  | [] => s
  | b :: bs => parseBytes bs (parseByte b s)

/-- PARSE_BYTE, R109 to R120. -/
def execParseByte (b : Byte) (s : State) : Host.Outcome State Fault Refusal := .next (parseByte b s)

/-- DISPATCH, R121 to R127. -/
def execDispatch (t : PacketType) (s : State) : Host.Outcome State Fault Refusal := .next (dispatchType t s)

/-- PARSER_RESET, R128. -/
def execParserReset (s : State) : Host.Outcome State Fault Refusal := .next s.resetParser

/-- FRAMING_ERROR, R130. -/
def execFramingError (s : State) : Host.Outcome State Fault Refusal := .next s.failFrame

/-- RX.ERROR, R123: the frame's bytes are parsed in order (log 17). -/
def execRxError (crc : Word) (s : State) : Host.Outcome State Fault Refusal :=
  .next (parseBytes (encodeShort .error crc) s)

/-- RX.PING, R121 (log 17). -/
def execRxPing (crc : Word) (s : State) : Host.Outcome State Fault Refusal :=
  .next (parseBytes (encodeShort .ping crc) s)

/-- RX.PONG, R124 (log 17). -/
def execRxPong (crc : Word) (s : State) : Host.Outcome State Fault Refusal :=
  .next (parseBytes (encodeShort .pong crc) s)

/-- RX.REQUEST, R122 (log 17). -/
def execRxRequest (crc : Word) (s : State) : Host.Outcome State Fault Refusal :=
  .next (parseBytes (encodeShort .request crc) s)

/-- RX.REQUEST_CONTINUOUS_START, R125 (log 17). -/
def execRxRequestContinuousStart (crc : Word) (s : State) : Host.Outcome State Fault Refusal :=
  .next (parseBytes (encodeShort .requestContinuousStart crc) s)

/-- RX.REQUEST_CONTINUOUS_STOP, R126 (log 17). -/
def execRxRequestContinuousStop (crc : Word) (s : State) : Host.Outcome State Fault Refusal :=
  .next (parseBytes (encodeShort .requestContinuousStop crc) s)

/-- RX.RESPONSE, R127 (log 17). -/
def execRxResponse (stub : Option Byte) (crc : Word) (s : State) : Host.Outcome State Fault Refusal :=
  .next (parseBytes (header .response ++ stub.toList ++ le32Bytes crc) s)

/-- RX.INVALID, R116 (log 17). -/
def execRxInvalid (s : State) : Host.Outcome State Fault Refusal :=
  .next (parseBytes (header .invalid) s)

/-- RX.UNASSIGNED, R116 (log 17). -/
def execRxUnassigned (t : Byte) (s : State) : Host.Outcome State Fault Refusal :=
  .next (parseBytes [Config.magic0, Config.magic1, t] s)

end Sys2Proof.Machine
end

