-- ==== Sys2Proof/Machine/Queue.lean ====
section
/-! DEFINITION. The byte queue and the receive front-end: PUSH, POP, IS_EMPTY, IS_FULL, ENQUEUE
(40_byte_queue.md R90 to R98). -/

namespace Sys2Proof.Machine

/-- `PUSH(b)` (R91): whether the byte was stored, and the state after. No outcome when the end index names
no slot of QMEM (log 13). -/
def pushQueue (b : Byte) (s : State) : Option (Bool × State) :=
  if queueFull s.q then some (false, s)
  else if s.q.endIdx < s.par.capacity then
    let s1 := s.writeByte .qmem s.q.endIdx b
    some (true, s1.setQueue { s1.q with endIdx := nextIdx s.par.capacity s.q.endIdx, empty := false })
  else none

/-- `POP()` (R92): the oldest byte held, and the state after. No outcome when the start index names no
slot of QMEM (log 13). -/
def popQueue (s : State) : Option (Option Byte × State) :=
  if queueEmpty s.q then some (none, s)
  else if s.q.startIdx < s.par.capacity then
    let start := nextIdx s.par.capacity s.q.startIdx
    some (some (s.readByte .qmem s.q.startIdx),
      s.setQueue { s.q with startIdx := start, empty := emptyAfterPop s.q start })
  else none

/-- PUSH, R91. -/
def execPush (b : Byte) (s : State) : Host.Outcome State Fault Refusal :=
  match pushQueue b s with
  | some (ok, t) => .next (t.setRet (.bool ok))
  | none => .fault (.noSuchAddress .qmem s.q.endIdx)

/-- POP, R92. -/
def execPop (s : State) : Host.Outcome State Fault Refusal :=
  match popQueue s with
  | some (v, t) => .next (t.setRet (.byte v))
  | none => .fault (.noSuchAddress .qmem s.q.startIdx)

/-- IS_EMPTY, R93. -/
def execIsEmpty (s : State) : Host.Outcome State Fault Refusal :=
  .next (s.setRet (.bool (queueEmpty s.q)))

/-- IS_FULL, R94. -/
def execIsFull (s : State) : Host.Outcome State Fault Refusal :=
  .next (s.setRet (.bool (queueFull s.q)))

/-- ENQUEUE, R95: PUSH, and on failure raise Error(QueueOverflow). -/
def execEnqueue (b : Byte) (s : State) : Host.Outcome State Fault Refusal :=
  match pushQueue b s with
  | some (true, t) => .next t
  | some (false, t) => .next (t.raise .queueOverflow)
  | none => .fault (.noSuchAddress .qmem s.q.endIdx)

end Sys2Proof.Machine
end

