-- ==== Sys2Proof/Machine/MainLoop.lean ====
section
/-! DEFINITION. The main loop: MAIN_ITER as one operation (44_main_loop.md R155 to R157), and the main
context's atomic steps (20_memory.md R61, 10_state.md R35). -/

namespace Sys2Proof.Machine

/-- The test-and-clear of the latch, one atomic step (R63, R157): what the test read, and the state after. -/
def testAndClear (s : State) : Bool × State := (s.latch, s.setLatch false)

/-- Phase 2, the error report (R157, R174): the block's exception entry; there is no return (R175). -/
def reportErrors (s : State) : State :=
  match testAndClear s with
  | (true, t) => sendError t
  | (false, t) => t

/-- Phase 1 after the POP (R156). -/
def parsePopped (v : Option Byte) (s : State) : State :=
  match v with
  | some b => parseByte b s
  | none => s

/-- MAIN_ITER, R155, with no ENQUEUE inside it (R87). -/
def execMainIter (s : State) : Host.Outcome State Fault Refusal :=
  match popQueue s with
  | some (v, t) => .next (reportErrors (parsePopped v t))
  | none => .fault (.noSuchAddress .qmem s.q.startIdx)

/-- Where a POP's result leads (R156). -/
def afterPop (v : Option Byte) : Ctl :=
  match v with
  | some b => .parse b
  | none => .report

/-- Where the parser's part leads: phase 2, or a handler's send (R119, R121, R122). -/
def afterParse (r : Option Reply) : Ctl :=
  match r with
  | none => .report
  | some .pong => .startSend .handler .pong
  | some .temperature => .readTemp

/-- Where serialization leads (R140). -/
def afterLoad (o : Sender) (n : Option Nat) : Ctl :=
  match n with
  | some n => .emit o n 0
  | none => .endSend o false

/-- Where one poll leads (R143, R144). -/
def afterPoll (o : Sender) (n i t0 : Nat) (r : PollResult) : Ctl :=
  match r with
  | .ready => if i + 1 < n + Config.crcLen then .emit o n (i + 1) else .endSend o true
  | .timeout => .endSend o false
  | .again => .poll o n i t0

/-- What the caller of a finished SEND does: a handler raises on failure and the parser is reset (R119,
R146, R147); the error report discards the result and the iteration ends (R148, R175). -/
def finishSend (o : Sender) (ok : Bool) (s : State) : State :=
  match o with
  | .handler => ((raiseUnlessSent (ok, s)).resetParser).setCtl .report
  | .report => s.setCtl .iterStart

/-- Phase 2 as a step (R157): test and clear, then the report if the latch was set. -/
def reportStep (s : State) : State :=
  match testAndClear s with
  | (true, t) => t.setCtl (.startSend .report .error)
  | (false, t) => t.setCtl .iterStart

/-- The main context's next atomic step (R61). DESIGN CHOICE: at a control point whose transmit transient is outside
the ranges of R39 (n, i or t0; an i at 16 or more names no byte of TXBUF, R41) the spec is silent and the machine goes
on, such a byte reading as the free power-on value (log 32); no state with the invariant has one. -/
def mainStep (s : State) : Host.Outcome State Fault Refusal :=
  match s.ctl with
  | .iterStart =>
    match popQueue s with
    | some (v, t) => .next (t.setCtl (afterPop v))
    | none => .fault (.noSuchAddress .qmem s.q.startIdx)
  | .parse b => .next ((parseStep b s).1.setCtl (afterParse (parseStep b s).2))
  | .readTemp => .next (s.readTemp.2.setCtl (.startSend .handler (.responseTemp s.readTemp.1)))
  | .startSend o pkt => .next ((loadFrame pkt s).2.setCtl (afterLoad o (loadFrame pkt s).1))
  | .emit o n i =>
    let r := (s.emitTx (s.readByte .txbuf i)).readTick
    .next (r.2.setCtl (.poll o n i r.1))
  | .poll o n i t0 => .next ((pollOnce t0 s).2.setCtl (afterPoll o n i t0 (pollOnce t0 s).1))
  | .endSend o ok => .next (finishSend o ok s)
  | .report => .next (reportStep s)

end Sys2Proof.Machine
end

