-- ==== Sys2Proof/Machine/Fetch.lean ====
section
/-! DEFINITION. What runs next: the head of the schedule, or the main context (20_memory.md R60, R64;
44_main_loop.md R160, R161; log 2). -/

namespace Sys2Proof.Machine

/-- What the next step is. -/
inductive Fetched where
  /-- One instruction, on the state from which its event has been taken. -/
  | instr (i : Instr) (s : State)
  /-- The main context's atomic step. -/
  | main (s : State)
deriving DecidableEq, Repr

/-- The schedule after bytes were taken from a `wire` entry. -/
def restOfWire (bs : List Byte) (es : List Event) : List Event :=
  match bs with
  | [] => es
  | b :: bs => .wire (b :: bs) :: es

/-- The instruction at the head of wire bytes: a whole frame where the decoder reads one, else PARSE_BYTE of
the first byte, whose outcome the parser defines for every byte (R84; log 20). -/
def fetchWire (bs : List Byte) (es : List Event) (s : State) : Fetched :=
  match bs with
  | [] => .main (s.setSched es)
  | b :: rest =>
    match decode s.par.stubLen (b :: rest) with
    | .ok (i, left) => .instr i (s.setSched (restOfWire left es))
    | .error _ => .instr (.parseByte b) (s.setSched (restOfWire rest es))

/-- What runs next. A direct call and wire bytes wait until the main context stands between two iterations:
nothing preempts the main loop but the receive interrupt (R59). A direct call runs whatever its operands are
(log 22). -/
def fetch (s : State) : Fetched :=
  match s.env.sched with
  | [] => .main s
  | .rx b :: es => .instr (.enqueue b) (s.setSched es)
  | .main :: es => .main (s.setSched es)
  | .call i :: es =>
    if s.ctl = .iterStart then .instr i (s.setSched es) else .main s
  | .wire bs :: es => if s.ctl = .iterStart then fetchWire bs es s else .main s

/-- `s` with the frame a table word stands for as the next thing to run: on the wire, the main context
between two iterations (log 2). -/
def placeFrame (s : State) (nbits w : Nat) : State :=
  (s.setSched (.wire (tableFrame s.par.stubLen nbits w) :: s.env.sched)).setCtl .iterStart

end Sys2Proof.Machine
end

