-- ==== Sys2Proof/Machine/Dispatch.lean ====
section
/-! DEFINITION. One arm per instruction. -/

namespace Sys2Proof.Machine

def exec (i : Instr) (s : State) : Host.Outcome State Fault Refusal :=
  match i with
  | .rxError crc => Sys2Proof.Machine.execRxError crc s
  | .rxPing crc => Sys2Proof.Machine.execRxPing crc s
  | .rxPong crc => Sys2Proof.Machine.execRxPong crc s
  | .rxRequest crc => Sys2Proof.Machine.execRxRequest crc s
  | .rxRequestContinuousStart crc => Sys2Proof.Machine.execRxRequestContinuousStart crc s
  | .rxRequestContinuousStop crc => Sys2Proof.Machine.execRxRequestContinuousStop crc s
  | .rxResponse stub crc => Sys2Proof.Machine.execRxResponse stub crc s
  | .rxInvalid => Sys2Proof.Machine.execRxInvalid s
  | .rxUnassigned t => Sys2Proof.Machine.execRxUnassigned t s
  | .txError => Sys2Proof.Machine.execTxError s
  | .txPing => Sys2Proof.Machine.execTxPing s
  | .txPong => Sys2Proof.Machine.execTxPong s
  | .txRequest => Sys2Proof.Machine.execTxRequest s
  | .txResponse w => Sys2Proof.Machine.execTxResponse w s
  | .push b => Sys2Proof.Machine.execPush b s
  | .pop => Sys2Proof.Machine.execPop s
  | .isEmpty => Sys2Proof.Machine.execIsEmpty s
  | .isFull => Sys2Proof.Machine.execIsFull s
  | .enqueue b => Sys2Proof.Machine.execEnqueue b s
  | .serialize pkt buf cap => Sys2Proof.Machine.execSerialize pkt buf cap s
  | .parseByte b => Sys2Proof.Machine.execParseByte b s
  | .dispatch t => Sys2Proof.Machine.execDispatch t s
  | .parserReset => Sys2Proof.Machine.execParserReset s
  | .framingError => Sys2Proof.Machine.execFramingError s
  | .send pkt => Sys2Proof.Machine.execSend pkt s
  | .sendByte b => Sys2Proof.Machine.execSendByte b s
  | .sendPong => Sys2Proof.Machine.execSendPong s
  | .sendTemperature => Sys2Proof.Machine.execSendTemperature s
  | .sendError => Sys2Proof.Machine.execSendError s
  | .mainIter => Sys2Proof.Machine.execMainIter s

end Sys2Proof.Machine
end

