-- ==== Sys2Proof/Safety.lean ====
section
/-! DEFINITION. What counts as a good state and a safe run, in the terms the statements use: the invariants of
10_state.md R26 and R32, the frame of the transmit assembler, and scripted environments. -/

namespace Sys2Proof.Machine

/-! ### The queue -/

/-- The queue invariant of R26 (a) and (b). -/
abbrev queueOk (n : Nat) (q : Queue) : Prop :=
  q.startIdx < n ∧ q.endIdx < n ∧ (q.empty = true → q.startIdx = q.endIdx)

/-- The held bytes, oldest first (R26). -/
def heldBytes (s : State) : List Byte :=
  (List.range (queueCount s.par.capacity s.q)).map fun k =>
    s.readByte .qmem ((s.q.startIdx + k) % s.par.capacity)

/-- A queue operation of a component test (R96). -/
inductive QueueOp where
  | push (b : Byte)
  | pop
deriving DecidableEq, Repr

/-- What a run of queue operations did: the bytes successful POPs returned, the bytes successful PUSHes
stored, and the state after. -/
structure QueueRun where
  popped   : List Byte
  accepted : List Byte
  final    : State
deriving DecidableEq, Repr

/-- The byte a POP returned, if any. -/
def poppedByte (r : Ret) : List Byte :=
  match r with
  | .byte (some v) => [v]
  | .byte none | .nothing | .bool _ | .size _ => []

/-- The byte a PUSH stored, if it did. -/
def acceptedByte (b : Byte) (r : Ret) : List Byte :=
  match r with
  | .bool true => [b]
  | .bool false | .byte _ | .nothing | .size _ => []

/-- Runs queue operations one after the other; no outcome when one of them stops. -/
def runQueueOps (ops : List QueueOp) (s : State) : Option QueueRun :=
  match ops with
  | [] => some { popped := [], accepted := [], final := s }
  | .push b :: ops =>
    match exec (.push b) s with
    | .next t => (runQueueOps ops t).map fun r => { r with accepted := acceptedByte b t.ret ++ r.accepted }
    | .fault _ | .refused _ => none
  | .pop :: ops =>
    match exec .pop s with
    | .next t => (runQueueOps ops t).map fun r => { r with popped := poppedByte t.ret ++ r.popped }
    | .fault _ | .refused _ => none

/-! ### The parser -/

/-- The parser waits for a first magic byte with an empty frame (R30, R31). -/
abbrev parserIdle (s : State) : Prop := s.p.state = .firstMagic ∧ s.p.idx = 0

/-- The length of the body the parser expects for a type (R33, R78). -/
def bodyLen (l : StubLen) (t : PacketType) : Nat :=
  match t with
  | .response => Config.headerLen + stubBytes l
  | .invalid | .error | .ping | .pong | .request | .requestContinuousStart | .requestContinuousStop =>
    Config.headerLen

/-- The tie between `p.state`, `p.idx`, `p.boundary`, `p.type` and `p.buf` between bytes (R32). -/
abbrev parserBetweenBytes (s : State) : Prop :=
  match s.p.state with
  | .firstMagic => s.p.idx = 0
  | .secondMagic => s.p.idx = 1 ∧ s.readBytes .rxbuf 0 1 = [Config.magic0]
  | .packetType => s.p.idx = 2 ∧ s.readBytes .rxbuf 0 2 = [Config.magic0, Config.magic1]
  | .payload => s.p.idx = 3 ∧ s.par.stubLen = .one ∧ s.p.type = .response ∧
      s.readBytes .rxbuf 0 3 = header .response
  | .crc32 => s.p.type ≠ .invalid ∧ s.p.boundary = bodyLen s.par.stubLen s.p.type ∧
      s.p.boundary ≤ s.p.idx ∧ s.p.idx ≤ s.p.boundary + 3 ∧ s.readBytes .rxbuf 0 3 = header s.p.type

/-! ### The transmit assembler -/

/-- Whether PARSE_BYTE is executing: a handler's send is under way (R119, R159). -/
def inHandler (c : Ctl) : Bool :=
  match c with
  | .readTemp | .startSend .handler _ | .emit .handler _ _ | .poll .handler _ _ _ | .endSend .handler _ => true
  | .iterStart | .parse _ | .report => false
  | .startSend .report _ | .emit .report _ _ | .poll .report _ _ _ | .endSend .report _ => false

/-- A complete frame of a packet whose body has `n` bytes stands in TXBUF (R142, R143); the error report
sends ERROR frames only (R148). -/
def frameLoaded (o : Sender) (n : Nat) (s : State) : Prop :=
  ∃ pkt, packetSize pkt = n ∧ (o = .report → pkt = .error) ∧
    s.readBytes .txbuf 0 (n + Config.crcLen) = packetFrame s.par.checksum pkt

/-- The ranges of the transmit transient (R39) and the frame it runs over. -/
def sendOk (s : State) : Prop :=
  match s.ctl with
  | .emit o n i => i < n + Config.crcLen ∧ frameLoaded o n s
  | .poll o n i t0 => i < n + Config.crcLen ∧ t0 < 2 ^ s.par.tickWidth ∧ frameLoaded o n s
  | .startSend .report pkt => pkt = .error
  | .startSend .handler _ | .iterStart | .parse _ | .readTemp | .endSend _ _ | .report => True

/-- `t` is `s` after some waiting: only the environment's script and clock moved, the clock not backwards. -/
def Waited (s t : State) : Prop :=
  t = s.setEnv { s.env with ready := t.env.ready, dt := t.env.dt, now := t.env.now, draws := t.env.draws } ∧
    s.env.now ≤ t.env.now

/-- `s` with bytes emitted, in order (R8). -/
def State.emitAll (s : State) (bs : List Byte) : State := s.setEnv { s.env with tx := s.env.tx ++ bs }

/-- `t` is `s` after transmitting: only TXBUF, the transmit trace, and the environment's script and clock
moved. Everything else (queue, parser, latch, control point, result, parameters, schedule, temperatures, a
caller's buffer) is unchanged. -/
def OnlyTransmitted (s t : State) : Prop :=
  t = { s with
    tbuf := t.tbuf
    env := { s.env with tx := t.env.tx, ready := t.env.ready, dt := t.env.dt, now := t.env.now, draws := t.env.draws } }

/-- The next `k` polls are scripted to find the transmit-ready flag set (the environment READY of R87). -/
abbrev readyFor (k : Nat) (s : State) : Prop := s.env.ready.take k = List.replicate k true

/-- Bytes of a space outside a range read in `t` as in `s`. -/
def bytesKeptFrom (sp : Space) (a : Nat) (s t : State) : Prop :=
  ∀ x, a ≤ x → t.readByte sp x = s.readByte sp x

/-- The length of the frame a type's handler replies with: FRAME(PONG) or FRAME(RESPONSE) (R121, R122), or
nothing. -/
def replyLen (t : PacketType) : Nat :=
  match t with
  | .ping => 7
  | .request => 11
  | .invalid | .error | .pong | .requestContinuousStart | .requestContinuousStop | .response => 0

/-- The length of the frame an RX row can be answered with; nothing for every other row. -/
def replyLenOf (i : Instr) : Nat :=
  match i with
  | .rxPing _ => replyLen .ping
  | .rxRequest _ => replyLen .request
  | .rxError _ | .rxPong _ | .rxRequestContinuousStart _ | .rxRequestContinuousStop _ | .rxResponse _ _ => 0
  | .rxInvalid | .rxUnassigned _ => 0
  | .txError | .txPing | .txPong | .txRequest | .txResponse _ => 0
  | .push _ | .pop | .isEmpty | .isFull | .enqueue _ | .serialize _ _ _ => 0
  | .parseByte _ | .dispatch _ | .parserReset | .framingError => 0
  | .send _ | .sendByte _ | .sendPong | .sendTemperature | .sendError | .mainIter => 0

/-! ### The whole machine -/

/-- The invariant: the queue (R26), the parser between bytes (R32) and during a handler's send (R119), the
transmit transient (R39), and every space in canonical form with no byte beyond the ones the rules reach
(R50, R129). -/
structure State.Inv (s : State) : Prop where
  capacity : 1 ≤ s.par.capacity
  queue    : queueOk s.par.capacity s.q
  parser   : inHandler s.ctl = false → parserBetweenBytes s
  handler  : inHandler s.ctl = true →
    s.p.state = .crc32 ∧ s.p.boundary = Config.headerLen ∧ s.p.idx = s.p.boundary + Config.crcLen
  send     : sendOk s
  qmemWf   : Memory.wf s.q.buf
  rxbufWf  : Memory.wf s.p.buf
  txbufWf  : Memory.wf s.tbuf
  callerWf : Memory.wf s.env.caller
  qmemIn   : ∀ c ∈ s.q.buf, c.1 < s.par.capacity
  rxbufIn  : ∀ c ∈ s.p.buf, c.1 < 8
  txbufIn  : ∀ c ∈ s.tbuf, c.1 < 11

/-- Runs instructions one after the other as direct calls, as the scenarios of R87 and R88 do, stopping at the
first that stops. -/
def execAll (is : List Instr) (s : State) : Host.Outcome State Fault Refusal :=
  match is with
  | [] => .next s
  | i :: is =>
    match exec i s with
    | .next t => execAll is t
    | .fault r => .fault r
    | .refused r => .refused r

/-- The instruction of a received short frame of a type (R79): none for the two types that have no short
frame. -/
def shortFrameInstr (t : PacketType) (crc : Word) : Option Instr :=
  match t with
  | .error => some (.rxError crc)
  | .ping => some (.rxPing crc)
  | .pong => some (.rxPong crc)
  | .request => some (.rxRequest crc)
  | .requestContinuousStart => some (.rxRequestContinuousStart crc)
  | .requestContinuousStop => some (.rxRequestContinuousStop crc)
  | .invalid | .response => none

/-- `C(T)` of R86 in a state: the checksum of a short frame's body. -/
def shortChecksum (s : State) (t : PacketType) : Word := checksumOf s.par.checksum (header t)

/-- What a SEND of `pkt` needs of the state: a capacity its body fits in (true of the default TX_SER_CAP,
R141), TXBUF in canonical form. -/
abbrev canSend (pkt : Packet) (s : State) : Prop := packetSize pkt ≤ s.par.serCap ∧ Memory.wf s.tbuf

/-- `i` sends `pkt` whole under READY (R140 to R143): it answers true, the frame is emitted and stands in
TXBUF, TXBUF beyond the frame is unchanged (R142), one ready answer per byte is used up, and nothing else
changed. -/
def SendsWhole (i : Instr) (pkt : Packet) : Prop :=
  ∀ s, canSend pkt s → readyFor (packetSize pkt + 4) s →
    ∃ t, exec i s = .next t ∧ t.ret = .bool true ∧
      t.env.tx = s.env.tx ++ packetFrame s.par.checksum pkt ∧
      t.readBytes .txbuf 0 (packetSize pkt + 4) = packetFrame s.par.checksum pkt ∧
      bytesKeptFrom .txbuf (packetSize pkt + 4) s t ∧
      t.env.ready = s.env.ready.drop (packetSize pkt + 4) ∧
      OnlyTransmitted s (t.setRet s.ret)

end Sys2Proof.Machine
end

