-- ==== Sys2Proof/Certificates/Slice0/Obligations.lean ====
section
/-! DEFINITION. The statements for the provers. Each docstring names the rule of spec/ it formalises. A premise
`Memory.wf` or `queueOk` is part of the invariant `State.Inv`, stated below to hold at reset and to be kept by
every step. -/

open Sys2Proof Sys2Proof.Machine

/-! ## Encoding -/

/-- Words written out from the spec's encodings (R71, R74, R85; 95_test_vectors.md section 0) decode to the frames
they stand for, and a wrong magic byte is refused (R83). -/
def Obligations.SpecWordsDecode : Prop :=
  decodeTableWord 24 0x0155AA = some (.rxError 0) ∧
  decodeTableWord 24 0x0255AA = some (.rxPing 0) ∧
  decodeTableWord 24 0x0355AA = some (.rxPong 0) ∧
  decodeTableWord 24 0x0455AA = some (.rxRequest 0) ∧
  decodeTableWord 24 0x0555AA = some (.rxRequestContinuousStart 0) ∧
  decodeTableWord 24 0x0655AA = some (.rxRequestContinuousStop 0) ∧
  decodeTableWord 24 0x0755AA = some (.rxResponse (some 0) 0) ∧
  decodeTableWord 24 0x0055AA = some .rxInvalid ∧
  decodeTableWord 24 0x0855AA = some (.rxUnassigned 8) ∧
  decodeTableWord 24 0xFF55AA = some (.rxUnassigned 255) ∧
  decodeTableWord 56 0x026CC9990255AA = some (.rxPing 0x026CC999) ∧
  decodeTableWord 64 0x26A45CE1000755AA = some (.rxResponse (some 0) 0x26A45CE1) ∧
  decodeTableWord 24 0x0255AB = none ∧ decodeTableWord 24 0x0254AA = none

/-- Decode and encode agree: every well-formed received frame, with every operand at every value, followed by
any bytes, decodes to itself and leaves those bytes (R71, R77, R78). -/
def Obligations.DecodeOfEncodeIsTheFrame : Prop :=
  ∀ (P : Params) (i : Instr) (rest : List Byte), isReceived i = true → wellFormed P i = true →
    decode P.stubLen (encode P i ++ rest) = .ok (i, rest)

/-- The other direction: what the decoder reads is a well-formed received frame, and the bytes it read are that
frame's encoding; so each byte string has one meaning (R84). -/
def Obligations.DecodedBytesAreTheEncoding : Prop :=
  ∀ (P : Params) (bs rest : List Byte) (i : Instr), decode P.stubLen bs = .ok (i, rest) →
    isReceived i = true ∧ wellFormed P i = true ∧ bs = encode P i ++ rest

/-- A frame the block transmits, met by the block's own decoder: a short frame is the received frame of the same
type with a matching trailer (R77); the 11-byte RESPONSE frame is read as an 8-byte frame and three stray
bytes (R78), with PAYLOAD_STUB_LEN = 1. -/
def Obligations.TransmittedFramesDecode : Prop :=
  (∀ (P : Params) (pkt : Packet) (rest : List Byte), (∀ w, pkt ≠ .responseTemp w) →
    ∃ i, shortFrameInstr (packetType pkt) (checksumOf P.checksum (packetBody pkt)) = some i ∧
      decode P.stubLen (packetFrame P.checksum pkt ++ rest) = .ok (i, rest)) ∧
  (∀ (c : Checksum) (w : Word), ∃ crc x y z,
    decode .one (packetFrame c (.responseTemp w)) = .ok (.rxResponse (some (w.extractLsb' 0 8)) crc, [x, y, z]))

/-! ## Reset and the step -/

/-- The reset state of R185; every byte of every space reads as the uninterpreted power-on value. -/
def Obligations.ResetState : Prop :=
  State.reset.q.startIdx = 0 ∧ State.reset.q.endIdx = 0 ∧ State.reset.q.empty = true ∧
  State.reset.p.state = .firstMagic ∧ State.reset.p.idx = 0 ∧ State.reset.p.boundary = 0 ∧
  State.reset.p.type = .invalid ∧ State.reset.latch = false ∧ State.reset.ctl = .iterStart ∧
  (∀ sp a, State.reset.readByte sp a = Config.powerOnByte sp a)

/-- A step runs what is fetched: a frame at the head of wire bytes when the main context stands between two
iterations, or PARSE_BYTE of the first wire byte when no whole frame stands there (log 20); the receive interrupt at
ANY control point (R60, R172); a direct call, whatever its operands (log 22); else, and while a call or wire bytes
wait for the start of an iteration, the main context's atomic step. The schedule is the model's own (log 2). -/
def Obligations.StepRunsWhatIsFetched : Prop :=
  (∀ (s : State) (bs : List Byte) (es : List Event) (i : Instr) (left : List Byte), s.ctl = .iterStart →
    s.env.sched = .wire bs :: es → decode s.par.stubLen bs = .ok (i, left) →
    step s = exec i (s.setSched (restOfWire left es))) ∧
  (∀ (s : State) (b : Byte) (bs : List Byte) (es : List Event) (e : DecodeError), s.ctl = .iterStart →
    s.env.sched = .wire (b :: bs) :: es → decode s.par.stubLen (b :: bs) = .error e →
    step s = exec (.parseByte b) (s.setSched (restOfWire bs es))) ∧
  (∀ (s : State) (es : List Event), s.ctl = .iterStart → s.env.sched = .wire [] :: es →
    step s = mainStep (s.setSched es)) ∧
  (∀ (s : State) (b : Byte) (es : List Event), s.env.sched = .rx b :: es →
    step s = exec (.enqueue b) (s.setSched es)) ∧
  (∀ (s : State) (i : Instr) (es : List Event), s.ctl = .iterStart → s.env.sched = .call i :: es →
    step s = exec i (s.setSched es)) ∧
  (∀ (s : State) (e : Event) (es : List Event), s.ctl ≠ .iterStart → s.env.sched = e :: es →
    ((∃ i, e = .call i) ∨ ∃ bs, e = .wire bs) → step s = mainStep s) ∧
  (∀ s : State, s.env.sched = [] → step s = mainStep s) ∧
  (∀ (s : State) (es : List Event), s.env.sched = .main :: es → step s = mainStep (s.setSched es))

/-- No instruction stops the block (R171): in every state whose queue indices are in range, with every operand,
`exec` answers a next state. That every wait of a send ends assumes that the tick advances (R145, R199, 92 D27;
log 12). -/
def Obligations.EveryInstructionCompletes : Prop :=
  ∀ (i : Instr) (s : State), queueOk s.par.capacity s.q → ∃ t, exec i s = .next t

/-! ## The byte queue -/

/-- PUSH (R91): into a queue that is not full it stores at the end index, advances it modulo N, clears the empty
flag and answers true; into a full queue it answers false and writes nothing. -/
def Obligations.PushStoresOrDrops : Prop :=
  (∀ (s : State) (b : Byte), queueOk s.par.capacity s.q → queueFull s.q = false →
    exec (.push b) s = .next ((s.setQueue
      { buf := s.q.buf.write s.q.endIdx b, startIdx := s.q.startIdx,
        endIdx := (s.q.endIdx + 1) % s.par.capacity, empty := false }).setRet (.bool true))) ∧
  (∀ (s : State) (b : Byte), queueFull s.q = true → exec (.push b) s = .next (s.setRet (.bool false)))

/-- POP (R92): from a queue that holds a byte it answers the byte at the start index, advances the index modulo N
and recomputes the empty flag; from an empty queue it answers none and changes nothing. -/
def Obligations.PopTakesTheOldest : Prop :=
  (∀ s : State, queueOk s.par.capacity s.q → s.q.empty = false →
    exec .pop s = .next ((s.setQueue { s.q with
      startIdx := (s.q.startIdx + 1) % s.par.capacity
      empty := decide ((s.q.startIdx + 1) % s.par.capacity = s.q.endIdx) }).setRet
        (.byte (some (s.readByte .qmem s.q.startIdx))))) ∧
  (∀ s : State, s.q.empty = true → exec .pop s = .next (s.setRet (.byte none)))

/-- IS_EMPTY and IS_FULL (R93, R94) are pure observers; in a state that satisfies R26 they answer whether the
count is 0 and whether it is N, so not both. -/
def Obligations.ObserversTellTheCount : Prop :=
  ∀ s : State, queueOk s.par.capacity s.q →
    exec .isEmpty s = .next (s.setRet (.bool (decide (queueCount s.par.capacity s.q = 0)))) ∧
    exec .isFull s = .next (s.setRet (.bool (decide (queueCount s.par.capacity s.q = s.par.capacity))))

/-- ENQUEUE (R95): a byte that fits is appended to the held bytes and the latch is not touched; on overflow the
byte is dropped, the latch is set and nothing else changes. In neither case does anything outside the queue
and the latch change, nor any byte of QMEM but the slot at the end index. -/
def Obligations.EnqueueAppendsOrRaises : Prop :=
  ∀ (s : State) (b : Byte), queueOk s.par.capacity s.q → Memory.wf s.q.buf →
    (queueCount s.par.capacity s.q < s.par.capacity →
      ∃ t, exec (.enqueue b) s = .next t ∧ heldBytes t = heldBytes s ++ [b] ∧ t = s.setQueue t.q ∧
        t.q.startIdx = s.q.startIdx ∧ ∀ a, a ≠ s.q.endIdx → t.readByte .qmem a = s.readByte .qmem a) ∧
    (queueCount s.par.capacity s.q = s.par.capacity → exec (.enqueue b) s = .next (s.setLatch true))

/-- FIFO (R96) for any interleaving of PUSHes and POPs from any state that satisfies R26: what was popped,
followed by what is still held, is what was held at the start, followed by what was accepted. -/
def Obligations.QueueIsFifo : Prop :=
  ∀ (ops : List QueueOp) (s : State), queueOk s.par.capacity s.q → Memory.wf s.q.buf →
    ∃ r, runQueueOps ops s = some r ∧ r.popped ++ heldBytes r.final = heldBytes s ++ r.accepted

/-- The FIFO round trip (R96): pushing at most N bytes into an empty queue and popping as many gives them back
in order, and leaves the queue empty. -/
def Obligations.FifoRoundTrip : Prop :=
  ∀ (bs : List Byte) (s : State), queueOk s.par.capacity s.q → Memory.wf s.q.buf → s.q.empty = true →
    bs.length ≤ s.par.capacity →
    ∃ r, runQueueOps (bs.map .push ++ List.replicate bs.length .pop) s = some r ∧ r.popped = bs ∧
      r.final.q.empty = true

/-- PUSH, POP and ENQUEUE keep the queue invariant (R97), and change the count by +1 (a byte stored), -1 (a byte
taken) or 0 (the queue was full, or empty); the count stays in [0, N]. -/
def Obligations.QueueOpsKeepTheInvariant : Prop :=
  ∀ (s t : State) (b : Byte), queueOk s.par.capacity s.q →
    (exec (.push b) s = .next t ∨ exec (.enqueue b) s = .next t →
      queueOk t.par.capacity t.q ∧ queueCount t.par.capacity t.q =
        (if queueFull s.q = true then queueCount s.par.capacity s.q else queueCount s.par.capacity s.q + 1) ∧
        queueCount t.par.capacity t.q ≤ t.par.capacity) ∧
    (exec .pop s = .next t →
      queueOk t.par.capacity t.q ∧ queueCount t.par.capacity t.q = queueCount s.par.capacity s.q - 1)

/-! ## Serialization -/

/-- SERIALIZE of any packet into either buffer with enough capacity (R101 to R106): the size is returned, the
buffer begins with the body, every byte beyond the body is unchanged, and nothing else changes. The bodies are
the ones R102 to R106 write out. -/
def Obligations.SerializeWritesTheBody : Prop :=
  (∀ (pkt : Packet) (buf : Buffer) (cap : Nat) (s : State), packetSize pkt ≤ cap →
    Memory.wf (s.mem (bufferSpace buf)) →
    ∃ t, exec (.serialize pkt buf cap) s = .next t ∧ t.ret = .size (some (packetSize pkt)) ∧
      t.readBytes (bufferSpace buf) 0 (packetSize pkt) = packetBody pkt ∧
      bytesKeptFrom (bufferSpace buf) (packetSize pkt) s t ∧
      t = (s.setMem (bufferSpace buf) (t.mem (bufferSpace buf))).setRet t.ret) ∧
  packetBody .error = [0xAA#8, 0x55#8, 1#8] ∧ packetBody .ping = [0xAA#8, 0x55#8, 2#8] ∧
  packetBody .pong = [0xAA#8, 0x55#8, 3#8] ∧ packetBody .request = [0xAA#8, 0x55#8, 4#8] ∧
  (∀ w : Word, packetBody (.responseTemp w) = [0xAA#8, 0x55#8, 7#8, w.extractLsb' 0 8, w.extractLsb' 8 8,
    w.extractLsb' 16 8, w.extractLsb' 24 8])

/-- SERIALIZE with too small a capacity (R107): none is returned, no byte at or beyond the capacity is written,
and nothing else changes. What stands below the capacity is left free (log 14); `draws` is the model's own. -/
def Obligations.SerializeFailureIsContained : Prop :=
  ∀ (pkt : Packet) (buf : Buffer) (cap : Nat) (s : State), cap < packetSize pkt →
    Memory.wf (s.mem (bufferSpace buf)) →
    ∃ t, exec (.serialize pkt buf cap) s = .next t ∧ t.ret = .size none ∧
      bytesKeptFrom (bufferSpace buf) cap s t ∧
      t.setEnv { t.env with draws := s.env.draws } =
        (s.setMem (bufferSpace buf) (t.mem (bufferSpace buf))).setRet t.ret

/-! ## The transmit assembler -/

/-- SEND of every packet, and every TX row of the opcode table, emits the whole frame under READY (R102 to R106
with R140 to R143). -/
def Obligations.SendEmitsTheFrame : Prop :=
  (∀ pkt : Packet, SendsWhole (.send pkt) pkt) ∧
  SendsWhole .txError .error ∧ SendsWhole .txPing .ping ∧ SendsWhole .txPong .pong ∧
  SendsWhole .txRequest .request ∧ (∀ w : Word, SendsWhole (.txResponse w) (.responseTemp w))

/-- SEND in every environment (R140, R143, R149): the trace gains a beginning of the packet's frame, at least one
byte, and all of it when SEND answers true; the frame stands in TXBUF and TXBUF beyond it is unchanged. When
the body does not fit TX_SER_CAP nothing is emitted and SEND answers false (R141). Either way only the transmit
side moves: the latch in particular is not touched. That SEND answers in every environment assumes that the tick
advances (R145, 92 D27; log 12). -/
def Obligations.SendTraceIsABeginningOfTheFrame : Prop :=
  ∀ (pkt : Packet) (s : State), Memory.wf s.tbuf →
    ∃ t ok, exec (.send pkt) s = .next t ∧ t.ret = .bool ok ∧ OnlyTransmitted s (t.setRet s.ret) ∧
      (packetSize pkt ≤ s.par.serCap → (∃ k, 1 ≤ k ∧ k ≤ packetSize pkt + 4 ∧
        t.env.tx = s.env.tx ++ (packetFrame s.par.checksum pkt).take k ∧
        (ok = true → k = packetSize pkt + 4)) ∧
        t.readBytes .txbuf 0 (packetSize pkt + 4) = packetFrame s.par.checksum pkt ∧
        bytesKeptFrom .txbuf (packetSize pkt + 4) s t) ∧
      (s.par.serCap < packetSize pkt →
        ok = false ∧ t.env.tx = s.env.tx ∧ bytesKeptFrom .txbuf s.par.serCap s t)

/-- An abandoned SEND (R149): when the waits of bytes 0 to k-1 find the flag set and the poll of byte k finds it
clear with the tick more than 100 ms past its start, SEND answers false and the trace gains exactly k+1 bytes of
the frame. -/
def Obligations.TimedOutSendEmitsKPlusOneBytes : Prop :=
  ∀ (pkt : Packet) (s : State) (k d : Nat) (ds ds' : List Nat) (r : List Bool), canSend pkt s →
    k < packetSize pkt + 4 → s.env.ready = List.replicate k true ++ false :: r →
    s.env.dt = ds ++ d :: ds' → ds.length = k + 1 → 100 < d % 2 ^ s.par.tickWidth →
    ∃ t, exec (.send pkt) s = .next t ∧ t.ret = .bool false ∧
      t.env.tx = s.env.tx ++ (packetFrame s.par.checksum pkt).take (k + 1) ∧
      OnlyTransmitted s (t.setRet s.ret)

/-- One round of polling (R144), on every control point that polls: a set flag ends the wait without reading the
tick; with a clear flag the wait is abandoned exactly when (tick - t0) mod 2^TICK_WIDTH exceeds 100, and goes
on otherwise. -/
def Obligations.OnePollOfTheWait : Prop :=
  ∀ (s : State) (o : Sender) (n i t0 : Nat), s.env.sched = [] → s.ctl = .poll o n i t0 →
    t0 < 2 ^ s.par.tickWidth →
    (∀ r, s.env.ready = true :: r →
      step s = .next ((s.setEnv { s.env with ready := r }).setCtl
        (if i + 1 < n + 4 then .emit o n (i + 1) else .endSend o true))) ∧
    (∀ r d ds, s.env.ready = false :: r → s.env.dt = d :: ds →
      step s = .next ((s.setEnv { s.env with
          ready := r, dt := ds, now := s.env.now + d, draws := s.env.draws + 1 }).setCtl
        (if 100 < (((s.env.now + d : Nat) : Int) - (t0 : Int)) % (2 ^ s.par.tickWidth : Nat)
          then .endSend o false else .poll o n i t0)))

/-- SEND_BYTE (R144, R145): in every environment the byte is emitted, the answer is a Boolean, and nothing but
the environment's script and clock moves; a flag set at the first poll answers true; the answer false comes
only after more than 100 ms. That it answers at all assumes that the tick advances (R145, 92 D27; log 12). -/
def Obligations.SendByteEmitsAndWaits : Prop :=
  ∀ (s : State) (b : Byte), ∃ t ok, exec (.sendByte b) s = .next t ∧ t.ret = .bool ok ∧
    t.env.tx = s.env.tx ++ [b] ∧ Waited (s.emitTx b) (t.setRet s.ret) ∧
    (s.env.ready.head? = some true → ok = true) ∧ (ok = false → s.env.now + 100 < t.env.now)

/-- sendPong (R146): SEND(Pong) with its result turned into the latch; the latch is set exactly when the send
failed and otherwise keeps its value. -/
def Obligations.SendPongRaisesOnFailure : Prop :=
  ∀ s u : State, exec (.send .pong) s = .next u →
    (u.ret = .bool true → exec .sendPong s = .next (u.setRet s.ret)) ∧
    (u.ret = .bool false → exec .sendPong s = .next ((u.setRet s.ret).setLatch true)) ∧
    (u.ret = .bool true ∨ u.ret = .bool false)

/-- sendTemperature (R147): the supplier is read once, first, and its answer is the payload of the SEND, whose
failure sets the latch. The answer is the next scripted one, which is used up, or, with nothing scripted, a free
value (R180, 93 U10; log 3). -/
def Obligations.SendTemperatureReadsOnceAndRaisesOnFailure : Prop :=
  (∀ s u : State, exec (.send (.responseTemp s.readTemp.1)) s.readTemp.2 = .next u →
    (u.ret = .bool true → exec .sendTemperature s = .next (u.setRet s.ret)) ∧
    (u.ret = .bool false → exec .sendTemperature s = .next ((u.setRet s.ret).setLatch true)) ∧
    (u.ret = .bool true ∨ u.ret = .bool false)) ∧
  (∀ (s : State) (w : Word) (ws : List Word), s.env.temps = w :: ws →
    s.readTemp = (w, s.setEnv { s.env with temps := ws })) ∧
  (∀ s : State, s.env.temps = [] →
    s.readTemp = (Config.freeTemp s.env.draws, s.setEnv { s.env with draws := s.env.draws + 1 }))

/-- sendError (R148): in every environment it completes without touching the latch, emitting a beginning of
`FRAME(ERROR)`; under READY it emits all of it. TXBUF beyond the frame is unchanged. That it completes in every
environment assumes that the tick advances (R145, 92 D27; log 12). -/
def Obligations.SendErrorDiscardsFailure : Prop :=
  ∀ s : State, canSend .error s →
    ∃ t k, exec .sendError s = .next t ∧ OnlyTransmitted s t ∧ t.latch = s.latch ∧ 1 ≤ k ∧ k ≤ 7 ∧
      t.env.tx = s.env.tx ++ (packetFrame s.par.checksum .error).take k ∧ bytesKeptFrom .txbuf 7 s t ∧
      (readyFor 7 s → k = 7)

/-- sendPong and sendTemperature under READY (R146, R147): the whole frame is emitted, the latch keeps its value, and
TXBUF beyond the frame is unchanged; the temperature is the supplier's answer, scripted or free (log 3). -/
def Obligations.HandlersSendWholeFramesUnderReady : Prop :=
  (∀ s : State, canSend .pong s → readyFor 7 s →
    ∃ t, exec .sendPong s = .next t ∧ OnlyTransmitted s t ∧
      t.env.tx = s.env.tx ++ packetFrame s.par.checksum .pong ∧ bytesKeptFrom .txbuf 7 s t) ∧
  (∀ s : State, canSend (.responseTemp s.readTemp.1) s → readyFor 11 s →
    ∃ t, exec .sendTemperature s = .next t ∧ OnlyTransmitted s.readTemp.2 t ∧
      t.env.tx = s.env.tx ++ packetFrame s.par.checksum (.responseTemp s.readTemp.1) ∧
      bytesKeptFrom .txbuf 11 s t)

/-! ## The parser, byte by byte -/

/-- States FIRST_MAGIC and SECOND_MAGIC (R111, R112, R113): the expected magic byte is stored and moves the parser
on; any other byte is stored and then the latch is set and the parser reset. A 0xAA that SECOND_MAGIC rejects is
not re-examined. -/
def Obligations.MagicStates : Prop :=
  (∀ (s : State) (b : Byte), s.p.state = .firstMagic → s.p.idx < 16 →
    (b = 0xAA#8 → exec (.parseByte b) s = .next (s.setParser { s.p with
      state := .secondMagic, idx := s.p.idx + 1, buf := s.p.buf.write s.p.idx b })) ∧
    (b ≠ 0xAA#8 → exec (.parseByte b) s = .next ((s.setParser { s.p with
      state := .firstMagic, idx := 0, buf := s.p.buf.write s.p.idx b }).setLatch true))) ∧
  (∀ (s : State) (b : Byte), s.p.state = .secondMagic → s.p.idx < 16 →
    (b = 0x55#8 → exec (.parseByte b) s = .next (s.setParser { s.p with
      state := .packetType, idx := s.p.idx + 1, buf := s.p.buf.write s.p.idx b })) ∧
    (b ≠ 0x55#8 → exec (.parseByte b) s = .next ((s.setParser { s.p with
      state := .firstMagic, idx := 0, buf := s.p.buf.write s.p.idx b }).setLatch true)))

/-- State PACKET_TYPE (R111, R114, R115, R116), over the numeric value of the byte and both values of
PAYLOAD_STUB_LEN, between which the spec's decision D6 leaves the choice (log 6). -/
def Obligations.PacketTypeState : Prop :=
  ∀ (s : State) (b : Byte), s.p.state = .packetType → s.p.idx < 16 →
    (1 ≤ b.toNat ∧ b.toNat ≤ 6 → ∃ t, typeCode t = b ∧ exec (.parseByte b) s = .next (s.setParser { s.p with
      state := .crc32, type := t, boundary := s.p.idx + 1, idx := s.p.idx + 1,
      buf := s.p.buf.write s.p.idx b })) ∧
    (b.toNat = 7 → s.par.stubLen = .one → exec (.parseByte b) s = .next (s.setParser { s.p with
      state := .payload, type := .response, idx := s.p.idx + 1, buf := s.p.buf.write s.p.idx b })) ∧
    (b.toNat = 7 → s.par.stubLen = .zero → exec (.parseByte b) s = .next (s.setParser { s.p with
      state := .crc32, type := .response, boundary := s.p.idx + 1, idx := s.p.idx + 1,
      buf := s.p.buf.write s.p.idx b })) ∧
    (b.toNat = 0 ∨ 8 ≤ b.toNat → exec (.parseByte b) s = .next ((s.setParser { s.p with
      state := .firstMagic, idx := 0, buf := s.p.buf.write s.p.idx b }).setLatch true))

/-- State PAYLOAD (R111, R117): any byte is stored, lies below the boundary, and leads to CRC32; that it is one byte is
the spec's decision D6 between two readings (log 6). State CRC32 before
the fourth trailer byte (R111, R118): the byte is stored, whatever it is, and nothing else happens. -/
def Obligations.PayloadAndTrailerBytesAreData : Prop :=
  (∀ (s : State) (b : Byte), s.p.state = .payload → s.p.idx < 16 →
    exec (.parseByte b) s = .next (s.setParser { s.p with
      state := .crc32, boundary := s.p.idx + 1, idx := s.p.idx + 1, buf := s.p.buf.write s.p.idx b })) ∧
  (∀ (s : State) (b : Byte), s.p.state = .crc32 → s.p.boundary ≤ s.p.idx → s.p.idx < s.p.boundary + 3 →
    s.p.boundary ≤ 12 →
    exec (.parseByte b) s = .next (s.setParser { s.p with
      idx := s.p.idx + 1, buf := s.p.buf.write s.p.idx b }))

/-- State CRC32 at the fourth trailer byte (R119, R120): the received checksum is the four bytes at the boundary,
least significant first; if it differs from crc32 over `[0, boundary)` the latch is set and nothing is
dispatched; if it matches, DISPATCH of the type runs; either way the parser is reset. -/
def Obligations.FrameCompletion : Prop :=
  ∀ (s : State) (b : Byte), s.p.state = .crc32 → s.p.idx = s.p.boundary + 3 → s.p.idx < 16 →
    Memory.wf s.p.buf →
    let stored := s.setParser { s.p with idx := s.p.idx + 1, buf := s.p.buf.write s.p.idx b }
    let rx := ofLE32 (s.readByte .rxbuf s.p.boundary) (s.readByte .rxbuf (s.p.boundary + 1))
      (s.readByte .rxbuf (s.p.boundary + 2)) b
    let computed := checksumOf s.par.checksum (s.readBytes .rxbuf 0 s.p.boundary)
    (rx ≠ computed → exec (.parseByte b) s = .next ((stored.setLatch true).setParser
      { stored.p with state := .firstMagic, idx := 0 })) ∧
    (rx = computed → ∀ t, exec (.dispatch s.p.type) stored = .next t →
      exec (.parseByte b) s = .next (t.setParser { t.p with state := .firstMagic, idx := 0 }))

/-- Buffer exhaustion (R110): the latch is set and the parser reset; that the byte is neither stored nor examined is
the spec's decision D7. -/
def Obligations.ExhaustedBufferDropsTheByte : Prop :=
  ∀ (s : State) (b : Byte), 16 ≤ s.p.idx →
    exec (.parseByte b) s = .next ((s.setParser { s.p with state := .firstMagic, idx := 0 }).setLatch true)

/-- What PARSE_BYTE leaves unchanged: every byte of RXBUF but the one at `p.idx`, all of QMEM and of a caller's
buffer, TXBUF beyond the reply of the frame's type (all of it when the type has none); the queue, the
parameters, the control point, the result and the schedule; the latch is not cleared (R50, R111, R177). -/
def Obligations.ParseByteFrame : Prop :=
  ∀ (s t : State) (b : Byte), Memory.wf s.p.buf → Memory.wf s.tbuf → exec (.parseByte b) s = .next t →
    (∀ a, a ≠ s.p.idx → t.readByte .rxbuf a = s.readByte .rxbuf a) ∧
    (s.p.idx < 16 → t.readByte .rxbuf s.p.idx = b) ∧
    (∀ a, t.readByte .qmem a = s.readByte .qmem a) ∧ (∀ a, t.readByte .caller a = s.readByte .caller a) ∧
    bytesKeptFrom .txbuf (replyLen s.p.type) s t ∧
    t.q = s.q ∧ t.par = s.par ∧ t.ctl = s.ctl ∧ t.ret = s.ret ∧ t.env.sched = s.env.sched ∧
    (s.latch = true → t.latch = true)

/-- DISPATCH (R121 to R127): PING is sendPong, REQUEST is sendTemperature, every other type sets the latch and
does nothing else. That the sentinel INVALID, which no frame reaches, is among those is the model's reading
of R169 (log 21). -/
def Obligations.DispatchByType : Prop :=
  ∀ s : State, exec (.dispatch .ping) s = exec .sendPong s ∧
    exec (.dispatch .request) s = exec .sendTemperature s ∧
    (∀ t : PacketType, t ≠ .ping → t ≠ .request → exec (.dispatch t) s = .next (s.setLatch true))

/-- PARSER_RESET (R128) and FRAMING_ERROR (R130). -/
def Obligations.ParserResetAndFramingError : Prop :=
  ∀ s : State,
    exec .parserReset s = .next (s.setParser { s.p with state := .firstMagic, idx := 0 }) ∧
    exec .framingError s = .next ((s.setParser { s.p with state := .firstMagic, idx := 0 }).setLatch true)

/-! ## Whole received frames -/

/-- A well-formed PING frame (R121): exactly one PONG frame is sent and no error is raised. -/
def Obligations.PingIsAnsweredByPong : Prop :=
  ∀ s : State, parserIdle s → Memory.wf s.p.buf → canSend .pong s → readyFor 7 s →
    ∃ t, exec (.rxPing (shortChecksum s .ping)) s = .next t ∧
      t.env.tx = s.env.tx ++ packetFrame s.par.checksum .pong ∧ t.latch = s.latch ∧
      parserIdle t ∧ t.p.type = .ping ∧ t.p.boundary = 3 ∧ t.q = s.q ∧ t.env.temps = s.env.temps

/-- A well-formed REQUEST frame (R122): exactly one RESPONSE frame with the supplier's next answer, the scripted one,
which is used up, or a free value (log 3), and no error. -/
def Obligations.RequestIsAnsweredByTheTemperature : Prop :=
  ∀ s : State, parserIdle s → Memory.wf s.p.buf → canSend (.responseTemp s.readTemp.1) s → readyFor 11 s →
    ∃ t, exec (.rxRequest (shortChecksum s .request)) s = .next t ∧
      t.env.tx = s.env.tx ++ packetFrame s.par.checksum (.responseTemp s.readTemp.1) ∧ t.latch = s.latch ∧
      parserIdle t ∧ t.p.type = .request ∧ t.p.boundary = 3 ∧ t.q = s.q ∧ t.env.temps = s.env.temps.tail

/-- Accepted PING and REQUEST frames in every environment (R121, R122, R170): the row does what SEND of the reply does
from the same state, its trace whole or cut short; the latch is set when that SEND answered false and otherwise
keeps its value; besides, only the parser moves, to FIRST_MAGIC. The row is the parse of its bytes with no latch test
in between (log 17). -/
def Obligations.AcceptedFramesDoWhatTheirSendDoes : Prop :=
  ∀ s u : State, parserIdle s → Memory.wf s.p.buf →
    (exec (.send .pong) s = .next u →
      ∃ t, exec (.rxPing (shortChecksum s .ping)) s = .next t ∧
        parserIdle t ∧ t.p.type = .ping ∧ t.p.boundary = 3 ∧ (u.ret = .bool true ∨ u.ret = .bool false) ∧
        t = ((u.setRet s.ret).setParser t.p).setLatch (s.latch || decide (u.ret = .bool false))) ∧
    (exec (.send (.responseTemp s.readTemp.1)) s.readTemp.2 = .next u →
      ∃ t, exec (.rxRequest (shortChecksum s .request)) s = .next t ∧
        parserIdle t ∧ t.p.type = .request ∧ t.p.boundary = 3 ∧ (u.ret = .bool true ∨ u.ret = .bool false) ∧
        t = ((u.setRet s.ret).setParser t.p).setLatch (s.latch || decide (u.ret = .bool false)))

/-- A well-formed ERROR, PONG, REQUEST_CONTINUOUS_START or REQUEST_CONTINUOUS_STOP frame (R123 to R126): the latch
is set, nothing is sent, and nothing but the latch and the parser changes. -/
def Obligations.UnhandledFramesRaise : Prop :=
  ∀ (s : State) (i : Instr), parserIdle s → Memory.wf s.p.buf →
    (i = .rxError (shortChecksum s .error) ∨ i = .rxPong (shortChecksum s .pong) ∨
      i = .rxRequestContinuousStart (shortChecksum s .requestContinuousStart) ∨
      i = .rxRequestContinuousStop (shortChecksum s .requestContinuousStop)) →
    ∃ t, exec i s = .next t ∧ t.latch = true ∧ parserIdle t ∧ t = (s.setParser t.p).setLatch true

/-- A received type-7 frame (R127): whatever its stub byte and its trailer, it ends in the latch being set and
sends nothing. -/
def Obligations.ReceivedResponseAlwaysRaises : Prop :=
  ∀ (s : State) (stub : Option Byte) (crc : Word), parserIdle s → Memory.wf s.p.buf →
    wellFormed s.par (.rxResponse stub crc) = true →
    ∃ t, exec (.rxResponse stub crc) s = .next t ∧ parserIdle t ∧ t.p.type = .response ∧
      t.p.boundary = 3 + stub.toList.length ∧ t = (s.setParser t.p).setLatch true

/-- A header with type 0 or 8..255 (R116): the latch is set at the type byte; the type and the boundary stay. -/
def Obligations.IllegalTypesRaise : Prop :=
  ∀ (s : State) (i : Instr), parserIdle s → wellFormed s.par i = true →
    (i = .rxInvalid ∨ ∃ b, i = .rxUnassigned b) →
    ∃ t, exec i s = .next t ∧ parserIdle t ∧ t.p.type = s.p.type ∧ t.p.boundary = s.p.boundary ∧
      t = (s.setParser t.p).setLatch true

/-- A checksum mismatch (R120): whatever the type, the latch is set and no handler is dispatched. In
particular, flipping any single bit of a well-formed frame's trailer has the frame rejected (R119). -/
def Obligations.WrongTrailerIsRejected : Prop :=
  ∀ (s : State) (ty : PacketType), parserIdle s → Memory.wf s.p.buf →
    (∀ (crc : Word) (i : Instr), shortFrameInstr ty crc = some i → crc ≠ shortChecksum s ty →
      ∃ t, exec i s = .next t ∧ parserIdle t ∧ t = (s.setParser t.p).setLatch true) ∧
    (∀ (k : Nat) (i : Instr), k < 32 → shortFrameInstr ty (shortChecksum s ty ^^^ BitVec.twoPow 32 k) = some i →
      ∃ t, exec i s = .next t ∧ parserIdle t ∧ t = (s.setParser t.p).setLatch true)

/-- Resynchronisation (R131), of the parser alone: garbage with no 0xAA before a well-formed PING is discarded and
the PING is answered; the latch is set exactly if there was garbage or it was set before. No latch test falls between
the bytes (log 17); in the main loop each garbage byte costs an ERROR frame besides (R193). -/
def Obligations.GarbageThenPingIsAnswered : Prop :=
  ∀ (s : State) (g : List Byte), parserIdle s → Memory.wf s.p.buf → canSend .pong s → readyFor 7 s →
    0xAA#8 ∉ g →
    ∃ t, execAll (g.map .parseByte ++ [.rxPing (shortChecksum s .ping)]) s = .next t ∧
      t.env.tx = s.env.tx ++ packetFrame s.par.checksum .pong ∧ parserIdle t ∧
      t.latch = (s.latch || !g.isEmpty)

/-- Resynchronisation can lose a good frame (R131, R195): a PING preceded by one 0xAA is not answered; the parser
alone sends nothing and sets the latch, whatever the checksum function. No latch test falls between the bytes (log
17); in the main loop each error costs an ERROR frame (R193). -/
def Obligations.StrayMagicLosesTheFrame : Prop :=
  ∀ s : State, parserIdle s → Memory.wf s.p.buf →
    ∃ t, execAll [.parseByte 0xAA#8, .rxPing (shortChecksum s .ping)] s = .next t ∧
      t.env.tx = s.env.tx ∧ t.latch = true

/-- What a received frame leaves unchanged, for every RX row from an idle parser: RXBUF holds the frame and is
unchanged beyond it (R50, R111), so is TXBUF beyond the row's reply (7 bytes for RX.PING, 11 for RX.REQUEST, none for
every other row), all of QMEM and of a caller's buffer; the queue, the parameters, the control point, the result
and the schedule; the latch is not cleared; and the parser is idle again (R119, R128). The row is the parse of its
bytes (log 17); that a reply's send ends assumes that the tick advances (R145, 92 D27; log 12). -/
def Obligations.ReceivedFrameFrame : Prop :=
  ∀ (i : Instr) (s : State), isReceived i = true → wellFormed s.par i = true → parserIdle s →
    Memory.wf s.p.buf → Memory.wf s.tbuf →
    ∃ t, exec i s = .next t ∧ parserIdle t ∧
      t.readBytes .rxbuf 0 (encode s.par i).length = encode s.par i ∧
      bytesKeptFrom .rxbuf (encode s.par i).length s t ∧ bytesKeptFrom .txbuf (replyLenOf i) s t ∧
      (∀ a, t.readByte .qmem a = s.readByte .qmem a) ∧ (∀ a, t.readByte .caller a = s.readByte .caller a) ∧
      t.q = s.q ∧ t.par = s.par ∧ t.ctl = s.ctl ∧ t.ret = s.ret ∧ t.env.sched = s.env.sched ∧
      (s.latch = true → t.latch = true)

/-- Bounded frame length (R129): from an idle parser, after any bytes at all, `p.idx` is at most 7, and RXBUF from
byte 8 on is unchanged. That the parse of any bytes ends assumes that the tick advances (R145, 92 D27; log 12). -/
def Obligations.FrameLengthIsBounded : Prop :=
  ∀ (bs : List Byte) (s : State), parserIdle s → Memory.wf s.p.buf →
    ∃ t, execAll (bs.map .parseByte) s = .next t ∧ t.p.idx ≤ 7 ∧ bytesKeptFrom .rxbuf 8 s t

/-! ## The main loop -/

/-- An iteration with an empty queue and a clear latch changes no state (R156). -/
def Obligations.IdleIterationChangesNothing : Prop :=
  ∀ s : State, s.q.empty = true → s.latch = false → exec .mainIter s = .next s

/-- The error report (R157, R174): an iteration that finds the queue empty and the latch set clears it and runs
sendError, in every environment; under READY that sends one ERROR frame and leaves TXBUF beyond it unchanged. -/
def Obligations.ErrorReportSendsOneErrorFrame : Prop :=
  ∀ s : State, s.q.empty = true → s.latch = true →
    exec .mainIter s = exec .sendError (s.setLatch false) ∧
    (canSend .error s → readyFor 7 s →
      ∃ t, exec .mainIter s = .next t ∧ t.latch = false ∧
        t.env.tx = s.env.tx ++ packetFrame s.par.checksum .error ∧ OnlyTransmitted (s.setLatch false) t ∧
        bytesKeptFrom .txbuf 7 s t)

/-- One iteration (R155 to R157, R159): the oldest held byte is parsed, and phase 2 follows: if the latch is then
set it is cleared and sendError runs. That an iteration ends assumes that the tick advances (R145, 92 D27; log 12). -/
def Obligations.IterationParsesOneByteThenReports : Prop :=
  ∀ (s u : State) (b : Byte) (rest : List Byte), queueOk s.par.capacity s.q → heldBytes s = b :: rest →
    exec .pop s = .next u →
    ∃ v t, exec (.parseByte b) (u.setRet s.ret) = .next v ∧ exec .mainIter s = .next t ∧ heldBytes t = rest ∧
      (v.latch = false → t = v) ∧ (v.latch = true → exec .sendError (v.setLatch false) = .next t)

/-- After an iteration with no arrival inside it the latch is clear, whatever happened in it (R157, R175). -/
def Obligations.LatchIsClearAfterAnIteration : Prop :=
  ∀ s t : State, exec .mainIter s = .next t → t.latch = false

/-- End to end (R121, R155, R159): a queue that holds exactly a well-formed PING frame, an idle parser, a clear
latch and READY: seven iterations send exactly one PONG frame and leave queue, parser and latch as they
were: empty, idle, clear. -/
def Obligations.QueuedPingIsAnsweredInSevenIterations : Prop :=
  ∀ s : State, s.Inv → parserIdle s → s.latch = false → canSend .pong s → readyFor 7 s →
    heldBytes s = encodeShort .ping (shortChecksum s .ping) →
    ∃ t, execAll (List.replicate 7 .mainIter) s = .next t ∧
      t.env.tx = s.env.tx ++ packetFrame s.par.checksum .pong ∧ heldBytes t = [] ∧ parserIdle t ∧ t.latch = false

/-- End to end (R120, R157, R192): a short frame in the queue that is not accepted, for a wrong trailer or for a
type other than PING and REQUEST (an ERROR or a PONG frame among them): seven iterations send exactly one ERROR
frame and nothing else, and leave the latch clear. -/
def Obligations.QueuedBadFrameIsAnsweredByOneError : Prop :=
  ∀ (s : State) (ty : PacketType) (crc : Word), s.Inv → parserIdle s → s.latch = false → canSend .error s →
    readyFor 7 s → ty ≠ .invalid → ty ≠ .response →
    crc ≠ shortChecksum s ty ∨ (ty ≠ .ping ∧ ty ≠ .request) → heldBytes s = encodeShort ty crc →
    ∃ t, execAll (List.replicate 7 .mainIter) s = .next t ∧
      t.env.tx = s.env.tx ++ packetFrame s.par.checksum .error ∧ heldBytes t = [] ∧ parserIdle t ∧ t.latch = false

/-! ## The two contexts and the whole machine -/

/-- The atomic steps of the main context, run with no arrival in between, make exactly MAIN_ITER (R61, R155): in
every environment whose schedule is empty, some number of steps leads from the start of an iteration to the
state MAIN_ITER gives. That the waits end assumes that the tick advances (R145, 92 D27; log 12). -/
def Obligations.AtomicStepsMakeAnIteration : Prop :=
  ∀ s t : State, s.ctl = .iterStart → s.env.sched = [] → exec .mainIter s = .next t →
    ∃ k, 0 < k ∧ core.run k s = .next t

/-- An ENQUEUE commutes with every atomic step of the main context that is neither the POP nor the latch
test-and-clear (R61): the two orders lead to the same state. -/
def Obligations.EnqueueCommutesWithMainSteps : Prop :=
  ∀ (s u v : State) (b : Byte), s.ctl ≠ .iterStart → s.ctl ≠ .report →
    exec (.enqueue b) s = .next u → mainStep s = .next v →
    ∃ t, mainStep u = .next t ∧ exec (.enqueue b) v = .next t

/-- The interrupt context writes the queue's buffer, end index and empty flag and may set the latch, and nothing
else, at whatever control point it cuts in (R177). Of QMEM it writes the slot at the end index only, with the byte that
arrived; into a full queue it writes nothing but the latch (R91, R95). -/
def Obligations.InterruptContextFrame : Prop :=
  ∀ (s t : State) (b : Byte) (es : List Event), s.env.sched = .rx b :: es → step s = .next t →
    t = ((s.setSched es).setQueue
        { s.q with buf := t.q.buf, endIdx := t.q.endIdx, empty := t.q.empty }).setLatch t.latch ∧
      (∀ a, a ≠ s.q.endIdx → t.readByte .qmem a = s.readByte .qmem a) ∧
      (queueFull s.q = true → t.q = s.q ∧ t.latch = true) ∧
      (queueFull s.q = false → t.readByte .qmem s.q.endIdx = b ∧ t.latch = s.latch)

/-- The latch is cleared only by the test-and-clear of phase 2 (R36): in the main context's report step, or in a
MAIN_ITER called whole. -/
def Obligations.LatchIsClearedOnlyByTheReport : Prop :=
  ∀ s t : State, step s = .next t → s.latch = true → t.latch = false →
    (∃ u, fetch s = .main u ∧ s.ctl = .report) ∨ (∃ u, fetch s = .instr .mainIter u)

/-- The queue is mutated by PUSH and POP only (R27): no instruction but PUSH, POP, ENQUEUE (a PUSH) and MAIN_ITER
(a POP) changes any queue field. -/
def Obligations.OnlyQueueOperationsChangeTheQueue : Prop :=
  ∀ (i : Instr) (s t : State), (∀ b, i ≠ .push b) → i ≠ .pop → (∀ b, i ≠ .enqueue b) →
    i ≠ .mainIter → exec i s = .next t → t.q = s.q

/-- The transmit trace only grows and the clock never goes back (R8, R179), and the parameters never change
(R5), in every step from every state. -/
def Obligations.TraceGrowsAndClockIsMonotone : Prop :=
  ∀ s t : State, step s = .next t →
    s.env.tx <+: t.env.tx ∧ s.env.now ≤ t.env.now ∧ t.par = s.par

/-- The invariant holds at reset. -/
def Obligations.ResetSatisfiesTheInvariant : Prop := State.reset.Inv

/-- Every step keeps the invariant (R26, R32, R97, R129): the queue invariant, the parser's tie between bytes,
the transmit transient over a complete frame, every space in canonical form and within its bounds. -/
def Obligations.EveryStepKeepsTheInvariant : Prop :=
  ∀ s t : State, s.Inv → step s = .next t → t.Inv

/-- The block cannot lock up or stop (R158, R171, R175): from every state that satisfies the invariant there is a
next state. A wait in progress is a state like any other; that a whole operation's waits end assumes that the tick
advances (R199, 92 D27; log 12). -/
def Obligations.TheBlockNeverStops : Prop :=
  ∀ s : State, s.Inv → ∃ t, step s = .next t
end

