-- ==== Sys2Proof/Laws/Bytes.lean ====
section
/-! SUPPORT. Laws of the operand forms: byte order, type codes, packet bodies. -/

namespace Sys2Proof.Machine

@[simp] theorem length_le32Bytes (v : Word) : (le32Bytes v).length = 4 := rfl

/-- The arithmetic R7 writes for `le32`. -/
theorem ofLE32_toNat (b0 b1 b2 b3 : Byte) :
    (ofLE32 b0 b1 b2 b3).toNat = b0.toNat + 256 * b1.toNat + 65536 * b2.toNat + 16777216 * b3.toNat := by
  have h0 := b0.isLt
  have h1 := b1.isLt
  have h2 := b2.isLt
  unfold ofLE32
  simp only [BitVec.toNat_append]
  rw [← Nat.shiftLeft_add_eq_or_of_lt (by omega), ← Nat.shiftLeft_add_eq_or_of_lt (by omega),
    ← Nat.shiftLeft_add_eq_or_of_lt (by omega)]
  simp only [Nat.shiftLeft_eq]
  omega

/-- `le32` is the inverse of `LE32` (R7). -/
theorem ofLE32_le32Bytes (v : Word) :
    ofLE32 (v.extractLsb' 0 8) (v.extractLsb' 8 8) (v.extractLsb' 16 8) (v.extractLsb' 24 8) = v := by
  have h := v.isLt
  apply BitVec.eq_of_toNat_eq
  simp only [ofLE32_toNat, BitVec.extractLsb'_toNat, Nat.shiftRight_eq_div_pow]
  omega

/-- `LE32` is the inverse of `le32` (R7). -/
theorem le32Bytes_ofLE32 (b0 b1 b2 b3 : Byte) : le32Bytes (ofLE32 b0 b1 b2 b3) = [b0, b1, b2, b3] := by
  have h0 := b0.isLt
  have h1 := b1.isLt
  have h2 := b2.isLt
  have h3 := b3.isLt
  simp only [le32Bytes, List.cons.injEq, and_true]
  refine ⟨?_, ?_, ?_, ?_⟩ <;> apply BitVec.eq_of_toNat_eq <;>
    simp only [BitVec.extractLsb'_toNat, ofLE32_toNat, Nat.shiftRight_eq_div_pow] <;> omega

/-- A byte names the member whose code it is, and no other. -/
theorem typeOfByte_eq_some {b : Byte} {t : PacketType} : typeOfByte b = some t ↔ b = typeCode t := by
  constructor
  · intro h
    apply BitVec.eq_of_toNat_eq
    unfold typeOfByte at h
    split at h <;> simp_all <;> subst_vars <;> rfl
  · rintro rfl
    cases t <;> rfl

theorem typeOfByte_typeCode (t : PacketType) : typeOfByte (typeCode t) = some t := typeOfByte_eq_some.mpr rfl

/-- The codes 8..255 name nothing (R74). -/
theorem typeOfByte_eq_none {b : Byte} : typeOfByte b = none ↔ 8 ≤ b.toNat := by
  unfold typeOfByte
  split <;> simp_all
  omega

@[simp] theorem length_header (t : PacketType) : (header t).length = 3 := rfl

theorem packetSize_eq (pkt : Packet) : packetSize pkt = (packetBody pkt).length := by cases pkt <;> rfl

theorem packetSize_cases (pkt : Packet) : packetSize pkt = 3 ∨ packetSize pkt = 7 := by
  cases pkt <;> first | exact .inl rfl | exact .inr rfl

@[simp] theorem length_packetFrame (c : Checksum) (pkt : Packet) :
    (packetFrame c pkt).length = packetSize pkt + Config.crcLen := by
  cases pkt <;> rfl

end Sys2Proof.Machine
end

