-- ==== Sys2Proof/Laws/State.lean ====
section
/-! SUPPORT. One lemma per field per update of State, true by rfl, so that no proof unfolds a record
update; and the updates that fall together. -/

namespace Sys2Proof.Machine

@[simp] theorem State.setQueue_par (s : State) (v : Queue) : (s.setQueue v).par = s.par := rfl
@[simp] theorem State.setQueue_q (s : State) (v : Queue) : (s.setQueue v).q = v := rfl
@[simp] theorem State.setQueue_p (s : State) (v : Queue) : (s.setQueue v).p = s.p := rfl
@[simp] theorem State.setQueue_tbuf (s : State) (v : Queue) : (s.setQueue v).tbuf = s.tbuf := rfl
@[simp] theorem State.setQueue_latch (s : State) (v : Queue) : (s.setQueue v).latch = s.latch := rfl
@[simp] theorem State.setQueue_ctl (s : State) (v : Queue) : (s.setQueue v).ctl = s.ctl := rfl
@[simp] theorem State.setQueue_ret (s : State) (v : Queue) : (s.setQueue v).ret = s.ret := rfl
@[simp] theorem State.setQueue_env (s : State) (v : Queue) : (s.setQueue v).env = s.env := rfl
@[simp] theorem State.setQueue_setQueue (s : State) (v w : Queue) : (s.setQueue v).setQueue w = s.setQueue w := rfl
@[simp] theorem State.setQueue_self (s : State) : s.setQueue s.q = s := rfl

@[simp] theorem State.setParser_par (s : State) (v : Parser) : (s.setParser v).par = s.par := rfl
@[simp] theorem State.setParser_q (s : State) (v : Parser) : (s.setParser v).q = s.q := rfl
@[simp] theorem State.setParser_p (s : State) (v : Parser) : (s.setParser v).p = v := rfl
@[simp] theorem State.setParser_tbuf (s : State) (v : Parser) : (s.setParser v).tbuf = s.tbuf := rfl
@[simp] theorem State.setParser_latch (s : State) (v : Parser) : (s.setParser v).latch = s.latch := rfl
@[simp] theorem State.setParser_ctl (s : State) (v : Parser) : (s.setParser v).ctl = s.ctl := rfl
@[simp] theorem State.setParser_ret (s : State) (v : Parser) : (s.setParser v).ret = s.ret := rfl
@[simp] theorem State.setParser_env (s : State) (v : Parser) : (s.setParser v).env = s.env := rfl
@[simp] theorem State.setParser_setParser (s : State) (v w : Parser) : (s.setParser v).setParser w = s.setParser w := rfl
@[simp] theorem State.setParser_self (s : State) : s.setParser s.p = s := rfl

@[simp] theorem State.setLatch_par (s : State) (v : Bool) : (s.setLatch v).par = s.par := rfl
@[simp] theorem State.setLatch_q (s : State) (v : Bool) : (s.setLatch v).q = s.q := rfl
@[simp] theorem State.setLatch_p (s : State) (v : Bool) : (s.setLatch v).p = s.p := rfl
@[simp] theorem State.setLatch_tbuf (s : State) (v : Bool) : (s.setLatch v).tbuf = s.tbuf := rfl
@[simp] theorem State.setLatch_latch (s : State) (v : Bool) : (s.setLatch v).latch = v := rfl
@[simp] theorem State.setLatch_ctl (s : State) (v : Bool) : (s.setLatch v).ctl = s.ctl := rfl
@[simp] theorem State.setLatch_ret (s : State) (v : Bool) : (s.setLatch v).ret = s.ret := rfl
@[simp] theorem State.setLatch_env (s : State) (v : Bool) : (s.setLatch v).env = s.env := rfl
@[simp] theorem State.setLatch_setLatch (s : State) (v w : Bool) : (s.setLatch v).setLatch w = s.setLatch w := rfl
@[simp] theorem State.setLatch_self (s : State) : s.setLatch s.latch = s := rfl

@[simp] theorem State.setCtl_par (s : State) (v : Ctl) : (s.setCtl v).par = s.par := rfl
@[simp] theorem State.setCtl_q (s : State) (v : Ctl) : (s.setCtl v).q = s.q := rfl
@[simp] theorem State.setCtl_p (s : State) (v : Ctl) : (s.setCtl v).p = s.p := rfl
@[simp] theorem State.setCtl_tbuf (s : State) (v : Ctl) : (s.setCtl v).tbuf = s.tbuf := rfl
@[simp] theorem State.setCtl_latch (s : State) (v : Ctl) : (s.setCtl v).latch = s.latch := rfl
@[simp] theorem State.setCtl_ctl (s : State) (v : Ctl) : (s.setCtl v).ctl = v := rfl
@[simp] theorem State.setCtl_ret (s : State) (v : Ctl) : (s.setCtl v).ret = s.ret := rfl
@[simp] theorem State.setCtl_env (s : State) (v : Ctl) : (s.setCtl v).env = s.env := rfl
@[simp] theorem State.setCtl_setCtl (s : State) (v w : Ctl) : (s.setCtl v).setCtl w = s.setCtl w := rfl
@[simp] theorem State.setCtl_self (s : State) : s.setCtl s.ctl = s := rfl

@[simp] theorem State.setRet_par (s : State) (v : Ret) : (s.setRet v).par = s.par := rfl
@[simp] theorem State.setRet_q (s : State) (v : Ret) : (s.setRet v).q = s.q := rfl
@[simp] theorem State.setRet_p (s : State) (v : Ret) : (s.setRet v).p = s.p := rfl
@[simp] theorem State.setRet_tbuf (s : State) (v : Ret) : (s.setRet v).tbuf = s.tbuf := rfl
@[simp] theorem State.setRet_latch (s : State) (v : Ret) : (s.setRet v).latch = s.latch := rfl
@[simp] theorem State.setRet_ctl (s : State) (v : Ret) : (s.setRet v).ctl = s.ctl := rfl
@[simp] theorem State.setRet_ret (s : State) (v : Ret) : (s.setRet v).ret = v := rfl
@[simp] theorem State.setRet_env (s : State) (v : Ret) : (s.setRet v).env = s.env := rfl
@[simp] theorem State.setRet_setRet (s : State) (v w : Ret) : (s.setRet v).setRet w = s.setRet w := rfl
@[simp] theorem State.setRet_self (s : State) : s.setRet s.ret = s := rfl

@[simp] theorem State.setEnv_par (s : State) (v : Env) : (s.setEnv v).par = s.par := rfl
@[simp] theorem State.setEnv_q (s : State) (v : Env) : (s.setEnv v).q = s.q := rfl
@[simp] theorem State.setEnv_p (s : State) (v : Env) : (s.setEnv v).p = s.p := rfl
@[simp] theorem State.setEnv_tbuf (s : State) (v : Env) : (s.setEnv v).tbuf = s.tbuf := rfl
@[simp] theorem State.setEnv_latch (s : State) (v : Env) : (s.setEnv v).latch = s.latch := rfl
@[simp] theorem State.setEnv_ctl (s : State) (v : Env) : (s.setEnv v).ctl = s.ctl := rfl
@[simp] theorem State.setEnv_ret (s : State) (v : Env) : (s.setEnv v).ret = s.ret := rfl
@[simp] theorem State.setEnv_env (s : State) (v : Env) : (s.setEnv v).env = v := rfl
@[simp] theorem State.setEnv_setEnv (s : State) (v w : Env) : (s.setEnv v).setEnv w = s.setEnv w := rfl
@[simp] theorem State.setEnv_self (s : State) : s.setEnv s.env = s := rfl

@[simp] theorem State.setSched_par (s : State) (es : List Event) : (s.setSched es).par = s.par := rfl
@[simp] theorem State.setSched_q (s : State) (es : List Event) : (s.setSched es).q = s.q := rfl
@[simp] theorem State.setSched_p (s : State) (es : List Event) : (s.setSched es).p = s.p := rfl
@[simp] theorem State.setSched_tbuf (s : State) (es : List Event) : (s.setSched es).tbuf = s.tbuf := rfl
@[simp] theorem State.setSched_latch (s : State) (es : List Event) : (s.setSched es).latch = s.latch := rfl
@[simp] theorem State.setSched_ctl (s : State) (es : List Event) : (s.setSched es).ctl = s.ctl := rfl
@[simp] theorem State.setSched_ret (s : State) (es : List Event) : (s.setSched es).ret = s.ret := rfl
@[simp] theorem State.setSched_env_ready (s : State) (es : List Event) : (s.setSched es).env.ready = s.env.ready := rfl
@[simp] theorem State.setSched_env_dt (s : State) (es : List Event) : (s.setSched es).env.dt = s.env.dt := rfl
@[simp] theorem State.setSched_env_now (s : State) (es : List Event) : (s.setSched es).env.now = s.env.now := rfl
@[simp] theorem State.setSched_env_temps (s : State) (es : List Event) : (s.setSched es).env.temps = s.env.temps := rfl
@[simp] theorem State.setSched_env_tx (s : State) (es : List Event) : (s.setSched es).env.tx = s.env.tx := rfl
@[simp] theorem State.setSched_env_caller (s : State) (es : List Event) : (s.setSched es).env.caller = s.env.caller := rfl
@[simp] theorem State.setSched_env_draws (s : State) (es : List Event) : (s.setSched es).env.draws = s.env.draws := rfl
@[simp] theorem State.setSched_env_sched (s : State) (es : List Event) : (s.setSched es).env.sched = es := rfl

/-- Every cause has the one effect of R165. -/
@[simp] theorem State.raise_eq (s : State) (c : ErrorCause) : s.raise c = s.setLatch true := by
  cases c <;> rfl

@[simp] theorem State.resetParser_par (s : State) : s.resetParser.par = s.par := rfl
@[simp] theorem State.resetParser_q (s : State) : s.resetParser.q = s.q := rfl
@[simp] theorem State.resetParser_p (s : State) : s.resetParser.p = { s.p with state := .firstMagic, idx := 0 } := rfl
@[simp] theorem State.resetParser_tbuf (s : State) : s.resetParser.tbuf = s.tbuf := rfl
@[simp] theorem State.resetParser_latch (s : State) : s.resetParser.latch = s.latch := rfl
@[simp] theorem State.resetParser_ctl (s : State) : s.resetParser.ctl = s.ctl := rfl
@[simp] theorem State.resetParser_ret (s : State) : s.resetParser.ret = s.ret := rfl
@[simp] theorem State.resetParser_env (s : State) : s.resetParser.env = s.env := rfl

@[simp] theorem State.failFrame_par (s : State) : s.failFrame.par = s.par := rfl
@[simp] theorem State.failFrame_q (s : State) : s.failFrame.q = s.q := rfl
@[simp] theorem State.failFrame_p (s : State) : s.failFrame.p = { s.p with state := .firstMagic, idx := 0 } := rfl
@[simp] theorem State.failFrame_tbuf (s : State) : s.failFrame.tbuf = s.tbuf := rfl
@[simp] theorem State.failFrame_latch (s : State) : s.failFrame.latch = true := rfl
@[simp] theorem State.failFrame_ctl (s : State) : s.failFrame.ctl = s.ctl := rfl
@[simp] theorem State.failFrame_ret (s : State) : s.failFrame.ret = s.ret := rfl
@[simp] theorem State.failFrame_env (s : State) : s.failFrame.env = s.env := rfl

@[simp] theorem State.emitTx_par (s : State) (b : Byte) : (s.emitTx b).par = s.par := rfl
@[simp] theorem State.emitTx_q (s : State) (b : Byte) : (s.emitTx b).q = s.q := rfl
@[simp] theorem State.emitTx_p (s : State) (b : Byte) : (s.emitTx b).p = s.p := rfl
@[simp] theorem State.emitTx_tbuf (s : State) (b : Byte) : (s.emitTx b).tbuf = s.tbuf := rfl
@[simp] theorem State.emitTx_latch (s : State) (b : Byte) : (s.emitTx b).latch = s.latch := rfl
@[simp] theorem State.emitTx_ctl (s : State) (b : Byte) : (s.emitTx b).ctl = s.ctl := rfl
@[simp] theorem State.emitTx_ret (s : State) (b : Byte) : (s.emitTx b).ret = s.ret := rfl
@[simp] theorem State.emitTx_env (s : State) (b : Byte) : (s.emitTx b).env = { s.env with tx := s.env.tx ++ [b] } := rfl

end Sys2Proof.Machine
end

