-- ==== Sys2Proof/Laws/Memory.lean ====
section
/-! SUPPORT. The laws of the byte spaces: read after write, the canonical form, and what writing bytes
changes. -/

namespace Sys2Proof.Machine

/-! ### One space -/

/-- Read after write, whatever the order of the entries. -/
theorem Memory.read?_write (m : Memory) (a x : Nat) (b : Byte) :
    (m.write a b).read? x = if x = a then some b else m.read? x := by
  induction m with
  | nil => simp [Memory.write, Memory.read?]
  | cons c m ih =>
    obtain ⟨y, d⟩ := c
    unfold Memory.write
    split
    · simp only [Memory.read?]
    · split
      · subst_vars
        simp only [Memory.read?]
        split <;> simp_all
      · simp only [Memory.read?, ih]
        split <;> split <;> simp_all

/-- Every address after a write was there before, or is the one written. -/
theorem Memory.mem_write {m : Memory} {a : Nat} {b : Byte} {c : Host.Cell} (h : c ∈ m.write a b) :
    c.1 = a ∨ c ∈ m := by
  induction m with
  | nil => simp_all [Memory.write]
  | cons d m ih =>
    obtain ⟨y, d⟩ := d
    unfold Memory.write at h
    split at h
    · rcases List.mem_cons.mp h with rfl | h
      · exact .inl rfl
      · exact .inr h
    · split at h
      · rcases List.mem_cons.mp h with rfl | h
        · exact .inl rfl
        · exact .inr (List.mem_cons_of_mem _ h)
      · rcases List.mem_cons.mp h with rfl | h
        · exact .inr (List.mem_cons_self ..)
        · exact (ih h).imp_right (List.mem_cons_of_mem _)

theorem Memory.wf_write {m : Memory} (h : m.wf) (a : Nat) (b : Byte) : (m.write a b).wf := by
  induction m with
  | nil => simp [Memory.write, Memory.wf]
  | cons c m ih =>
    obtain ⟨y, d⟩ := c
    obtain ⟨hy, hm⟩ := List.pairwise_cons.mp h
    unfold Memory.write
    split
    · rename_i hlt
      refine List.pairwise_cons.mpr ⟨fun z hz => ?_, h⟩
      rcases List.mem_cons.mp hz with rfl | hz
      · exact hlt
      · exact lt_trans hlt (hy z hz)
    · split
      · rename_i _ heq
        exact List.pairwise_cons.mpr ⟨fun z hz => heq ▸ hy z hz, hm⟩
      · refine List.pairwise_cons.mpr ⟨fun z hz => ?_, ih hm⟩
        rcases Memory.mem_write hz with hz | hz
        · show y < z.1
          omega
        · exact hy z hz

/-- A bound on the listed addresses survives a write below it. -/
theorem Memory.bound_write {m : Memory} {n a : Nat} (h : ∀ c ∈ m, c.1 < n) (ha : a < n) (b : Byte) :
    ∀ c ∈ m.write a b, c.1 < n := fun c hc => by
  rcases Memory.mem_write hc with hc | hc
  · omega
  · exact h c hc

/-! ### The spaces of a state -/

@[simp] theorem State.mem_setMem_same (s : State) (sp : Space) (m : Memory) : (s.setMem sp m).mem sp = m := by
  cases sp <;> rfl

theorem State.mem_setMem_other (s : State) {sp sp' : Space} (h : sp' ≠ sp) (m : Memory) :
    (s.setMem sp m).mem sp' = s.mem sp' := by
  cases sp <;> cases sp' <;> first | rfl | exact absurd rfl h

@[simp] theorem State.setMem_setMem (s : State) (sp : Space) (m m' : Memory) :
    (s.setMem sp m).setMem sp m' = s.setMem sp m' := by cases sp <;> rfl

@[simp] theorem State.setMem_self (s : State) (sp : Space) : s.setMem sp (s.mem sp) = s := by
  cases sp <;> rfl

@[simp] theorem State.setMem_par (s : State) (sp : Space) (m : Memory) : (s.setMem sp m).par = s.par := by
  cases sp <;> rfl

@[simp] theorem State.setMem_latch (s : State) (sp : Space) (m : Memory) : (s.setMem sp m).latch = s.latch := by
  cases sp <;> rfl

@[simp] theorem State.setMem_ctl (s : State) (sp : Space) (m : Memory) : (s.setMem sp m).ctl = s.ctl := by
  cases sp <;> rfl

@[simp] theorem State.setMem_ret (s : State) (sp : Space) (m : Memory) : (s.setMem sp m).ret = s.ret := by
  cases sp <;> rfl

/-- What a space reads as depends on its contents only. -/
theorem State.readByte_congr {s t : State} {sp : Space} (h : t.mem sp = s.mem sp) (a : Nat) :
    t.readByte sp a = s.readByte sp a := by simp only [State.readByte, h]

theorem State.readBytes_congr {s t : State} {sp : Space} (h : t.mem sp = s.mem sp) (a n : Nat) :
    t.readBytes sp a n = s.readBytes sp a n := by
  simp only [State.readBytes, State.readByte_congr h]

/-- Read after write, in one space. -/
theorem State.readByte_writeByte (s : State) (sp : Space) (a x : Nat) (b : Byte) :
    (s.writeByte sp a b).readByte sp x = if x = a then b else s.readByte sp x := by
  simp only [State.readByte, State.writeByte, State.mem_setMem_same, Memory.read?_write]
  by_cases hx : x = a <;> simp [hx]

/-- A write to one space leaves the others alone. -/
theorem State.mem_writeByte_other (s : State) {sp sp' : Space} (h : sp' ≠ sp) (a : Nat) (b : Byte) :
    (s.writeByte sp a b).mem sp' = s.mem sp' := State.mem_setMem_other s h _

@[simp] theorem State.mem_writeByte_same (s : State) (sp : Space) (a : Nat) (b : Byte) :
    (s.writeByte sp a b).mem sp = (s.mem sp).write a b := State.mem_setMem_same s sp _

/-! ### Writing several bytes -/

/-- The contents of a space after bytes are written in order. -/
def Memory.writeAll (m : Memory) (a : Nat) (bs : List Byte) : Memory :=
  match bs with
  | [] => m
  | b :: bs => Memory.writeAll (m.write a b) (a + 1) bs

theorem State.writeBytes_eq (s : State) (sp : Space) (a : Nat) (bs : List Byte) :
    s.writeBytes sp a bs = s.setMem sp (Memory.writeAll (s.mem sp) a bs) := by
  induction bs generalizing s a with
  | nil => simp [State.writeBytes, Memory.writeAll]
  | cons b bs ih =>
    simp only [State.writeBytes, Memory.writeAll, ih, State.mem_writeByte_same]
    simp only [State.writeByte, State.setMem_setMem]

theorem Memory.writeAll_append (m : Memory) (a : Nat) (xs ys : List Byte) :
    Memory.writeAll m a (xs ++ ys) = Memory.writeAll (Memory.writeAll m a xs) (a + xs.length) ys := by
  induction xs generalizing m a with
  | nil => rfl
  | cons x xs ih =>
    simp only [List.cons_append, Memory.writeAll, ih, List.length_cons]
    congr 1
    omega

theorem Memory.wf_writeAll {m : Memory} (h : m.wf) (a : Nat) (bs : List Byte) :
    (Memory.writeAll m a bs).wf := by
  induction bs generalizing m a with
  | nil => exact h
  | cons b bs ih => exact ih (Memory.wf_write h a b) (a + 1)

theorem Memory.bound_writeAll {m : Memory} {n : Nat} (h : ∀ c ∈ m, c.1 < n) (a : Nat) (bs : List Byte)
    (ha : a + bs.length ≤ n) : ∀ c ∈ Memory.writeAll m a bs, c.1 < n := by
  induction bs generalizing m a with
  | nil => exact h
  | cons b bs ih =>
    simp only [List.length_cons] at ha
    exact ih (Memory.bound_write h (by omega) b) (a + 1) (by omega)

theorem Memory.read?_writeAll {m : Memory} (h : m.wf) (a x : Nat) (bs : List Byte) :
    (Memory.writeAll m a bs).read? x =
      if a ≤ x ∧ x < a + bs.length then bs[x - a]? else m.read? x := by
  induction bs generalizing m a with
  | nil => simp [Memory.writeAll]
  | cons b bs ih =>
    simp only [Memory.writeAll, ih (Memory.wf_write h a b) (a + 1), Memory.read?_write,
      List.length_cons]
    by_cases hx : x = a
    · subst hx; simp
    · by_cases hr : a + 1 ≤ x ∧ x < a + 1 + bs.length
      · rw [if_pos hr, if_pos (by omega)]
        obtain ⟨k, rfl⟩ : ∃ k, x = a + 1 + k := ⟨x - (a + 1), by omega⟩
        rw [show a + 1 + k - (a + 1) = k by omega, show a + 1 + k - a = k + 1 by omega]
        simp
      · rw [if_neg hr, if_neg hx, if_neg (by omega)]

/-- Bytes outside the written range read as before. -/
theorem State.readByte_writeBytes_outside (s : State) (sp : Space) (a x : Nat) (bs : List Byte)
    (h : (s.mem sp).wf) (hx : x < a ∨ a + bs.length ≤ x) :
    (s.writeBytes sp a bs).readByte sp x = s.readByte sp x := by
  rw [State.writeBytes_eq]
  simp only [State.readByte, State.mem_setMem_same, Memory.read?_writeAll h]
  rw [if_neg (by omega)]

/-- The written range reads as the bytes written. -/
theorem State.readBytes_writeBytes (s : State) (sp : Space) (a : Nat) (bs : List Byte) (h : (s.mem sp).wf) :
    (s.writeBytes sp a bs).readBytes sp a bs.length = bs := by
  rw [State.writeBytes_eq]
  apply List.ext_getElem
  · simp [State.readBytes]
  · intro k _ hk
    simp only [State.readBytes, List.getElem_map, List.getElem_range, State.readByte,
      State.mem_setMem_same, Memory.read?_writeAll h]
    rw [if_pos (by omega)]
    simp [List.getElem?_eq_getElem hk]

theorem State.readBytes_append (s : State) (sp : Space) (a m n : Nat) :
    s.readBytes sp a (m + n) = s.readBytes sp a m ++ s.readBytes sp (a + m) n := by
  simp only [State.readBytes, List.range_add, List.map_append, List.map_map]
  congr 1
  exact List.map_congr_left fun k _ => by simp [Nat.add_assoc]

@[simp] theorem State.length_readBytes (s : State) (sp : Space) (a n : Nat) :
    (s.readBytes sp a n).length = n := by simp [State.readBytes]

end Sys2Proof.Machine
end

