-- ==== Sys2Proof/Laws/Transmit.lean ====
section
/-! SUPPORT. What waiting, one SEND_BYTE, the emission of bytes and a whole SEND can do: one law each. -/

namespace Sys2Proof.Machine

/-! ### Waiting -/

theorem Waited.refl (s : State) : Waited s s := ⟨rfl, le_refl _⟩

theorem Waited.trans {s t u : State} (h : Waited s t) (h' : Waited t u) : Waited s u := by
  obtain ⟨h, hn⟩ := h
  obtain ⟨h', hn'⟩ := h'
  refine ⟨?_, le_trans hn hn'⟩
  rw [h']
  rw [h]
  rfl

theorem readTick_waited (s : State) : Waited s s.readTick.2 := ⟨rfl, Nat.le_add_right _ _⟩

theorem readTick_lt (s : State) : s.readTick.1 < 2 ^ s.par.tickWidth := Nat.mod_lt _ (Nat.two_pow_pos _)

theorem setReady_waited (s : State) (r : List Bool) : Waited s (s.setEnv { s.env with ready := r }) :=
  ⟨rfl, le_refl _⟩

theorem pollOnce_waited (t0 : Nat) (s : State) : Waited s (pollOnce t0 s).2 := by
  unfold pollOnce
  split
  · exact setReady_waited s _
  · exact (setReady_waited s _).trans (readTick_waited _)
  · unfold abstractWait
    dsimp only
    split
    · exact ⟨rfl, Nat.le_add_right _ _⟩
    · exact ⟨rfl, by simp only [State.setEnv_env]; omega⟩

/-- A round that polls again has used up one scripted answer. -/
theorem pollOnce_again {t0 : Nat} {s t : State} (h : pollOnce t0 s = (.again, t)) :
    ∃ r, s.env.ready = false :: r ∧ t.env.ready = r := by
  unfold pollOnce at h
  split at h
  · simp at h
  · rename_i r hr
    refine ⟨r, hr, ?_⟩
    simp only [Prod.mk.injEq] at h
    rw [← h.2]
    rfl
  · unfold abstractWait at h
    dsimp only at h
    split at h <;> simp at h

theorem pollLoop_waited (t0 k : Nat) (s : State) : Waited s (pollLoop t0 k s).2 := by
  induction k generalizing s with
  | zero => exact Waited.refl s
  | succ k ih =>
    have hp := pollOnce_waited t0 s
    unfold pollLoop
    split <;> rename_i t ht <;> rw [ht] at hp
    · exact hp
    · exact hp
    · exact hp.trans (ih t)

theorem pollLoop_ready {t0 k : Nat} {s : State} {r : List Bool} (h : s.env.ready = true :: r) :
    pollLoop t0 (k + 1) s = (true, s.setEnv { s.env with ready := r }) := by
  simp only [pollLoop, pollOnce, h]

/-! ### One byte -/

theorem sendByte_waited (b : Byte) (s : State) : Waited (s.emitTx b) (sendByte b s).2 :=
  (readTick_waited _).trans (pollLoop_waited _ _ _)

/-- A byte whose first poll finds the flag set is sent, and that answer is used up. -/
theorem sendByte_ready {b : Byte} {s : State} {r : List Bool} (h : s.env.ready = true :: r) :
    (sendByte b s).1 = true ∧ (sendByte b s).2.env.ready = r := by
  have hr : (s.emitTx b).readTick.2.env.ready = true :: r := h
  unfold sendByte
  simp only
  rw [pollLoop_ready hr]
  exact ⟨rfl, rfl⟩

/-! ### Several bytes -/

@[simp] theorem emitAll_nil (s : State) : s.emitAll [] = s := by
  unfold State.emitAll
  rw [List.append_nil]
  exact State.setEnv_self s

theorem emitAll_emitTx (s : State) (b : Byte) (bs : List Byte) :
    (s.emitTx b).emitAll bs = s.emitAll (b :: bs) := by
  simp [State.emitTx, State.emitAll]

/-- Emitting more bytes after a wait is waiting after emitting them. -/
theorem Waited.emitAll {s t : State} (h : Waited s t) (bs : List Byte) : Waited (s.emitAll bs) (t.emitAll bs) := by
  obtain ⟨h, hn⟩ := h
  exact ⟨by rw [h]; rfl, hn⟩

/-- The emission of bytes (R143, R149): the bytes of a beginning of the sequence are emitted, all of them if
it succeeds; otherwise it ends with the byte whose wait failed. -/
theorem sendBytes_spec (bs : List Byte) (s : State) :
    ∃ k, k ≤ bs.length ∧ ((sendBytes bs s).1 = true → k = bs.length) ∧
      ((sendBytes bs s).1 = false → 1 ≤ k) ∧ Waited (s.emitAll (bs.take k)) (sendBytes bs s).2 := by
  induction bs generalizing s with
  | nil =>
    refine ⟨0, le_refl _, fun _ => rfl, fun h => by simp [sendBytes] at h, ?_⟩
    rw [List.take_nil, emitAll_nil]
    exact Waited.refl s
  | cons b bs ih =>
    have hw := sendByte_waited b s
    unfold sendBytes
    split <;> rename_i t ht <;> rw [ht] at hw
    · obtain ⟨k, hk, hok, _, hwk⟩ := ih t
      refine ⟨k + 1, by simpa using hk, fun h => by simpa using hok h, fun _ => by omega, ?_⟩
      rw [List.take_succ_cons, ← emitAll_emitTx]
      exact (hw.emitAll _).trans hwk
    · exact ⟨1, by simp, by simp, fun _ => le_refl _, by simpa [State.emitAll, State.emitTx] using hw⟩

/-- Under READY every byte is sent and the used answers are gone. -/
theorem sendBytes_ready {bs : List Byte} {s : State} {r : List Bool}
    (h : s.env.ready = List.replicate bs.length true ++ r) :
    (sendBytes bs s).1 = true ∧ (sendBytes bs s).2.env.ready = r := by
  induction bs generalizing s with
  | nil => simpa [sendBytes] using h
  | cons b bs ih =>
    simp only [List.length_cons, List.replicate_succ, List.cons_append] at h
    obtain ⟨ha, hb⟩ := sendByte_ready (b := b) h
    unfold sendBytes
    split <;> rename_i t ht <;> rw [ht] at ha hb
    · exact ih hb
    · simp at ha

/-! ### Serialization -/

theorem OnlyTransmitted.refl (s : State) : OnlyTransmitted s s := rfl

theorem OnlyTransmitted.trans {s t u : State} (h : OnlyTransmitted s t) (h' : OnlyTransmitted t u) :
    OnlyTransmitted s u := by
  unfold OnlyTransmitted at *
  rw [h']
  rw [h]

theorem Waited.onlyTransmitted {s t : State} (h : Waited s t) : OnlyTransmitted s t := by
  unfold OnlyTransmitted
  rw [h.1]
  rfl

/-- Stages 1 and 2 when the body fits (R141, R142): the body and its checksum stand in TXBUF, and nothing
else changed. -/
theorem loadFrame_fits {pkt : Packet} {s : State} (hc : packetSize pkt ≤ s.par.serCap) (hw : Memory.wf s.tbuf) :
    loadFrame pkt s =
      (some (packetSize pkt), s.writeBytes .txbuf 0 (packetFrame s.par.checksum pkt)) := by
  have hs : serialize pkt .txbuf s.par.serCap s =
      (some (packetSize pkt), s.writeBytes .txbuf 0 (packetBody pkt)) := by
    unfold serialize
    rw [if_neg (by omega)]
    rfl
  unfold loadFrame
  rw [hs]
  simp only
  have hpar : (s.writeBytes .txbuf 0 (packetBody pkt)).par = s.par := by
    rw [State.writeBytes_eq, State.setMem_par]
  have hread : (s.writeBytes .txbuf 0 (packetBody pkt)).readBytes .txbuf 0 (packetSize pkt) = packetBody pkt := by
    rw [packetSize_eq]
    exact State.readBytes_writeBytes s .txbuf 0 (packetBody pkt) hw
  rw [hread, State.crc, hpar, packetFrame]
  congr 1
  have happ : ∀ (m : Memory) (a : Nat) (xs ys : List Byte),
      Memory.writeAll m a (xs ++ ys) = Memory.writeAll (Memory.writeAll m a xs) (a + xs.length) ys := by
    intro m a xs ys
    induction xs generalizing m a with
    | nil => rfl
    | cons x xs ih =>
      simp only [List.cons_append, Memory.writeAll, ih, List.length_cons]
      congr 1
      omega
  rw [State.writeBytes_eq, State.writeBytes_eq, State.writeBytes_eq]
  simp only [State.mem_setMem_same, State.setMem_setMem]
  rw [happ, ← packetSize_eq, Nat.zero_add]

theorem writeBytes_txbuf_onlyTransmitted (s : State) (a : Nat) (bs : List Byte) :
    OnlyTransmitted s (s.writeBytes .txbuf a bs) := by
  rw [State.writeBytes_eq]
  rfl

theorem loadFrame_onlyTransmitted (pkt : Packet) (s : State) : OnlyTransmitted s (loadFrame pkt s).2 := by
  unfold loadFrame serialize
  split
  · rename_i h
    split at h
    · simp only [Prod.mk.injEq, true_and] at h
      rw [← h]
      exact (writeBytes_txbuf_onlyTransmitted _ _ _).trans rfl
    · simp at h
  · rename_i n t h
    split at h
    · simp at h
    · simp only [Prod.mk.injEq] at h
      rw [← h.2]
      exact (writeBytes_txbuf_onlyTransmitted _ _ _).trans (writeBytes_txbuf_onlyTransmitted _ _ _)

/-! ### A whole SEND -/

theorem sendBytes_onlyTransmitted (bs : List Byte) (s : State) : OnlyTransmitted s (sendBytes bs s).2 := by
  obtain ⟨k, -, -, -, hw⟩ := sendBytes_spec bs s
  exact OnlyTransmitted.trans (t := s.emitAll (bs.take k)) rfl hw.onlyTransmitted

theorem sendPacket_onlyTransmitted (pkt : Packet) (s : State) : OnlyTransmitted s (sendPacket pkt s).2 := by
  have h := loadFrame_onlyTransmitted pkt s
  unfold sendPacket
  split <;> rename_i t ht <;> rw [ht] at h
  · exact h
  · exact h.trans (sendBytes_onlyTransmitted _ _)

/-- The frame a SEND emits when its body fits. -/
theorem sendPacket_fits {pkt : Packet} {s : State} (hc : packetSize pkt ≤ s.par.serCap) (hw : Memory.wf s.tbuf) :
    sendPacket pkt s =
      sendBytes (packetFrame s.par.checksum pkt) (s.writeBytes .txbuf 0 (packetFrame s.par.checksum pkt)) := by
  unfold sendPacket
  rw [loadFrame_fits hc hw]
  simp only
  congr 1
  rw [← length_packetFrame s.par.checksum]
  exact State.readBytes_writeBytes s .txbuf 0 _ hw

/-- SEND in any environment (R140, R143, R149): a beginning of the packet's frame is emitted, the whole of it
when SEND answers true, and at least its first byte. -/
theorem sendPacket_spec {pkt : Packet} {s : State} (hc : packetSize pkt ≤ s.par.serCap) (hw : Memory.wf s.tbuf) :
    ∃ k, 1 ≤ k ∧ k ≤ packetSize pkt + Config.crcLen ∧
      ((sendPacket pkt s).1 = true → k = packetSize pkt + Config.crcLen) ∧
      (sendPacket pkt s).2.env.tx = s.env.tx ++ (packetFrame s.par.checksum pkt).take k ∧
      (sendPacket pkt s).2.tbuf = Memory.writeAll s.tbuf 0 (packetFrame s.par.checksum pkt) ∧
      s.env.now ≤ (sendPacket pkt s).2.env.now := by
  rw [sendPacket_fits hc hw]
  obtain ⟨k, hk, hok, hno, hwait⟩ := sendBytes_spec (packetFrame s.par.checksum pkt)
    (s.writeBytes .txbuf 0 (packetFrame s.par.checksum pkt))
  rw [length_packetFrame] at hk hok
  refine ⟨k, ?_, hk, hok, ?_, ?_, ?_⟩
  · cases h : (sendBytes (packetFrame s.par.checksum pkt)
      (s.writeBytes .txbuf 0 (packetFrame s.par.checksum pkt))).1 with
    | true => rw [hok h]; exact Nat.le_add_left 1 _
    | false => exact hno h
  · rw [hwait.1, State.writeBytes_eq]
    rfl
  · rw [hwait.1, State.writeBytes_eq]
    rfl
  · rw [State.writeBytes_eq] at hwait ⊢
    exact hwait.2

/-- Under READY a SEND answers true, emits the whole frame, and uses up one answer a byte. -/
theorem sendPacket_ready {pkt : Packet} {s : State} (hc : packetSize pkt ≤ s.par.serCap) (hw : Memory.wf s.tbuf)
    (hr : readyFor (packetSize pkt + Config.crcLen) s) :
    (sendPacket pkt s).1 = true ∧
      (sendPacket pkt s).2.env.tx = s.env.tx ++ packetFrame s.par.checksum pkt ∧
      (sendPacket pkt s).2.env.ready = s.env.ready.drop (packetSize pkt + Config.crcLen) := by
  have hsplit : (s.writeBytes .txbuf 0 (packetFrame s.par.checksum pkt)).env.ready =
      List.replicate (packetFrame s.par.checksum pkt).length true ++
        s.env.ready.drop (packetSize pkt + Config.crcLen) := by
    rw [State.writeBytes_eq, length_packetFrame, ← hr]
    exact (List.take_append_drop _ _).symm
  have hb := sendBytes_ready hsplit
  rw [← sendPacket_fits hc hw] at hb
  obtain ⟨k, -, -, hk, htx, -⟩ := sendPacket_spec hc hw
  refine ⟨hb.1, ?_, hb.2⟩
  rw [htx, hk hb.1, ← length_packetFrame s.par.checksum, List.take_length]

/-- A SEND whose body does not fit emits nothing and answers false (R141). -/
theorem sendPacket_tooBig {pkt : Packet} {s : State} (hc : s.par.serCap < packetSize pkt) :
    (sendPacket pkt s).1 = false ∧ (sendPacket pkt s).2.env.tx = s.env.tx := by
  unfold sendPacket loadFrame serialize
  simp only [if_pos hc]
  exact ⟨trivial, by rw [State.writeBytes_eq]; rfl⟩

/-! ### What a SEND writes to TXBUF -/

/-- Whatever the outcome, TXBUF is written from address 0 on, at most 11 bytes (R50). -/
theorem loadFrame_tbuf (pkt : Packet) (s : State) :
    ∃ bs : List Byte, bs.length ≤ 11 ∧ (loadFrame pkt s).2.tbuf = Memory.writeAll s.tbuf 0 bs := by
  have hsize : packetSize pkt ≤ 7 := by rcases packetSize_cases pkt with h | h <;> omega
  by_cases hc : s.par.serCap < packetSize pkt
  · refine ⟨failedBytes s (min s.par.serCap (packetSize pkt)), by simp [failedBytes]; omega, ?_⟩
    unfold loadFrame serialize
    simp only [if_pos hc]
    rw [State.writeBytes_eq]
    rfl
  · unfold loadFrame serialize
    simp only [if_neg hc, bufferSpace]
    generalize State.crc _ _ = v
    refine ⟨packetBody pkt ++ le32Bytes v, by simp [← packetSize_eq]; omega, ?_⟩
    rw [Memory.writeAll_append, Nat.zero_add, ← packetSize_eq, State.writeBytes_eq, State.writeBytes_eq s]
    rfl

theorem sendPacket_tbuf (pkt : Packet) (s : State) : (sendPacket pkt s).2.tbuf = (loadFrame pkt s).2.tbuf := by
  unfold sendPacket
  split <;> rename_i h <;> rw [h]
  obtain ⟨k, -, -, -, hw⟩ := sendBytes_spec (State.readBytes _ .txbuf 0 _) _
  rw [hw.1]
  rfl

end Sys2Proof.Machine
end

