-- ==== Sys2Proof/Laws/Parser.lean ====
section
/-! SUPPORT. What PARSE_BYTE can do: one law per parser state, and the parse of a whole received frame. -/

namespace Sys2Proof.Machine

theorem storeByte_eq (b : Byte) (s : State) :
    storeByte b s = s.setParser { s.p with buf := s.p.buf.write s.p.idx b, idx := s.p.idx + 1 } := rfl

/-! ### The frame of the parser's part -/

/-- `t` is `s` but for the parser and the latch, which was not cleared. -/
def OnlyParsed (s t : State) : Prop :=
  t = (s.setParser t.p).setLatch t.latch ∧ (s.latch = true → t.latch = true)

theorem OnlyParsed.refl (s : State) : OnlyParsed s s := ⟨rfl, id⟩

theorem OnlyParsed.trans {s t u : State} (h : OnlyParsed s t) (h' : OnlyParsed t u) : OnlyParsed s u := by
  refine ⟨?_, fun hl => h'.2 (h.2 hl)⟩
  rw [h'.1]
  rw [h.1]
  rfl

theorem setParser_onlyParsed (s : State) (p : Parser) : OnlyParsed s (s.setParser p) := ⟨rfl, id⟩

theorem raise_onlyParsed (s : State) (c : ErrorCause) : OnlyParsed s (s.raise c) := by
  rw [State.raise_eq]
  exact ⟨rfl, fun _ => rfl⟩

theorem failFrame_onlyParsed (s : State) : OnlyParsed s s.failFrame := ⟨rfl, fun _ => rfl⟩

theorem completeFrame_onlyParsed (s : State) : OnlyParsed s (completeFrame s).1 := by
  unfold completeFrame
  split
  · exact (raise_onlyParsed s _).trans (setParser_onlyParsed _ _)
  · split
    · exact OnlyParsed.refl s
    · exact (raise_onlyParsed s _).trans (setParser_onlyParsed _ _)

theorem handleByte_onlyParsed (st : ParserState) (b : Byte) (s : State) :
    OnlyParsed s (handleByte st b s).1 := by
  unfold handleByte
  split
  · simp only [inFirstMagic]
    split
    · exact setParser_onlyParsed _ _
    · exact failFrame_onlyParsed s
  · simp only [inSecondMagic]
    split
    · exact setParser_onlyParsed _ _
    · exact failFrame_onlyParsed s
  · simp only [inPacketType]
    split
    · exact (setParser_onlyParsed s _).trans (setParser_onlyParsed _ _)
    · split
      · exact setParser_onlyParsed _ _
      · exact (setParser_onlyParsed s _).trans (setParser_onlyParsed _ _)
    · exact failFrame_onlyParsed s
  · exact setParser_onlyParsed _ _
  · simp only [inCrc32]
    split
    · exact completeFrame_onlyParsed s
    · exact OnlyParsed.refl s

theorem parseStep_onlyParsed (b : Byte) (s : State) : OnlyParsed s (parseStep b s).1 := by
  unfold parseStep
  split
  · exact failFrame_onlyParsed s
  · exact OnlyParsed.trans (setParser_onlyParsed s _) (handleByte_onlyParsed _ b _)

/-- A reply is due only at the end of a frame: the parser stands in CRC32 with its trailer complete, and the
type has a handler (R119). -/
theorem parseStep_reply {b : Byte} {s t : State} {r : Reply} (h : parseStep b s = (t, some r)) :
    s.p.state = .crc32 ∧ t = storeByte b s ∧ t.p.idx = t.p.boundary + Config.crcLen ∧
      handlerOf t.p.type = some r ∧ receivedChecksum t = computedChecksum t := by
  unfold parseStep at h
  split at h
  · simp at h
  · unfold handleByte at h
    split at h <;> try simp at h
    rename_i hst
    unfold inCrc32 at h
    split at h
    · rename_i hc
      unfold completeFrame at h
      split at h
      · simp at h
      · rename_i hne
        split at h
        · rename_i r' hr
          simp only [Prod.mk.injEq, Option.some.injEq] at h
          obtain ⟨rfl, rfl⟩ := h
          exact ⟨hst, rfl, by simpa [trailerComplete] using hc, hr, not_ne_iff.mp hne⟩
        · simp at h
    · simp at h

/-! ### Replies -/

/-- What a reply can change: the transmit side, one temperature answer, and the latch, which is not cleared. -/
def OnlyReplied (s t : State) : Prop :=
  t = { s with
    tbuf := t.tbuf
    latch := t.latch
    env := { s.env with
      tx := t.env.tx, ready := t.env.ready, dt := t.env.dt, now := t.env.now, temps := t.env.temps,
      draws := t.env.draws } } ∧ (s.latch = true → t.latch = true)

theorem OnlyTransmitted.replied {s t : State} (h : OnlyTransmitted s t) : OnlyReplied s t := by
  unfold OnlyTransmitted at h
  exact ⟨by rw [h], fun hl => by rw [h]; exact hl⟩

theorem OnlyReplied.trans {s t u : State} (h : OnlyReplied s t) (h' : OnlyReplied t u) : OnlyReplied s u := by
  refine ⟨?_, fun hl => h'.2 (h.2 hl)⟩
  rw [h'.1]
  rw [h.1]

theorem raiseUnlessSent_replied (r : Bool × State) : OnlyReplied r.2 (raiseUnlessSent r) := by
  obtain ⟨ok, t⟩ := r
  cases ok
  · refine ⟨?_, fun _ => ?_⟩ <;> simp only [raiseUnlessSent, State.raise_eq] <;> rfl
  · exact ⟨rfl, id⟩

theorem sendPong_replied (s : State) : OnlyReplied s (sendPong s) :=
  (sendPacket_onlyTransmitted .pong s).replied.trans (raiseUnlessSent_replied _)

theorem readTemp_replied (s : State) : OnlyReplied s s.readTemp.2 := by
  unfold State.readTemp
  split <;> exact ⟨rfl, id⟩

theorem sendTemperature_replied (s : State) : OnlyReplied s (sendTemperature s) :=
  (readTemp_replied s).trans
    ((sendPacket_onlyTransmitted _ _).replied.trans (raiseUnlessSent_replied _))

theorem runReply_replied (r : Reply) (s : State) : OnlyReplied s (runReply r s) := by
  cases r
  · exact sendPong_replied s
  · exact sendTemperature_replied s

theorem dispatchType_replied (t : PacketType) (s : State) : OnlyReplied s (dispatchType t s) := by
  unfold dispatchType
  split
  · exact runReply_replied _ s
  · rw [State.raise_eq]
    exact ⟨rfl, fun _ => rfl⟩

/-! ### PARSE_BYTE by state -/

theorem parseStep_handle {b : Byte} {s : State} (h : s.p.idx < 16) :
    parseStep b s = handleByte s.p.state b (storeByte b s) := by
  have hx : bufferExhausted s.p = false := decide_eq_false (Nat.not_le.mpr h)
  simp only [parseStep, hx, Bool.false_eq_true, if_false]

theorem parseByte_none {b : Byte} {s t : State} (h : parseStep b s = (t, none)) : parseByte b s = t := by
  simp only [parseByte, h]

/-- FIRST_MAGIC meets 0xAA (R112). -/
theorem parseByte_magic0 {s : State} (hs : s.p.state = .firstMagic) (hi : s.p.idx < 16) :
    parseByte Config.magic0 s = s.setParser { s.p with
      state := .secondMagic, buf := s.p.buf.write s.p.idx Config.magic0, idx := s.p.idx + 1 } := by
  apply parseByte_none
  rw [parseStep_handle hi, hs]
  simp [handleByte, inFirstMagic, storeByte_eq]

/-- FIRST_MAGIC meets another byte (R112). -/
theorem parseByte_stray {b : Byte} {s : State} (hs : s.p.state = .firstMagic) (hi : s.p.idx < 16)
    (hb : b ≠ Config.magic0) : parseByte b s = (storeByte b s).failFrame := by
  apply parseByte_none
  rw [parseStep_handle hi, hs]
  simp [handleByte, inFirstMagic, hb]

/-- SECOND_MAGIC meets 0x55 (R113). -/
theorem parseByte_magic1 {s : State} (hs : s.p.state = .secondMagic) (hi : s.p.idx < 16) :
    parseByte Config.magic1 s = s.setParser { s.p with
      state := .packetType, buf := s.p.buf.write s.p.idx Config.magic1, idx := s.p.idx + 1 } := by
  apply parseByte_none
  rw [parseStep_handle hi, hs]
  simp [handleByte, inSecondMagic, storeByte_eq]

/-- SECOND_MAGIC meets another byte (R113). -/
theorem parseByte_badSecond {b : Byte} {s : State} (hs : s.p.state = .secondMagic) (hi : s.p.idx < 16)
    (hb : b ≠ Config.magic1) : parseByte b s = (storeByte b s).failFrame := by
  apply parseByte_none
  rw [parseStep_handle hi, hs]
  simp [handleByte, inSecondMagic, hb]

/-- The six types that bear no payload (R114). -/
abbrev isShort (t : PacketType) : Prop := t ≠ .invalid ∧ t ≠ .response

theorem classifyType_short {t : PacketType} (h : isShort t) : classifyType (typeCode t) = .short t := by
  unfold classifyType
  rw [typeOfByte_typeCode]
  cases t <;> first | rfl | exact absurd rfl h.1 | exact absurd rfl h.2

/-- PACKET_TYPE meets a type without payload (R114). -/
theorem parseByte_short {t : PacketType} {s : State} (hs : s.p.state = .packetType) (hi : s.p.idx < 16)
    (ht : isShort t) :
    parseByte (typeCode t) s = s.setParser { s.p with
      state := .crc32, buf := s.p.buf.write s.p.idx (typeCode t), idx := s.p.idx + 1,
      boundary := s.p.idx + 1, type := t } := by
  apply parseByte_none
  rw [parseStep_handle hi, hs]
  simp [handleByte, inPacketType, classifyType_short ht, storeByte_eq, enterCrc32]

/-- PACKET_TYPE meets 7 with a stub byte to come (R115). -/
theorem parseByte_response {s : State} (hs : s.p.state = .packetType) (hi : s.p.idx < 16)
    (hl : s.par.stubLen = .one) :
    parseByte (typeCode .response) s = s.setParser { s.p with
      state := .payload, buf := s.p.buf.write s.p.idx (typeCode .response), idx := s.p.idx + 1,
      type := .response } := by
  apply parseByte_none
  rw [parseStep_handle hi, hs]
  simp [handleByte, inPacketType, classifyType, typeOfByte_typeCode, storeByte_eq, hl]

/-- PACKET_TYPE meets 7 with no stub byte (R115). -/
theorem parseByte_response_noStub {s : State} (hs : s.p.state = .packetType) (hi : s.p.idx < 16)
    (hl : s.par.stubLen = .zero) :
    parseByte (typeCode .response) s = s.setParser { s.p with
      state := .crc32, buf := s.p.buf.write s.p.idx (typeCode .response), idx := s.p.idx + 1,
      boundary := s.p.idx + 1, type := .response } := by
  apply parseByte_none
  rw [parseStep_handle hi, hs]
  simp [handleByte, inPacketType, classifyType, typeOfByte_typeCode, storeByte_eq, hl, enterCrc32]

/-- PACKET_TYPE meets a byte that names no legal type (R116). -/
theorem parseByte_illegalType {b : Byte} {s : State} (hs : s.p.state = .packetType) (hi : s.p.idx < 16)
    (hb : b.toNat = 0 ∨ 8 ≤ b.toNat) : parseByte b s = (storeByte b s).failFrame := by
  have hc : classifyType b = .illegal := by
    rcases hb with hb | hb
    · rw [show b = typeCode .invalid from BitVec.eq_of_toNat_eq hb]
      rfl
    · simp only [classifyType, typeOfByte_eq_none.mpr hb]
  apply parseByte_none
  rw [parseStep_handle hi, hs]
  simp [handleByte, inPacketType, hc]

/-- PAYLOAD takes any byte (R117). -/
theorem parseByte_payload {b : Byte} {s : State} (hs : s.p.state = .payload) (hi : s.p.idx < 16) :
    parseByte b s = s.setParser { s.p with
      state := .crc32, buf := s.p.buf.write s.p.idx b, idx := s.p.idx + 1, boundary := s.p.idx + 1 } := by
  apply parseByte_none
  rw [parseStep_handle hi, hs]
  simp [handleByte, storeByte_eq, enterCrc32]

/-- CRC32 before the fourth trailer byte (R118). -/
theorem parseByte_trailer {b : Byte} {s : State} (hs : s.p.state = .crc32) (hi : s.p.idx < 16)
    (hn : s.p.idx + 1 ≠ s.p.boundary + 4) : parseByte b s = storeByte b s := by
  apply parseByte_none
  rw [parseStep_handle hi, hs]
  have : trailerComplete (storeByte b s).p = false := by
    simpa [trailerComplete, storeByte_eq, Config.crcLen] using hn
  simp [handleByte, inCrc32, this]

/-- The same on a parser given by its fields. -/
theorem parseByte_trailer_at {b : Byte} {s : State} {m : Memory} {i bd : Nat} {t : PacketType} (hi : i < 16)
    (hn : i + 1 ≠ bd + 4) :
    parseByte b (s.setParser { state := .crc32, buf := m, idx := i, boundary := bd, type := t }) =
      s.setParser { state := .crc32, buf := m.write i b, idx := i + 1, boundary := bd, type := t } :=
  parseByte_trailer rfl hi hn

/-- CRC32 at the fourth trailer byte (R119): compare, then dispatch or raise, then PARSER_RESET. -/
theorem parseByte_last {b : Byte} {s : State} (hs : s.p.state = .crc32) (hi : s.p.idx < 16)
    (hn : s.p.idx + 1 = s.p.boundary + 4) :
    parseByte b s = if receivedChecksum (storeByte b s) ≠ computedChecksum (storeByte b s)
      then ((storeByte b s).setLatch true).resetParser
      else (dispatchType s.p.type (storeByte b s)).resetParser := by
  have hc : trailerComplete (storeByte b s).p = true := by
    simpa [trailerComplete, storeByte_eq, Config.crcLen] using hn
  have ht : (storeByte b s).p.type = s.p.type := rfl
  unfold parseByte
  rw [parseStep_handle hi, hs]
  simp only [handleByte, inCrc32, hc, if_true, completeFrame]
  by_cases hne : receivedChecksum (storeByte b s) ≠ computedChecksum (storeByte b s)
  · simp only [if_pos hne, State.raise_eq]
  · simp only [if_neg hne, dispatchType, ht]
    cases handlerOf s.p.type <;> rfl

/-- The same with a name for the state after the store. -/
theorem parseByte_last_as {b : Byte} {s f : State} {t : PacketType} (hs : s.p.state = .crc32)
    (hi : s.p.idx < 16) (hn : s.p.idx + 1 = s.p.boundary + 4) (hf : storeByte b s = f) (ht : s.p.type = t := by rfl) :
    parseByte b s = if receivedChecksum f ≠ computedChecksum f then (f.setLatch true).resetParser
      else (dispatchType t f).resetParser := by
  subst hf ht
  exact parseByte_last hs hi hn

/-! ### Whole frames -/

theorem parseBytes_append (xs ys : List Byte) (s : State) :
    parseBytes (xs ++ ys) s = parseBytes ys (parseBytes xs s) := by
  induction xs generalizing s with
  | nil => rfl
  | cons x xs ih => exact ih _

/-- The state at the end of a frame, before the comparison: the whole frame stands in RXBUF. -/
def frameStored (body : List Byte) (crc : Word) (t : PacketType) (s : State) : State :=
  s.setParser
    { state := .crc32, buf := Memory.writeAll s.p.buf 0 (body ++ le32Bytes crc), idx := body.length + 4,
      boundary := body.length, type := t }

/-- The end of a frame (R119). -/
def frameEnd (body : List Byte) (crc : Word) (t : PacketType) (s : State) : State :=
  if crc ≠ s.crc body then ((frameStored body crc t s).setLatch true).resetParser
  else (dispatchType t (frameStored body crc t s)).resetParser

/-- The store of the last trailer byte completes the frame in RXBUF (R111). -/
theorem storeByte_last (body : List Byte) (crc : Word) (t : PacketType) (s : State) :
    storeByte (crc.extractLsb' 24 8) (s.setParser
      { state := .crc32,
        buf := (((Memory.writeAll s.p.buf 0 body).write body.length (crc.extractLsb' 0 8)).write
          (body.length + 1) (crc.extractLsb' 8 8)).write (body.length + 1 + 1) (crc.extractLsb' 16 8),
        idx := body.length + 1 + 1 + 1, boundary := body.length, type := t }) = frameStored body crc t s := by
  simp only [frameStored, Memory.writeAll_append, Nat.zero_add, le32Bytes, Memory.writeAll, storeByte_eq,
    State.setParser_p, State.setParser_setParser]

/-- A trailer after a body that stands in RXBUF, of 3 or 4 bytes (R118, R119). -/
theorem parseBytes_trailer {body : List Byte} {t : PacketType} {s : State} (hb : body.length ≤ 4)
    (hw : Memory.wf s.p.buf) (crc : Word) :
    parseBytes (le32Bytes crc) (s.setParser
      { state := .crc32, buf := Memory.writeAll s.p.buf 0 body, idx := body.length,
        boundary := body.length, type := t }) = frameEnd body crc t s := by
  simp only [le32Bytes, parseBytes]
  rw [parseByte_trailer_at (by omega) (by omega), parseByte_trailer_at (by omega) (by omega),
    parseByte_trailer_at (by omega) (by omega)]
  rw [parseByte_last_as (t := t) rfl (by simp only [State.setParser_p]; omega) (by simp)
    (storeByte_last body crc t s)]
  have hread : ∀ a n, (frameStored body crc t s).readBytes .rxbuf a n =
      (s.writeBytes .rxbuf 0 (body ++ le32Bytes crc)).readBytes .rxbuf a n := fun a n => by
    apply State.readBytes_congr
    rw [State.writeBytes_eq]
    rfl
  have hall := State.readBytes_writeBytes s .rxbuf 0 (body ++ le32Bytes crc) hw
  rw [← hread, List.length_append, length_le32Bytes, State.readBytes_append, Nat.zero_add] at hall
  obtain ⟨hbody, htrail⟩ := List.append_inj hall (by simp)
  have hcomp : computedChecksum (frameStored body crc t s) = s.crc body := by
    unfold computedChecksum
    show (frameStored body crc t s).crc ((frameStored body crc t s).readBytes .rxbuf 0 body.length) = _
    rw [hbody]
    rfl
  have hrecv : receivedChecksum (frameStored body crc t s) = crc := by
    have h4 : (frameStored body crc t s).readBytes .rxbuf body.length 4 =
        [(frameStored body crc t s).readByte .rxbuf body.length,
         (frameStored body crc t s).readByte .rxbuf (body.length + 1),
         (frameStored body crc t s).readByte .rxbuf (body.length + 2),
         (frameStored body crc t s).readByte .rxbuf (body.length + 3)] := rfl
    rw [h4] at htrail
    simp only [le32Bytes, List.cons.injEq, and_true] at htrail
    obtain ⟨h0, h1, h2, h3⟩ := htrail
    unfold receivedChecksum
    show ofLE32 ((frameStored body crc t s).readByte .rxbuf body.length)
      ((frameStored body crc t s).readByte .rxbuf (body.length + 1))
      ((frameStored body crc t s).readByte .rxbuf (body.length + 2))
      ((frameStored body crc t s).readByte .rxbuf (body.length + 3)) = crc
    rw [h0, h1, h2, h3, ofLE32_le32Bytes]
  rw [hrecv, hcomp]
  rfl

/-- The header of a frame up to its type byte, from an idle parser. -/
theorem parseBytes_magic {s : State} (h : parserIdle s) (bs : List Byte) :
    parseBytes (Config.magic0 :: Config.magic1 :: bs) s = parseBytes bs (s.setParser { s.p with
      state := .packetType, buf := Memory.writeAll s.p.buf 0 [Config.magic0, Config.magic1], idx := 2 }) := by
  simp only [parseBytes]
  rw [parseByte_magic0 h.1 (by rw [h.2]; decide)]
  rw [parseByte_magic1 rfl (by simp [h.2])]
  simp only [State.setParser_p, State.setParser_setParser, h.2]
  rfl

/-- A short frame from an idle parser (R112 to R114, R118, R119). -/
theorem parseBytes_shortFrame {t : PacketType} {s : State} (h : parserIdle s) (ht : isShort t)
    (hw : Memory.wf s.p.buf) (crc : Word) :
    parseBytes (encodeShort t crc) s = frameEnd (header t) crc t s := by
  show parseBytes (Config.magic0 :: Config.magic1 :: (typeCode t :: le32Bytes crc)) s = _
  rw [parseBytes_magic h]
  show parseBytes (le32Bytes crc) (parseByte (typeCode t) _) = _
  rw [parseByte_short rfl (by simp) ht]
  rw [← parseBytes_trailer (t := t) (by simp) hw]
  rfl

/-- A received type-7 frame from an idle parser (R115, R117, R118, R119). -/
theorem parseBytes_responseFrame {stub : Option Byte} {s : State} (h : parserIdle s)
    (hs : stubMatches s.par stub = true) (hw : Memory.wf s.p.buf) (crc : Word) :
    parseBytes (header .response ++ stub.toList ++ le32Bytes crc) s =
      frameEnd (header .response ++ stub.toList) crc .response s := by
  show parseBytes (Config.magic0 :: Config.magic1 :: (typeCode .response :: (stub.toList ++ le32Bytes crc))) s = _
  rw [parseBytes_magic h]
  show parseBytes (stub.toList ++ le32Bytes crc) (parseByte (typeCode .response) _) = _
  unfold stubMatches at hs
  split at hs <;> rename_i hl
  · obtain ⟨x, rfl⟩ := Option.isSome_iff_exists.mp hs
    rw [parseByte_response rfl (by simp) (by exact hl), parseBytes_append]
    rw [← parseBytes_trailer (t := .response) (by simp) hw]
    simp only [Option.toList_some, parseBytes]
    rw [parseByte_payload rfl (by simp)]
    simp only [State.setParser_p, State.setParser_setParser, Memory.writeAll_append]
    rfl
  · rw [Option.isNone_iff_eq_none.mp hs]
    rw [parseByte_response_noStub rfl (by simp) (by exact hl), parseBytes_append]
    rw [← parseBytes_trailer (t := .response) (by simp) hw]
    rfl

/-- A header with an illegal type byte from an idle parser (R116). -/
theorem parseBytes_illegalFrame {b : Byte} {s : State} (h : parserIdle s) (hb : b.toNat = 0 ∨ 8 ≤ b.toNat) :
    parseBytes [Config.magic0, Config.magic1, b] s = (s.setLatch true).setParser { s.p with
      state := .firstMagic, buf := Memory.writeAll s.p.buf 0 [Config.magic0, Config.magic1, b], idx := 0 } := by
  rw [parseBytes_magic h]
  simp only [parseBytes]
  rw [parseByte_illegalType rfl (by simp) hb]
  rfl

end Sys2Proof.Machine
end

