-- ==== Sys2Proof/Laws/Between.lean ====
section
/-! SUPPORT. The parser between bytes (R32): what PARSE_BYTE keeps of it, and how far the index goes. -/

namespace Sys2Proof.Machine

/-! ### Reading RXBUF after a store -/

theorem storeByte_wf {s : State} (hw : Memory.wf s.p.buf) (b : Byte) : Memory.wf (storeByte b s).p.buf :=
  Memory.wf_write hw _ _

theorem readByte_storeByte {s : State} (b : Byte) (x : Nat) :
    (storeByte b s).readByte .rxbuf x = if x = s.p.idx then b else s.readByte .rxbuf x :=
  State.readByte_writeByte s .rxbuf s.p.idx x b

/-- Bytes below the index are the ones stored before. -/
theorem readBytes_storeByte_below {s : State} (b : Byte) {n : Nat} (hn : n ≤ s.p.idx) :
    (storeByte b s).readBytes .rxbuf 0 n = s.readBytes .rxbuf 0 n := by
  unfold State.readBytes
  refine List.map_congr_left fun k hk => ?_
  have := List.mem_range.mp hk
  rw [readByte_storeByte, if_neg (by omega)]

/-- The bytes of the frame so far, with the stored one at the end. -/
theorem readBytes_storeByte {s : State} (b : Byte) {n : Nat} (hn : s.p.idx = n) :
    (storeByte b s).readBytes .rxbuf 0 (n + 1) = s.readBytes .rxbuf 0 n ++ [b] := by
  rw [State.readBytes_append, readBytes_storeByte_below b (by omega)]
  congr 1
  show [(storeByte b s).readByte .rxbuf (0 + n + 0)] = _
  rw [readByte_storeByte, if_pos (by omega)]

/-! ### One byte -/

/-- The parser at the end of a frame whose reply is due (R119): its type has a handler, so its body is a header. -/
theorem parserBetween_reply {s t : State} {b : Byte} {r : Reply} (h : parserBetweenBytes s)
    (hr : parseStep b s = (t, some r)) :
    t.p.state = .crc32 ∧ t.p.boundary = Config.headerLen ∧ t.p.idx = t.p.boundary + Config.crcLen := by
  obtain ⟨hs, rfl, hi, ht, -⟩ := parseStep_reply hr
  unfold parserBetweenBytes at h
  rw [hs] at h
  obtain ⟨-, hb, -⟩ := h
  refine ⟨hs, ?_, hi⟩
  show s.p.boundary = _
  rw [hb]
  change handlerOf s.p.type = some r at ht
  cases hty : s.p.type <;> rw [hty] at ht <;> first | rfl | cases ht

theorem failFrame_between (s : State) : parserBetweenBytes s.failFrame :=
  show s.failFrame.p.idx = 0 from rfl

theorem failFrame_idx (s : State) : s.failFrame.p.idx = 0 := rfl

/-- The bounds R32 puts on the index. -/
theorem parserBetween_idx {s : State} (h : parserBetweenBytes s) : s.p.idx ≤ 7 := by
  unfold parserBetweenBytes at h
  split at h
  · omega
  · omega
  · omega
  · omega
  · obtain ⟨-, hb, -, hi, -⟩ := h
    have : bodyLen s.par.stubLen s.p.type ≤ 4 := by
      cases s.p.type <;> cases s.par.stubLen <;> decide
    omega

/-- A byte that ends without a reply leaves the parser between bytes (R32). -/
theorem parseStep_between {s t : State} {b : Byte} (h : parserBetweenBytes s)
    (ht : parseStep b s = (t, none)) : parserBetweenBytes t := by
  have hi := parserBetween_idx h
  have e := parseByte_none ht
  rw [← e]
  unfold parserBetweenBytes at h
  split at h <;> rename_i hs
  · by_cases hb : b = Config.magic0
    · subst hb
      rw [parseByte_magic0 hs (by omega)]
      show s.p.idx + 1 = 1 ∧ _
      refine ⟨by omega, ?_⟩
      exact readBytes_storeByte (n := 0) Config.magic0 h
    · rw [parseByte_stray hs (by omega) hb]
      exact failFrame_between _
  · obtain ⟨h, hr⟩ := h
    by_cases hb : b = Config.magic1
    · subst hb
      rw [parseByte_magic1 hs (by omega)]
      show s.p.idx + 1 = 2 ∧ _
      refine ⟨by omega, ?_⟩
      refine (readBytes_storeByte (n := 1) Config.magic1 h).trans ?_
      rw [hr]
      rfl
    · rw [parseByte_badSecond hs (by omega) hb]
      exact failFrame_between _
  · obtain ⟨h, hr⟩ := h
    have h3 : ∀ c, (storeByte c s).readBytes .rxbuf 0 3 = [Config.magic0, Config.magic1, c] := fun c => by
      rw [readBytes_storeByte (n := 2) c h, hr]
      rfl
    by_cases hb : b.toNat = 0 ∨ 8 ≤ b.toNat
    · rw [parseByte_illegalType hs (by omega) hb]
      exact failFrame_between _
    · obtain ⟨ty, hty⟩ : ∃ ty, typeOfByte b = some ty :=
        Option.ne_none_iff_exists'.mp fun hn => hb (.inr (typeOfByte_eq_none.mp hn))
      obtain rfl := typeOfByte_eq_some.mp hty
      have hinv : ty ≠ .invalid := fun hn => hb (.inl (by rw [hn]; rfl))
      by_cases hresp : ty = .response
      · subst hresp
        cases hl : s.par.stubLen
        · rw [parseByte_response hs (by omega) hl]
          exact ⟨by simp only [State.setParser_p]; omega, hl, rfl, h3 _⟩
        · rw [parseByte_response_noStub hs (by omega) hl]
          refine ⟨by simp, ?_, Nat.le_refl _, Nat.le_add_right _ _, h3 _⟩
          show s.p.idx + 1 = bodyLen s.par.stubLen .response
          rw [h, hl]
          rfl
      · rw [parseByte_short hs (by omega) ⟨hinv, hresp⟩]
        refine ⟨hinv, ?_, Nat.le_refl _, Nat.le_add_right _ _, h3 _⟩
        show s.p.idx + 1 = bodyLen s.par.stubLen ty
        rw [h]
        cases ty <;> first | rfl | exact absurd rfl hresp
  · obtain ⟨h, hl, hty, hr⟩ := h
    rw [parseByte_payload hs (by omega)]
    refine ⟨by simp [hty], ?_, Nat.le_refl _, Nat.le_add_right _ _, ?_⟩
    · show s.p.idx + 1 = bodyLen s.par.stubLen s.p.type
      rw [h, hty, hl]
      rfl
    · refine (readBytes_storeByte_below b (by omega)).trans ?_
      rw [hr, State.setParser_p, hty]
  · obtain ⟨hne, hbd, hlo, hup, hr⟩ := h
    have hb3 : 3 ≤ s.p.boundary := by
      rw [hbd]
      cases s.p.type <;> cases s.par.stubLen <;> decide
    by_cases hn : s.p.idx + 1 = s.p.boundary + 4
    · rw [e]
      rw [parseStep_handle (by omega), hs] at ht
      have hc : trailerComplete (storeByte b s).p = true := by
        simpa [trailerComplete, storeByte_eq, Config.crcLen] using hn
      simp only [handleByte, inCrc32, hc, if_true, completeFrame] at ht
      split at ht
      · simp only [Prod.mk.injEq, and_true] at ht
        rw [← ht]
        rfl
      · split at ht
        · simp at ht
        · simp only [Prod.mk.injEq, and_true] at ht
          rw [← ht]
          rfl
    · rw [parseByte_trailer hs (by omega) hn]
      unfold parserBetweenBytes
      rw [show (storeByte b s).p.state = .crc32 from hs]
      refine ⟨hne, hbd, ?_, ?_, ?_⟩
      · show s.p.boundary ≤ s.p.idx + 1
        omega
      · show s.p.idx + 1 ≤ s.p.boundary + 3
        omega
      · exact (readBytes_storeByte_below b (by omega)).trans hr

/-- PARSE_BYTE leaves the parser between bytes (R32). -/
theorem parseByte_between {s : State} (h : parserBetweenBytes s) (b : Byte) :
    parserBetweenBytes (parseByte b s) := by
  unfold parseByte
  split
  · rename_i t ht
    exact parseStep_between h ht
  · exact rfl

/-- Every byte stored lies below the index it leaves or ends the frame; RXBUF keeps its form. -/
theorem parseStep_buf (b : Byte) (s : State) :
    (parseStep b s).1.p.buf = if s.p.idx < 16 then s.p.buf.write s.p.idx b else s.p.buf := by
  split
  · rename_i hi
    rw [parseStep_handle hi]
    have : (storeByte b s).p.buf = s.p.buf.write s.p.idx b := rfl
    rw [← this]
    generalize storeByte b s = t
    unfold handleByte inFirstMagic inSecondMagic inPacketType inCrc32 completeFrame
    split <;> (repeat' split) <;> rfl
  · rename_i hi
    have hx : bufferExhausted s.p = true := decide_eq_true (by simp only [Config.frameBufSize]; omega)
    simp only [parseStep, hx, if_true]
    rfl

theorem parseByte_buf (b : Byte) (s : State) :
    (parseByte b s).p.buf = if s.p.idx < 16 then s.p.buf.write s.p.idx b else s.p.buf := by
  have h := parseStep_buf b s
  unfold parseByte
  split <;> rename_i ht <;> rw [ht] at h
  · exact h
  · rename_i t r
    have hr := (runReply_replied r t).1
    show (runReply r t).p.buf = _
    rw [hr]
    exact h

theorem parseByte_wf {s : State} (hw : Memory.wf s.p.buf) (b : Byte) : Memory.wf (parseByte b s).p.buf := by
  rw [parseByte_buf]
  split
  · exact Memory.wf_write hw _ _
  · exact hw

end Sys2Proof.Machine
end

