-- ==== Sys2Proof/Laws/Exec.lean ====
section
/-! SUPPORT. What each total arm of `exec` is, and runs of PARSE_BYTE. -/

namespace Sys2Proof.Machine

theorem exec_rxError (crc : Word) (s : State) : exec (.rxError crc) s = .next (parseBytes (encodeShort .error crc) s) := rfl
theorem exec_rxPing (crc : Word) (s : State) : exec (.rxPing crc) s = .next (parseBytes (encodeShort .ping crc) s) := rfl
theorem exec_rxPong (crc : Word) (s : State) : exec (.rxPong crc) s = .next (parseBytes (encodeShort .pong crc) s) := rfl
theorem exec_rxRequest (crc : Word) (s : State) :
    exec (.rxRequest crc) s = .next (parseBytes (encodeShort .request crc) s) := rfl
theorem exec_rxRequestContinuousStart (crc : Word) (s : State) :
    exec (.rxRequestContinuousStart crc) s = .next (parseBytes (encodeShort .requestContinuousStart crc) s) := rfl
theorem exec_rxRequestContinuousStop (crc : Word) (s : State) :
    exec (.rxRequestContinuousStop crc) s = .next (parseBytes (encodeShort .requestContinuousStop crc) s) := rfl
theorem exec_rxResponse (stub : Option Byte) (crc : Word) (s : State) :
    exec (.rxResponse stub crc) s = .next (parseBytes (header .response ++ stub.toList ++ le32Bytes crc) s) := rfl
theorem exec_rxInvalid (s : State) : exec .rxInvalid s = .next (parseBytes (header .invalid) s) := rfl
theorem exec_rxUnassigned (t : Byte) (s : State) :
    exec (.rxUnassigned t) s = .next (parseBytes [Config.magic0, Config.magic1, t] s) := rfl
theorem exec_parseByte (b : Byte) (s : State) : exec (.parseByte b) s = .next (parseByte b s) := rfl
theorem exec_send (pkt : Packet) (s : State) : exec (.send pkt) s = .next (sendReturning pkt s) := rfl

/-- Every received frame is the parse of its encoding (log 17). -/
theorem exec_received {i : Instr} (h : isReceived i = true) (s : State) :
    exec i s = .next (parseBytes (encode s.par i) s) := by
  cases i <;> first
    | cases h; done
    | simp only [encode, exec_rxError, exec_rxPing, exec_rxPong, exec_rxRequest, exec_rxRequestContinuousStart,
        exec_rxRequestContinuousStop, exec_rxResponse, exec_rxInvalid, exec_rxUnassigned]

theorem execAll_append (is js : List Instr) (s : State) :
    execAll (is ++ js) s = match execAll is s with
      | .next t => execAll js t
      | .fault r => .fault r
      | .refused r => .refused r := by
  induction is generalizing s with
  | nil => rfl
  | cons i is ih =>
    simp only [List.cons_append, execAll]
    cases exec i s <;> simp only [ih]

theorem execAll_parseByte (bs : List Byte) (s : State) : execAll (bs.map .parseByte) s = .next (parseBytes bs s) := by
  induction bs generalizing s with
  | nil => rfl
  | cons b bs ih => exact ih _

end Sys2Proof.Machine
end

