-- ==== Sys2Proof/Laws/Queue.lean ====
section
/-! SUPPORT. The byte queue as a list: what PUSH and POP do to the held bytes, the count and the invariant. -/

namespace Sys2Proof.Machine

/-! ### Index arithmetic (R68 (a)) -/

theorem nextIdx_eq {n i : Nat} (h : i < n) : nextIdx n i = if i + 1 = n then 0 else i + 1 := by
  unfold nextIdx
  split
  · rename_i he
    rw [he, Nat.mod_self]
  · exact Nat.mod_eq_of_lt (by omega)

theorem nextIdx_lt {n i : Nat} (h : i < n) : nextIdx n i < n := Nat.mod_lt _ (by omega)

theorem wrap_sub {n a b : Nat} (ha : a < n) (hb : b < n) :
    (b + n - a) % n = if a ≤ b then b - a else b + n - a := by
  split
  · rw [show b + n - a = (b - a) + n by omega, Nat.add_mod_right]
    exact Nat.mod_eq_of_lt (by omega)
  · exact Nat.mod_eq_of_lt (by omega)

theorem wrap_add {n a k : Nat} (ha : a < n) (hk : k ≤ n) :
    (a + k) % n = if a + k < n then a + k else a + k - n := by
  split
  · exact Nat.mod_eq_of_lt (by assumption)
  · rw [show a + k = (a + k - n) + n by omega, Nat.add_mod_right, Nat.mod_eq_of_lt (by omega)]
    omega

theorem queueCount_eq {n : Nat} {q : Queue} (h : queueOk n q) :
    queueCount n q = if q.empty then 0 else if q.startIdx = q.endIdx then n
      else if q.startIdx ≤ q.endIdx then q.endIdx - q.startIdx else q.endIdx + n - q.startIdx := by
  unfold queueCount
  rw [wrap_sub h.1 h.2.1]

/-- The count never leaves [0, N] (R97). -/
theorem queueCount_le {n : Nat} {q : Queue} (h : queueOk n q) : queueCount n q ≤ n := by
  rw [queueCount_eq h]
  obtain ⟨h1, h2, -⟩ := h
  split_ifs <;> omega

theorem queueFull_iff {q : Queue} : queueFull q = true ↔ q.empty = false ∧ q.startIdx = q.endIdx := by
  simp [queueFull]

/-- Full means N bytes held (R26). -/
theorem queueCount_full {n : Nat} {q : Queue} (h : queueOk n q) :
    queueFull q = true ↔ queueCount n q = n := by
  rw [queueFull_iff, queueCount_eq h]
  obtain ⟨h1, h2, h3⟩ := h
  cases he : q.empty
  · simp_all
    split_ifs <;> omega
  · simp_all
    omega

/-- Empty means none held (R26). -/
theorem queueCount_empty {n : Nat} {q : Queue} (h : queueOk n q) :
    q.empty = true ↔ queueCount n q = 0 := by
  rw [queueCount_eq h]
  obtain ⟨h1, h2, h3⟩ := h
  cases he : q.empty
  · simp_all
    split_ifs <;> omega
  · simp_all

@[simp] theorem length_heldBytes (s : State) : (heldBytes s).length = queueCount s.par.capacity s.q := by
  simp [heldBytes]

/-! ### PUSH (R91) -/

/-- The queue after a successful PUSH. -/
def queuePushed (n : Nat) (b : Byte) (q : Queue) : Queue :=
  { buf := q.buf.write q.endIdx b, startIdx := q.startIdx, endIdx := nextIdx n q.endIdx, empty := false }

theorem pushQueue_full {b : Byte} {s : State} (h : queueFull s.q = true) : pushQueue b s = some (false, s) := by
  simp only [pushQueue, h, if_true]

theorem pushQueue_stores {b : Byte} {s : State} (h : queueFull s.q = false) (he : s.q.endIdx < s.par.capacity) :
    pushQueue b s = some (true, s.setQueue (queuePushed s.par.capacity b s.q)) := by
  simp only [pushQueue, h, if_pos he]
  rfl

/-- PUSH has an outcome wherever R26 holds. -/
theorem pushQueue_total {s : State} (h : queueOk s.par.capacity s.q) (b : Byte) :
    ∃ ok t, pushQueue b s = some (ok, t) := by
  cases hf : queueFull s.q
  · exact ⟨_, _, pushQueue_stores hf h.2.1⟩
  · exact ⟨_, _, pushQueue_full hf⟩

theorem queuePushed_ok {n : Nat} {b : Byte} {q : Queue} (h : queueOk n q) : queueOk n (queuePushed n b q) :=
  ⟨h.1, nextIdx_lt h.2.1, by simp [queuePushed]⟩

theorem queueCount_pushed {n : Nat} {b : Byte} {q : Queue} (h : queueOk n q) (hf : queueFull q = false) :
    queueCount n (queuePushed n b q) = queueCount n q + 1 := by
  have hf' : ¬ (q.empty = false ∧ q.startIdx = q.endIdx) := by
    rw [← queueFull_iff, hf]
    decide
  rw [queueCount_eq (queuePushed_ok h), queueCount_eq h]
  simp only [queuePushed, nextIdx_eq h.2.1]
  obtain ⟨h1, h2, h3⟩ := h
  cases he : q.empty <;> simp_all <;> split_ifs <;> omega

/-- The end index is where the next byte goes: `count` places after the start (R26). -/
theorem endIdx_eq {n : Nat} {q : Queue} (h : queueOk n q) :
    q.endIdx = (q.startIdx + queueCount n q) % n := by
  rw [wrap_add h.1 (queueCount_le h), queueCount_eq h]
  obtain ⟨h1, h2, h3⟩ := h
  cases he : q.empty
  · simp_all
    split_ifs <;> omega
  · simp_all

/-- Two places of the queue less than N apart are the same place only if they are equal. -/
theorem place_inj {n a j k : Nat} (ha : a < n) (hj : j < n) (hk : k < n) (h : (a + j) % n = (a + k) % n) :
    j = k := by
  rw [wrap_add ha (by omega), wrap_add ha (by omega)] at h
  split_ifs at h <;> omega

/-- PUSH appends at the young end (R96). -/
theorem heldBytes_pushed {s : State} {b : Byte} (h : queueOk s.par.capacity s.q) (hf : queueFull s.q = false) :
    heldBytes (s.setQueue (queuePushed s.par.capacity b s.q)) = heldBytes s ++ [b] := by
  have hcount := queueCount_pushed (b := b) h hf
  have hle := queueCount_le (queuePushed_ok (b := b) h)
  rw [hcount] at hle
  have hread : ∀ x, (s.setQueue (queuePushed s.par.capacity b s.q)).readByte .qmem x =
      if x = s.q.endIdx then b else s.readByte .qmem x := fun x => by
    have := State.readByte_writeByte s .qmem s.q.endIdx x b
    rw [← this]
    rfl
  unfold heldBytes
  simp only [State.setQueue_par, State.setQueue_q, hcount, List.range_succ, List.map_append, List.map_cons,
    List.map_nil, hread]
  have hstart : (queuePushed s.par.capacity b s.q).startIdx = s.q.startIdx := rfl
  congr 1
  · refine List.map_congr_left fun k hk => ?_
    have hk := List.mem_range.mp hk
    rw [hstart, if_neg]
    intro he
    rw [endIdx_eq h] at he
    have := place_inj h.1 (by omega) (by omega) he
    omega
  · rw [hstart, if_pos (endIdx_eq h).symm]

/-! ### POP (R92) -/

/-- The queue after a successful POP. -/
def queuePopped (n : Nat) (q : Queue) : Queue :=
  { q with startIdx := nextIdx n q.startIdx, empty := nextIdx n q.startIdx == q.endIdx }

theorem popQueue_empty {s : State} (h : s.q.empty = true) : popQueue s = some (none, s) := by
  simp only [popQueue, queueEmpty, h, if_true]

theorem popQueue_some {s : State} (h : s.q.empty = false) (hs : s.q.startIdx < s.par.capacity) :
    popQueue s = some (some (s.readByte .qmem s.q.startIdx), s.setQueue (queuePopped s.par.capacity s.q)) := by
  simp only [popQueue, queueEmpty, h, if_pos hs]
  rfl

/-- POP has an outcome wherever R26 holds. -/
theorem popQueue_total {s : State} (h : queueOk s.par.capacity s.q) : ∃ v t, popQueue s = some (v, t) := by
  cases he : s.q.empty
  · exact ⟨_, _, popQueue_some he h.1⟩
  · exact ⟨_, _, popQueue_empty he⟩

theorem queuePopped_ok {n : Nat} {q : Queue} (h : queueOk n q) : queueOk n (queuePopped n q) :=
  ⟨nextIdx_lt h.1, h.2.1, by simp [queuePopped]⟩

theorem queueCount_popped {n : Nat} {q : Queue} (h : queueOk n q) (he : q.empty = false) :
    queueCount n (queuePopped n q) + 1 = queueCount n q := by
  rw [queueCount_eq (queuePopped_ok h), queueCount_eq h]
  simp only [queuePopped, nextIdx_eq h.1, he, beq_iff_eq]
  obtain ⟨h1, h2, h3⟩ := h
  simp only [Bool.false_eq_true, if_false]
  split_ifs <;> omega

/-- POP removes at the old end (R96). -/
theorem heldBytes_popped {s : State} (h : queueOk s.par.capacity s.q) (he : s.q.empty = false) :
    heldBytes s = s.readByte .qmem s.q.startIdx ::
      heldBytes (s.setQueue (queuePopped s.par.capacity s.q)) := by
  have hcount := queueCount_popped h he
  have hle := queueCount_le h
  unfold heldBytes
  simp only [State.setQueue_par, State.setQueue_q]
  rw [← hcount, List.range_succ_eq_map, List.map_cons, List.map_map]
  have hstart : (queuePopped s.par.capacity s.q).startIdx = nextIdx s.par.capacity s.q.startIdx := rfl
  congr 1
  · rw [Nat.add_zero, Nat.mod_eq_of_lt h.1]
  · refine List.map_congr_left fun k hk => ?_
    have hk := List.mem_range.mp hk
    simp only [Function.comp, hstart, nextIdx]
    rw [Nat.mod_add_mod, show s.q.startIdx + 1 + k = s.q.startIdx + k.succ by omega]
    rfl

end Sys2Proof.Machine
end

