-- ==== Sys2Proof/Laws/Kept.lean ====
section
/-! SUPPORT. What PARSE_BYTE and everything it runs leave alone. -/

namespace Sys2Proof.Machine

/-- `m'` is `m` after writes below `n`: canonical form is kept, so are the bytes from `n` on, and so is the
bound `n` on the listed addresses. -/
def WrittenBelow (n : Nat) (m m' : Memory) : Prop :=
  (m.wf → m'.wf ∧ ∀ x, n ≤ x → m'.read? x = m.read? x) ∧ ((∀ c ∈ m, c.1 < n) → ∀ c ∈ m', c.1 < n)

theorem WrittenBelow.refl (n : Nat) (m : Memory) : WrittenBelow n m m := ⟨fun h => ⟨h, fun _ _ => rfl⟩, id⟩

theorem WrittenBelow.trans {n : Nat} {m m' m'' : Memory} (h : WrittenBelow n m m') (h' : WrittenBelow n m' m'') :
    WrittenBelow n m m'' :=
  ⟨fun hw => ⟨(h'.1 (h.1 hw).1).1, fun x hx => ((h'.1 (h.1 hw).1).2 x hx).trans ((h.1 hw).2 x hx)⟩,
    fun hb => h'.2 (h.2 hb)⟩

theorem writeAll_below (m : Memory) {n a : Nat} {bs : List Byte} (h : a + bs.length ≤ n) :
    WrittenBelow n m (Memory.writeAll m a bs) :=
  ⟨fun hw => ⟨Memory.wf_writeAll hw a bs, fun x hx => by rw [Memory.read?_writeAll hw, if_neg (by omega)]⟩,
    fun hb => Memory.bound_writeAll hb a bs h⟩

theorem write_below (m : Memory) {n a : Nat} (h : a < n) (b : Byte) : WrittenBelow n m (m.write a b) :=
  writeAll_below m (bs := [b]) h

theorem WrittenBelow.kept {n : Nat} {sp : Space} {s t : State} (h : WrittenBelow n (s.mem sp) (t.mem sp))
    (hw : (s.mem sp).wf) : bytesKeptFrom sp n s t := fun x hx => by
  simp only [State.readByte, (h.1 hw).2 x hx]

/-! ### The transmit buffer (R50) -/

theorem loadFrame_txbuf (pkt : Packet) (s : State) : WrittenBelow 11 s.tbuf (loadFrame pkt s).2.tbuf := by
  obtain ⟨bs, hl, he⟩ := loadFrame_tbuf pkt s
  rw [he]
  exact writeAll_below _ (by omega)

theorem sendPacket_txbuf (pkt : Packet) (s : State) : WrittenBelow 11 s.tbuf (sendPacket pkt s).2.tbuf := by
  rw [sendPacket_tbuf]
  exact loadFrame_txbuf pkt s

theorem raiseUnlessSent_tbuf (r : Bool × State) : (raiseUnlessSent r).tbuf = r.2.tbuf := by
  obtain ⟨ok, t⟩ := r
  cases ok <;> rfl

theorem readTemp_tbuf (s : State) : s.readTemp.2.tbuf = s.tbuf := by
  unfold State.readTemp
  split <;> rfl

theorem runReply_txbuf (r : Reply) (s : State) : WrittenBelow 11 s.tbuf (runReply r s).tbuf := by
  cases r
  · show WrittenBelow 11 _ (raiseUnlessSent _).tbuf
    rw [raiseUnlessSent_tbuf]
    exact sendPacket_txbuf _ _
  · show WrittenBelow 11 _ (raiseUnlessSent _).tbuf
    rw [raiseUnlessSent_tbuf, ← readTemp_tbuf s]
    exact sendPacket_txbuf _ _

/-! ### What an operation can change -/

/-- `t` is `s` but for the parser, the latch (not cleared), TXBUF below 11 and the transmit side of the
environment, whose trace only grows and whose clock does not go back. -/
structure OnlyRan (s t : State) : Prop where
  eq : t = { s with
    p := t.p
    tbuf := t.tbuf
    latch := t.latch
    env := { s.env with
      tx := t.env.tx, ready := t.env.ready, dt := t.env.dt, now := t.env.now, temps := t.env.temps,
      draws := t.env.draws } }
  latch : s.latch = true → t.latch = true
  txbuf : WrittenBelow 11 s.tbuf t.tbuf
  tx : s.env.tx <+: t.env.tx
  now : s.env.now ≤ t.env.now

theorem OnlyRan.refl (s : State) : OnlyRan s s :=
  ⟨rfl, id, WrittenBelow.refl _ _, List.prefix_rfl, Nat.le_refl _⟩

theorem OnlyRan.trans {s t u : State} (h : OnlyRan s t) (h' : OnlyRan t u) : OnlyRan s u := by
  refine ⟨?_, fun hl => h'.latch (h.latch hl), h.txbuf.trans h'.txbuf, h.tx.trans h'.tx, h.now.trans h'.now⟩
  rw [h'.eq]
  rw [h.eq]

theorem OnlyParsed.ran {s t : State} (h : OnlyParsed s t) : OnlyRan s t := by
  have ht : t.tbuf = s.tbuf := by
    rw [h.1]
    rfl
  have he : t.env = s.env := by
    rw [h.1]
    rfl
  refine ⟨?_, h.2, ht ▸ WrittenBelow.refl _ _, he ▸ List.prefix_rfl, he ▸ Nat.le_refl _⟩
  rw [h.1]
  rfl

theorem Waited.ran {s t : State} (h : Waited s t) : OnlyRan s t := by
  obtain ⟨h, hn⟩ := h
  have ht : t.tbuf = s.tbuf := by
    rw [h]
    rfl
  have hx : t.env.tx = s.env.tx := by
    rw [h]
    rfl
  have hl : t.latch = s.latch := by
    rw [h]
    rfl
  refine ⟨?_, fun h => hl.trans h, ht ▸ WrittenBelow.refl _ _, hx ▸ List.prefix_rfl, hn⟩
  rw [h]
  rfl

theorem emitAll_ran (s : State) (bs : List Byte) : OnlyRan s (s.emitAll bs) :=
  ⟨rfl, id, WrittenBelow.refl _ _, List.prefix_append _ _, Nat.le_refl _⟩

theorem loadFrame_ran (pkt : Packet) (s : State) : OnlyRan s (loadFrame pkt s).2 := by
  have h := loadFrame_onlyTransmitted pkt s
  have he : (loadFrame pkt s).2.env.tx = s.env.tx ∧ (loadFrame pkt s).2.env.now = s.env.now := by
    unfold loadFrame serialize
    by_cases hc : s.par.serCap < packetSize pkt
    · simp only [if_pos hc, State.writeBytes_eq]
      exact ⟨rfl, rfl⟩
    · simp only [if_neg hc, State.writeBytes_eq]
      exact ⟨rfl, rfl⟩
  have ht := loadFrame_txbuf pkt s
  generalize (loadFrame pkt s).2 = t at *
  unfold OnlyTransmitted at h
  refine ⟨?_, fun hl => ?_, ht, he.1 ▸ List.prefix_rfl, he.2 ▸ Nat.le_refl _⟩
  · rw [h]
  · rw [h]
    exact hl

theorem sendBytes_ran (bs : List Byte) (s : State) : OnlyRan s (sendBytes bs s).2 := by
  obtain ⟨k, -, -, -, hw⟩ := sendBytes_spec bs s
  exact (emitAll_ran s _).trans hw.ran

theorem sendByte_ran (b : Byte) (s : State) : OnlyRan s (sendByte b s).2 :=
  (emitAll_ran s [b]).trans (sendByte_waited b s).ran

theorem sendPacket_ran (pkt : Packet) (s : State) : OnlyRan s (sendPacket pkt s).2 := by
  have h := loadFrame_ran pkt s
  unfold sendPacket
  split <;> rename_i ht <;> rw [ht] at h
  · exact h
  · exact h.trans (sendBytes_ran _ _)

theorem raiseUnlessSent_ran (r : Bool × State) : OnlyRan r.2 (raiseUnlessSent r) := by
  obtain ⟨ok, t⟩ := r
  cases ok
  · exact (raise_onlyParsed t .transmitTimeout).ran
  · exact OnlyRan.refl t

theorem readTemp_ran (s : State) : OnlyRan s s.readTemp.2 := by
  unfold State.readTemp
  split <;> exact ⟨rfl, id, WrittenBelow.refl _ _, List.prefix_rfl, Nat.le_refl _⟩

theorem sendPong_ran (s : State) : OnlyRan s (sendPong s) :=
  (sendPacket_ran _ s).trans (raiseUnlessSent_ran _)

theorem sendTemperature_ran (s : State) : OnlyRan s (sendTemperature s) :=
  (readTemp_ran s).trans ((sendPacket_ran _ _).trans (raiseUnlessSent_ran _))

theorem runReply_ran (r : Reply) (s : State) : OnlyRan s (runReply r s) := by
  cases r
  · exact sendPong_ran s
  · exact sendTemperature_ran s

theorem dispatchType_ran (t : PacketType) (s : State) : OnlyRan s (dispatchType t s) := by
  unfold dispatchType
  split
  · exact runReply_ran _ s
  · exact OnlyParsed.ran (raise_onlyParsed s _)

theorem parseByte_ran (b : Byte) (s : State) : OnlyRan s (parseByte b s) := by
  have h := parseStep_onlyParsed b s
  unfold parseByte
  split <;> rename_i ht <;> rw [ht] at h
  · exact h.ran
  · exact (h.ran.trans (runReply_ran _ _)).trans (OnlyParsed.ran (setParser_onlyParsed _ _))

theorem parseBytes_ran (bs : List Byte) (s : State) : OnlyRan s (parseBytes bs s) := by
  induction bs generalizing s with
  | nil => exact OnlyRan.refl s
  | cons b bs ih => exact (parseByte_ran b s).trans (ih _)

/-- PARSE_BYTE from between bytes writes RXBUF below 8 only (R129), and ends between bytes. -/
theorem parseBytes_between {s : State} (h : parserBetweenBytes s) (bs : List Byte) :
    parserBetweenBytes (parseBytes bs s) ∧ WrittenBelow 8 s.p.buf (parseBytes bs s).p.buf := by
  induction bs generalizing s with
  | nil => exact ⟨h, WrittenBelow.refl _ _⟩
  | cons b bs ih =>
    obtain ⟨h1, h2⟩ := ih (parseByte_between h b)
    have hi := parserBetween_idx h
    have e := parseByte_buf b s
    rw [if_pos (by omega)] at e
    refine ⟨h1, WrittenBelow.trans ?_ h2⟩
    rw [e]
    exact write_below _ (by omega) b

/-! ### Instructions -/

/-- The instructions that touch the queue (R27), and the one that may clear the latch (R36). -/
def usesQueue (i : Instr) : Bool :=
  match i with
  | .push _ | .pop | .enqueue _ | .mainIter => true
  | .rxError _ | .rxPing _ | .rxPong _ | .rxRequest _ | .rxRequestContinuousStart _ => false
  | .rxRequestContinuousStop _ | .rxResponse _ _ | .rxInvalid | .rxUnassigned _ => false
  | .txError | .txPing | .txPong | .txRequest | .txResponse _ => false
  | .isEmpty | .isFull | .serialize _ _ _ | .parseByte _ | .dispatch _ | .parserReset | .framingError => false
  | .send _ | .sendByte _ | .sendPong | .sendTemperature | .sendError => false

theorem serialize_caller (pkt : Packet) (buf : Buffer) (cap : Nat) (s : State) :
    ∃ u m, OnlyRan s u ∧ WrittenBelow 7 s.env.caller m ∧
      (serialize pkt buf cap s).2 = u.setEnv { u.env with caller := m } := by
  have hsize : packetSize pkt ≤ 7 := by rcases packetSize_cases pkt with h | h <;> omega
  obtain ⟨bs, d, hl, he⟩ : ∃ (bs : List Byte) (d : Nat), bs.length ≤ 7 ∧
      (serialize pkt buf cap s).2 = ((s.writeBytes (bufferSpace buf) 0 bs).setEnv
        { (s.writeBytes (bufferSpace buf) 0 bs).env with draws := d }) := by
    unfold serialize
    split
    · exact ⟨failedBytes s (min cap (packetSize pkt)), _, by simp [failedBytes]; omega, rfl⟩
    · exact ⟨packetBody pkt, (s.writeBytes (bufferSpace buf) 0 (packetBody pkt)).env.draws,
        by rw [← packetSize_eq]; omega, rfl⟩
  rw [he, State.writeBytes_eq]
  cases buf
  · refine ⟨{ s with tbuf := Memory.writeAll s.tbuf 0 bs, env := { s.env with draws := d } }, s.env.caller,
      ⟨rfl, id, writeAll_below _ (by omega), List.prefix_rfl, Nat.le_refl _⟩, WrittenBelow.refl _ _, rfl⟩
  · exact ⟨{ s with env := { s.env with draws := d } }, Memory.writeAll s.env.caller 0 bs,
      ⟨rfl, id, WrittenBelow.refl _ _, List.prefix_rfl, Nat.le_refl _⟩, writeAll_below _ (by omega), rfl⟩

/-- What an instruction other than PUSH, POP, ENQUEUE and MAIN_ITER can do. -/
theorem exec_ran {i : Instr} {s t : State} (hq : usesQueue i = false) (h : exec i s = .next t) :
    ∃ u m r, OnlyRan s u ∧ WrittenBelow 7 s.env.caller m ∧
      t = (u.setEnv { u.env with caller := m }).setRet r := by
  have plain : ∀ {u : State} {r : Ret}, OnlyRan s u → t = u.setRet r →
      ∃ u m r, OnlyRan s u ∧ WrittenBelow 7 s.env.caller m ∧
        t = (u.setEnv { u.env with caller := m }).setRet r := fun {u r} hr he => by
    refine ⟨u, s.env.caller, r, hr, WrittenBelow.refl _ _, ?_⟩
    rw [he, show s.env.caller = u.env.caller by rw [hr.eq]]
    rfl
  have same : ∀ {u : State}, OnlyRan s u → t = u → ∃ u m r, OnlyRan s u ∧ WrittenBelow 7 s.env.caller m ∧
      t = (u.setEnv { u.env with caller := m }).setRet r := fun {u} hr he => plain (r := u.ret) hr (he ▸ rfl)
  by_cases hrec : isReceived i = true
  · rw [exec_received hrec] at h
    exact same (parseBytes_ran _ s) (Host.Outcome.next.inj h).symm
  cases i <;> first | (cases hq; done) | (exact absurd rfl hrec) | (have h := (Host.Outcome.next.inj h).symm)
  · exact plain (sendPacket_ran _ s) h
  · exact plain (sendPacket_ran _ s) h
  · exact plain (sendPacket_ran _ s) h
  · exact plain (sendPacket_ran _ s) h
  · exact plain (sendPacket_ran _ s) h
  · exact plain (OnlyRan.refl s) h
  · exact plain (OnlyRan.refl s) h
  · rename_i pkt buf cap _
    obtain ⟨u, m, hr, hm, he⟩ := serialize_caller pkt buf cap s
    refine ⟨u, m, .size (serialize pkt buf cap s).1, hr, hm, ?_⟩
    rw [h, he]
  · exact same (parseByte_ran _ s) h
  · exact same (dispatchType_ran _ s) h
  · exact same (OnlyParsed.ran (setParser_onlyParsed s _)) h
  · exact same (OnlyParsed.ran (failFrame_onlyParsed s)) h
  · exact plain (sendPacket_ran _ s) h
  · exact plain (sendByte_ran _ s) h
  · exact same (sendPong_ran s) h
  · exact same (sendTemperature_ran s) h
  · exact same (sendPacket_ran _ s) h

/-! ### The main loop and the step -/

theorem sendError_ran (s : State) : OnlyRan s (sendError s) := sendPacket_ran .error s

/-- The error report clears the latch and otherwise sends (R157). -/
theorem reportErrors_ran (s : State) : OnlyRan (s.setLatch false) (reportErrors s) ∧ (reportErrors s).latch = false := by
  unfold reportErrors testAndClear
  cases s.latch
  · exact ⟨OnlyRan.refl _, rfl⟩
  · refine ⟨sendError_ran _, ?_⟩
    have h := sendPacket_onlyTransmitted .error (s.setLatch false)
    show (sendPacket .error (s.setLatch false)).2.latch = false
    rw [h]
    rfl

/-- What PUSH amounts to (R91). -/
theorem pushQueue_cases {b : Byte} {s t : State} {ok : Bool} (h : pushQueue b s = some (ok, t)) :
    (ok = false ∧ queueFull s.q = true ∧ t = s) ∨
    (ok = true ∧ queueFull s.q = false ∧ s.q.endIdx < s.par.capacity ∧
      t = s.setQueue (queuePushed s.par.capacity b s.q)) := by
  unfold pushQueue at h
  split at h
  · rename_i hf
    simp only [Option.some.injEq, Prod.mk.injEq] at h
    exact .inl ⟨h.1.symm, hf, h.2.symm⟩
  · rename_i hf
    split at h
    · rename_i hi
      simp only [Option.some.injEq, Prod.mk.injEq] at h
      exact .inr ⟨h.1.symm, by simpa using hf, hi, h.2.symm⟩
    · cases h

/-- What POP amounts to (R92). -/
theorem popQueue_cases {s t : State} {v : Option Byte} (h : popQueue s = some (v, t)) :
    (v = none ∧ s.q.empty = true ∧ t = s) ∨
    (v = some (s.readByte .qmem s.q.startIdx) ∧ s.q.empty = false ∧ s.q.startIdx < s.par.capacity ∧
      t = s.setQueue (queuePopped s.par.capacity s.q)) := by
  unfold popQueue at h
  split at h
  · rename_i he
    simp only [Option.some.injEq, Prod.mk.injEq] at h
    exact .inl ⟨h.1.symm, he, h.2.symm⟩
  · rename_i he
    split at h
    · rename_i hi
      simp only [Option.some.injEq, Prod.mk.injEq] at h
      exact .inr ⟨h.1.symm, by simpa [queueEmpty] using he, hi, h.2.symm⟩
    · cases h

/-- What ENQUEUE amounts to (R95). -/
theorem exec_enqueue_cases {b : Byte} {s t : State} (h : exec (.enqueue b) s = .next t) :
    (queueFull s.q = true ∧ t = s.setLatch true) ∨
    (queueFull s.q = false ∧ s.q.endIdx < s.par.capacity ∧ t = s.setQueue (queuePushed s.par.capacity b s.q)) := by
  simp only [exec, execEnqueue] at h
  split at h
  · rename_i u hu
    rcases pushQueue_cases hu with ⟨hc, -⟩ | ⟨-, h1, h2, rfl⟩
    · cases hc
    · exact .inr ⟨h1, h2, (Host.Outcome.next.inj h).symm⟩
  · rename_i u hu
    rcases pushQueue_cases hu with ⟨-, h1, rfl⟩ | ⟨hc, -⟩
    · exact .inl ⟨h1, (Host.Outcome.next.inj h).symm.trans (State.raise_eq _ _)⟩
    · cases hc
  · cases h

/-- What an iteration amounts to: the POP, then the parser, then the report (R155). -/
theorem exec_mainIter_cases {s t : State} (h : exec .mainIter s = .next t) :
    ∃ v u, popQueue s = some (v, u) ∧ t = reportErrors (parsePopped v u) := by
  simp only [exec, execMainIter] at h
  split at h
  · rename_i v u hu
    exact ⟨v, u, hu, (Host.Outcome.next.inj h).symm⟩
  · cases h

theorem parsePopped_ran (v : Option Byte) (s : State) : OnlyRan s (parsePopped v s) := by
  cases v
  · exact OnlyRan.refl s
  · exact parseByte_ran _ s

/-- What a step amounts to: an instruction on the state whose event has been taken, or the main context's
atomic step. -/
theorem step_cases {s t : State} (h : step s = .next t) :
    (∃ i u es, fetch s = .instr i u ∧ u = s.setSched es ∧ exec i u = .next t) ∨
    (∃ u es, fetch s = .main u ∧ u = s.setSched es ∧ mainStep u = .next t) := by
  have hf : (∀ i u, fetch s = .instr i u → ∃ es, u = s.setSched es) ∧
      (∀ u, fetch s = .main u → ∃ es, u = s.setSched es) := by
    have hself : s = s.setSched s.env.sched := rfl
    constructor
    · intro i u hu
      unfold fetch fetchWire at hu
      split at hu
      · cases hu
      · cases hu
        exact ⟨_, rfl⟩
      · cases hu
      · split at hu <;> cases hu
        exact ⟨_, rfl⟩
      · split at hu
        · split at hu
          · cases hu
          · split at hu <;> cases hu <;> exact ⟨_, rfl⟩
        · cases hu
    · intro u hu
      unfold fetch fetchWire at hu
      split at hu
      · cases hu
        exact ⟨_, hself⟩
      · cases hu
      · cases hu
        exact ⟨_, rfl⟩
      · split at hu <;> cases hu
        exact ⟨_, hself⟩
      · split at hu
        · split at hu
          · cases hu
            exact ⟨_, rfl⟩
          · split at hu <;> cases hu
        · cases hu
          exact ⟨_, hself⟩
  unfold step at h
  split at h
  · rename_i i u hu
    obtain ⟨es, he⟩ := hf.1 i u hu
    exact .inl ⟨i, u, es, hu, he, h⟩
  · rename_i u hu
    obtain ⟨es, he⟩ := hf.2 u hu
    exact .inr ⟨u, es, hu, he, h⟩

end Sys2Proof.Machine
end

