-- ==== Sys2Proof/Laws/Commute.lean ====
section
/-! SUPPORT. Nothing the main context does between the POP and the latch test looks at the queue or at the
latch, so it commutes with what an ENQUEUE does (R61). -/

namespace Sys2Proof.Machine

/-- What an ENQUEUE amounts to: another queue, and the latch set or left (R95, R177). -/
def State.interrupted (q : Queue) (l : Bool) (s : State) : State := (s.setQueue q).setLatch (s.latch || l)

theorem interrupted_keep (q : Queue) (s : State) : s.interrupted q false = s.setQueue q := by
  unfold State.interrupted
  rw [Bool.or_false]
  rfl

theorem interrupted_raise (s : State) : s.interrupted s.q true = s.setLatch true := by
  simp [State.interrupted]

/-! ### The transmit side -/

/-- A change of fields the transmit side neither reads nor writes: it leaves the parameters, TXBUF and the
environment, and does not mind when these are written. -/
structure Beside (f : State → State) : Prop where
  par : ∀ s, (f s).par = s.par
  tbuf : ∀ s, (f s).tbuf = s.tbuf
  env : ∀ s, (f s).env = s.env
  setEnv : ∀ s e, (f s).setEnv e = f (s.setEnv e)
  setMem : ∀ s m, (f s).setMem .txbuf m = f (s.setMem .txbuf m)

theorem beside_setParser (p : Parser) : Beside (State.setParser · p) :=
  ⟨fun _ => rfl, fun _ => rfl, fun _ => rfl, fun _ _ => rfl, fun _ _ => rfl⟩

theorem beside_interrupted (q : Queue) (l : Bool) : Beside (State.interrupted q l) :=
  ⟨fun _ => rfl, fun _ => rfl, fun _ => rfl, fun _ _ => rfl, fun _ _ => rfl⟩

section
variable {f : State → State} (hf : Beside f)
include hf

theorem readTick_beside (s : State) : (f s).readTick = (s.readTick.1, f s.readTick.2) := by
  simp only [State.readTick, State.nextAdvance, hf.env, hf.par, hf.setEnv]

theorem readTemp_beside (s : State) : (f s).readTemp = (s.readTemp.1, f s.readTemp.2) := by
  unfold State.readTemp
  simp only [hf.env, hf.setEnv]
  split <;> rfl

theorem pollOnce_beside (t0 : Nat) (s : State) : pollOnce t0 (f s) = ((pollOnce t0 s).1, f (pollOnce t0 s).2) := by
  unfold pollOnce
  simp only [hf.env, hf.setEnv, hf.par, readTick_beside hf]
  split
  · rfl
  · rfl
  · unfold abstractWait
    simp only [hf.env, hf.setEnv]
    split <;> rfl

theorem pollLoop_beside (t0 k : Nat) (s : State) :
    pollLoop t0 k (f s) = ((pollLoop t0 k s).1, f (pollLoop t0 k s).2) := by
  induction k generalizing s with
  | zero => rfl
  | succ k ih =>
    unfold pollLoop
    rw [pollOnce_beside hf]
    rcases pollOnce t0 s with ⟨r, t⟩
    cases r <;> simp only [ih]

theorem sendByte_beside (b : Byte) (s : State) : sendByte b (f s) = ((sendByte b s).1, f (sendByte b s).2) := by
  simp only [sendByte, State.emitTx, hf.env, hf.setEnv, readTick_beside hf, pollLoop_beside hf]

theorem sendBytes_beside (bs : List Byte) (s : State) :
    sendBytes bs (f s) = ((sendBytes bs s).1, f (sendBytes bs s).2) := by
  induction bs generalizing s with
  | nil => rfl
  | cons b bs ih =>
    unfold sendBytes
    rw [sendByte_beside hf]
    rcases sendByte b s with ⟨ok, t⟩
    cases ok <;> simp only [ih]

theorem writeBytes_beside (a : Nat) (bs : List Byte) (s : State) :
    (f s).writeBytes .txbuf a bs = f (s.writeBytes .txbuf a bs) := by
  rw [State.writeBytes_eq, State.writeBytes_eq, hf.setMem]
  simp only [State.mem, hf.tbuf]

theorem loadFrame_beside (pkt : Packet) (s : State) :
    loadFrame pkt (f s) = ((loadFrame pkt s).1, f (loadFrame pkt s).2) := by
  have hread : ∀ t n, (f t).readBytes .txbuf 0 n = t.readBytes .txbuf 0 n := fun t n =>
    State.readBytes_congr (sp := .txbuf) (hf.tbuf t) 0 n
  unfold loadFrame serialize failedBytes
  simp only [hf.par, hf.env]
  split_ifs
  · simp only [bufferSpace, writeBytes_beside hf, hf.env, hf.setEnv]
  · simp only [bufferSpace, writeBytes_beside hf, hread, State.crc, hf.par]

theorem sendPacket_beside (pkt : Packet) (s : State) :
    sendPacket pkt (f s) = ((sendPacket pkt s).1, f (sendPacket pkt s).2) := by
  have hread : ∀ t n, (f t).readBytes .txbuf 0 n = t.readBytes .txbuf 0 n := fun t n =>
    State.readBytes_congr (sp := .txbuf) (hf.tbuf t) 0 n
  unfold sendPacket
  rw [loadFrame_beside hf]
  rcases loadFrame pkt s with ⟨n, t⟩
  cases n with
  | none => rfl
  | some n => simp only [hread, sendBytes_beside hf]

end

variable (q : Queue) (l : Bool)

theorem pollOnce_interrupted (t0 : Nat) (s : State) :
    pollOnce t0 (s.interrupted q l) = ((pollOnce t0 s).1, (pollOnce t0 s).2.interrupted q l) :=
  pollOnce_beside (beside_interrupted q l) t0 s

theorem readTemp_interrupted (s : State) :
    (s.interrupted q l).readTemp = (s.readTemp.1, s.readTemp.2.interrupted q l) :=
  readTemp_beside (beside_interrupted q l) s

theorem loadFrame_interrupted (pkt : Packet) (s : State) :
    loadFrame pkt (s.interrupted q l) = ((loadFrame pkt s).1, (loadFrame pkt s).2.interrupted q l) :=
  loadFrame_beside (beside_interrupted q l) pkt s

theorem sendPacket_interrupted (pkt : Packet) (s : State) :
    sendPacket pkt (s.interrupted q l) = ((sendPacket pkt s).1, (sendPacket pkt s).2.interrupted q l) :=
  sendPacket_beside (beside_interrupted q l) pkt s

theorem raiseUnlessSent_interrupted (ok : Bool) (s : State) :
    raiseUnlessSent (ok, s.interrupted q l) = (raiseUnlessSent (ok, s)).interrupted q l := by
  cases ok
  · simp only [raiseUnlessSent, State.raise_eq]
    rfl
  · rfl

theorem runReply_interrupted (r : Reply) (s : State) :
    runReply r (s.interrupted q l) = (runReply r s).interrupted q l := by
  cases r
  · simp only [runReply, sendPong, sendPacket_interrupted, raiseUnlessSent_interrupted]
  · simp only [runReply, sendTemperature, readTemp_interrupted, sendPacket_interrupted, raiseUnlessSent_interrupted]

/-! ### The parser -/

theorem parseStep_interrupted (b : Byte) (s : State) :
    parseStep b (s.interrupted q l) = ((parseStep b s).1.interrupted q l, (parseStep b s).2) := by
  have hs : storeByte b (s.interrupted q l) = (storeByte b s).interrupted q l := rfl
  have hp : (s.interrupted q l).p = s.p := rfl
  unfold parseStep
  rw [hs, hp]
  split
  · rfl
  · generalize storeByte b s = t
    unfold handleByte
    split
    · unfold inFirstMagic
      split <;> rfl
    · unfold inSecondMagic
      split <;> rfl
    · unfold inPacketType
      rw [show (t.interrupted q l).par = t.par from rfl]
      split
      · rfl
      · split <;> rfl
      · rfl
    · rfl
    · unfold inCrc32
      rw [show (t.interrupted q l).p = t.p from rfl]
      split
      · unfold completeFrame
        rw [show receivedChecksum (t.interrupted q l) = receivedChecksum t from rfl,
          show computedChecksum (t.interrupted q l) = computedChecksum t from rfl,
          show (t.interrupted q l).p = t.p from rfl]
        split
        · simp only [State.raise_eq]
          rfl
        · split
          · rfl
          · simp only [State.raise_eq]
            rfl
      · rfl

theorem parseByte_interrupted (b : Byte) (s : State) :
    parseByte b (s.interrupted q l) = (parseByte b s).interrupted q l := by
  unfold parseByte
  rw [parseStep_interrupted]
  rcases parseStep b s with ⟨t, r⟩
  cases r with
  | none => rfl
  | some r =>
    simp only [runReply_interrupted]
    rfl

theorem parseBytes_interrupted (bs : List Byte) (s : State) :
    parseBytes bs (s.interrupted q l) = (parseBytes bs s).interrupted q l := by
  induction bs generalizing s with
  | nil => rfl
  | cons b bs ih => simp only [parseBytes, parseByte_interrupted, ih]

end Sys2Proof.Machine
end

