-- ==== Sys2Proof/Laws/Decode.lean ====
section
/-! SUPPORT. What the decoder's parts read: a trailer, a short frame, and back. -/

namespace Sys2Proof

open Machine

theorem decodeTrailer_le32Bytes (crc : Word) (rest : List Byte) :
    decodeTrailer (le32Bytes crc ++ rest) = .ok (crc, rest) :=
  show Except.ok (ofLE32 _ _ _ _, rest) = _ by rw [ofLE32_le32Bytes]

theorem decodeShort_le32Bytes (mk : Word → Instr) (crc : Word) (rest : List Byte) :
    decodeShort mk (le32Bytes crc ++ rest) = .ok (mk crc, rest) := by
  simp only [decodeShort, decodeTrailer_le32Bytes]

theorem decodeTrailer_ok {bs rest : List Byte} {crc : Word} (h : decodeTrailer bs = .ok (crc, rest)) :
    bs = le32Bytes crc ++ rest := by
  unfold decodeTrailer at h
  split at h
  · simp only [Except.ok.injEq, Prod.mk.injEq] at h
    obtain ⟨rfl, rfl⟩ := h
    rw [le32Bytes_ofLE32]
    rfl
  · cases h

theorem decodeShort_ok {mk : Word → Instr} {bs rest : List Byte} {i : Instr}
    (h : decodeShort mk bs = .ok (i, rest)) : ∃ crc, i = mk crc ∧ bs = le32Bytes crc ++ rest := by
  unfold decodeShort at h
  split at h
  · rename_i hc
    simp only [Except.ok.injEq, Prod.mk.injEq] at h
    obtain ⟨rfl, rfl⟩ := h
    exact ⟨_, rfl, decodeTrailer_ok hc⟩
  · cases h

/-- The magic of a header is checked and dropped (R73). -/
theorem decode_magic (l : StubLen) (t : Byte) (bs : List Byte) :
    decode l (Config.magic0 :: Config.magic1 :: t :: bs) = decodeType l t bs := by
  simp only [decode, ne_eq, not_true_eq_false, if_false]

/-- What begins with a frame the decoder reads begins with the magic. -/
theorem decode_ok {l : StubLen} {bs rest : List Byte} {i : Instr} (h : decode l bs = .ok (i, rest)) :
    ∃ t body, bs = Config.magic0 :: Config.magic1 :: t :: body ∧ decodeType l t body = .ok (i, rest) := by
  unfold decode at h
  split at h
  · cases h
  split at h
  · cases h
  rename_i h0
  split at h
  · cases h
  split at h
  · cases h
  rename_i h1
  split at h
  · cases h
  simp only [ne_eq, not_not] at h0 h1
  subst h0 h1
  exact ⟨_, _, rfl, h⟩

end Sys2Proof
end

