-- ==== Sys2Proof/Laws/Invariant.lean ====
section
/-! SUPPORT. What the parts of `State.Inv` depend on, and the moves that keep it. -/

namespace Sys2Proof.Machine

theorem parserBetween_congr {s t : State} (hp : t.p = s.p) (hl : t.par = s.par) (h : parserBetweenBytes s) :
    parserBetweenBytes t := by
  have hr : ∀ n, t.readBytes .rxbuf 0 n = s.readBytes .rxbuf 0 n :=
    fun n => State.readBytes_congr (sp := .rxbuf) (congrArg Parser.buf hp) 0 n
  unfold parserBetweenBytes at *
  rw [hp]
  cases hs : s.p.state <;> rw [hs] at h <;> simp only at h ⊢ <;>
    first | exact h | (rw [hr, hl]; exact h) | (rw [hr]; exact h)

theorem frameLoaded_congr {o : Sender} {n : Nat} {s t : State} (ht : t.tbuf = s.tbuf) (hp : t.par = s.par)
    (h : frameLoaded o n s) : frameLoaded o n t := by
  obtain ⟨pkt, h1, h2, h3⟩ := h
  exact ⟨pkt, h1, h2, by rw [State.readBytes_congr (sp := .txbuf) (s := s) (t := t) ht, hp]; exact h3⟩

theorem sendOk_congr {s t : State} (ht : t.tbuf = s.tbuf) (hp : t.par = s.par) (hc : t.ctl = s.ctl) (h : sendOk s) :
    sendOk t := by
  unfold sendOk at *
  rw [hc]
  split <;> rename_i hs <;> rw [hs] at h <;> simp only at h
  · exact ⟨h.1, frameLoaded_congr ht hp h.2⟩
  · exact ⟨h.1, by rw [hp]; exact h.2.1, frameLoaded_congr ht hp h.2.2⟩
  · exact h
  all_goals trivial

/-- A frame that was loaded stands whole in TXBUF (R141, R142). -/
theorem loadFrame_loaded {o : Sender} {pkt : Packet} {s t : State} {n : Nat} (hw : Memory.wf s.tbuf)
    (hp : o = .report → pkt = .error) (h : loadFrame pkt s = (some n, t)) : frameLoaded o n t := by
  by_cases hc : packetSize pkt ≤ s.par.serCap
  · rw [loadFrame_fits hc hw] at h
    simp only [Prod.mk.injEq, Option.some.injEq] at h
    obtain ⟨rfl, rfl⟩ := h
    refine ⟨pkt, rfl, hp, ?_⟩
    rw [← length_packetFrame s.par.checksum pkt]
    refine (State.readBytes_writeBytes s .txbuf 0 _ hw).trans ?_
    rw [State.writeBytes_eq]
    rfl
  · exfalso
    unfold loadFrame serialize at h
    simp only [if_pos (Nat.lt_of_not_le hc)] at h
    cases h

/-! ### Moves -/

theorem State.Inv.sched {s : State} (h : s.Inv) (es : List Event) : (s.setSched es).Inv :=
  ⟨h.capacity, h.queue, h.parser, h.handler, h.send, h.qmemWf, h.rxbufWf, h.txbufWf, h.callerWf, h.qmemIn,
    h.rxbufIn, h.txbufIn⟩

theorem State.Inv.latched {s : State} (h : s.Inv) (v : Bool) : (s.setLatch v).Inv :=
  ⟨h.capacity, h.queue, h.parser, h.handler, h.send, h.qmemWf, h.rxbufWf, h.txbufWf, h.callerWf, h.qmemIn,
    h.rxbufIn, h.txbufIn⟩

theorem State.Inv.returned {s : State} (h : s.Inv) (r : Ret) : (s.setRet r).Inv :=
  ⟨h.capacity, h.queue, h.parser, h.handler, h.send, h.qmemWf, h.rxbufWf, h.txbufWf, h.callerWf, h.qmemIn,
    h.rxbufIn, h.txbufIn⟩

theorem State.Inv.pushed {s : State} (h : s.Inv) (hi : s.q.endIdx < s.par.capacity) (b : Byte) :
    (s.setQueue (queuePushed s.par.capacity b s.q)).Inv :=
  ⟨h.capacity, queuePushed_ok h.queue, h.parser, h.handler, h.send, Memory.wf_write h.qmemWf _ _, h.rxbufWf,
    h.txbufWf, h.callerWf, Memory.bound_write h.qmemIn hi b, h.rxbufIn, h.txbufIn⟩

theorem State.Inv.popped {s t : State} {v : Option Byte} (h : s.Inv) (ht : popQueue s = some (v, t)) : t.Inv := by
  rcases popQueue_cases ht with ⟨-, -, rfl⟩ | ⟨-, -, -, rfl⟩
  · exact h
  · exact ⟨h.capacity, queuePopped_ok h.queue, h.parser, h.handler, h.send, h.qmemWf, h.rxbufWf, h.txbufWf,
      h.callerWf, h.qmemIn, h.rxbufIn, h.txbufIn⟩

theorem State.Inv.enqueued {s t : State} {b : Byte} (h : s.Inv) (ht : exec (.enqueue b) s = .next t) : t.Inv := by
  rcases exec_enqueue_cases ht with ⟨-, rfl⟩ | ⟨-, hi, rfl⟩
  · exact h.latched true
  · exact h.pushed hi b

/-- The move of everything that neither pops, pushes nor reports, to a control point whose own conditions hold. -/
theorem State.Inv.ran {s t : State} (h : s.Inv) (hr : OnlyRan s t) (c : Ctl)
    (hb : WrittenBelow 8 s.p.buf t.p.buf) (hp : inHandler c = false → parserBetweenBytes t)
    (hh : inHandler c = true →
      t.p.state = .crc32 ∧ t.p.boundary = Config.headerLen ∧ t.p.idx = t.p.boundary + Config.crcLen)
    (hs : sendOk (t.setCtl c)) : (t.setCtl c).Inv := by
  have hq : t.q = s.q := by rw [hr.eq]
  have hpar : t.par = s.par := by rw [hr.eq]
  have hc : t.env.caller = s.env.caller := by rw [hr.eq]
  refine ⟨?_, ?_, fun h => hp h, fun h => hh h, hs, ?_, (hb.1 h.rxbufWf).1, (hr.txbuf.1 h.txbufWf).1, ?_, ?_,
    hb.2 h.rxbufIn, hr.txbuf.2 h.txbufIn⟩
  · show 1 ≤ t.par.capacity
    rw [hpar]
    exact h.capacity
  · show queueOk t.par.capacity t.q
    rw [hpar, hq]
    exact h.queue
  · show Memory.wf t.q.buf
    rw [hq]
    exact h.qmemWf
  · show Memory.wf t.env.caller
    rw [hc]
    exact h.callerWf
  · show ∀ c ∈ t.q.buf, c.1 < t.par.capacity
    rw [hpar, hq]
    exact h.qmemIn

/-- The caller's buffer and the result are the caller's. -/
theorem State.Inv.delivered {s : State} (h : s.Inv) {m : Memory} (hm : Memory.wf m) (r : Ret) :
    ((s.setEnv { s.env with caller := m }).setRet r).Inv :=
  ⟨h.capacity, h.queue, h.parser, h.handler, h.send, h.qmemWf, h.rxbufWf, h.txbufWf, hm, h.qmemIn,
    h.rxbufIn, h.txbufIn⟩

/-- A direct call or a frame is fetched between two iterations only; the interrupt at any time (R59, R60). -/
theorem fetch_instr {s u : State} {i : Instr} (h : fetch s = .instr i u) :
    (∃ b, i = .enqueue b) ∨ s.ctl = .iterStart := by
  unfold fetch fetchWire at h
  split at h
  · cases h
  · cases h
    exact .inl ⟨_, rfl⟩
  · cases h
  · split at h
    · rename_i hc
      exact .inr hc
    · cases h
  · split at h
    · rename_i hc
      exact .inr hc
    · cases h

end Sys2Proof.Machine
end

