-- ==== Sys2Proof/Laws/Loop.lean ====
section
/-! SUPPORT. Iterations of the main loop over a queue seen as a list of bytes. -/

namespace Sys2Proof.Machine

theorem heldBytes_congr {s t : State} (hq : t.q = s.q) (hp : t.par = s.par) : heldBytes t = heldBytes s := by
  unfold heldBytes
  rw [hq, hp]
  exact List.map_congr_left fun k _ => State.readByte_congr (sp := .qmem) (congrArg Queue.buf hq) _

/-- The report does nothing while the latch is clear (R157). -/
theorem reportErrors_clear {s : State} (h : s.latch = false) : reportErrors s = s := by
  unfold reportErrors testAndClear
  rw [h]
  simp only
  rw [← h]
  rfl

/-- One iteration over a queue whose oldest byte is `b` (R155, R156). -/
theorem mainIter_held {s : State} {b : Byte} {rest : List Byte} (hq : queueOk s.par.capacity s.q)
    (hh : heldBytes s = b :: rest) :
    popQueue s = some (some b, s.setQueue (queuePopped s.par.capacity s.q)) ∧
    heldBytes (s.setQueue (queuePopped s.par.capacity s.q)) = rest ∧
    exec .mainIter s = .next (reportErrors (parseByte b (s.setQueue (queuePopped s.par.capacity s.q)))) := by
  have he : s.q.empty = false := by
    cases h : s.q.empty
    · rfl
    · have := (queueCount_empty hq).mp h
      rw [← length_heldBytes, hh] at this
      simp at this
  have hp := heldBytes_popped hq he
  rw [hh, List.cons.injEq] at hp
  obtain ⟨hb, hr⟩ := hp
  have hpop := popQueue_some he hq.1
  rw [← hb] at hpop
  exact ⟨hpop, hr.symm, by simp only [exec, execMainIter, hpop, parsePopped]⟩

/-- As many iterations as there are bytes `bs` at the head of the queue are the parse of `bs`, as long as no error
is raised on the way. -/
theorem mainIters_held {bs rest : List Byte} {s : State} (hq : queueOk s.par.capacity s.q)
    (hh : heldBytes s = bs ++ rest) (hl : (parseBytes bs s).latch = false) :
    ∃ q, execAll (List.replicate bs.length .mainIter) s = .next ((parseBytes bs s).setQueue q) ∧
      queueOk s.par.capacity q ∧ heldBytes (s.setQueue q) = rest := by
  induction bs generalizing s with
  | nil => exact ⟨s.q, rfl, hq, hh⟩
  | cons b bs ih =>
    obtain ⟨-, hr, hm⟩ := mainIter_held hq hh
    have hk := queuePopped_ok hq
    generalize queuePopped s.par.capacity s.q = q1 at *
    have hc : parseByte b (s.setQueue q1) = (parseByte b s).setQueue q1 := by
      rw [← interrupted_keep, ← interrupted_keep, parseByte_interrupted]
    have hr1 := parseByte_ran b s
    have hl1 : (parseByte b s).latch = false := by
      cases h : (parseByte b s).latch
      · rfl
      · have := (parseBytes_ran bs (parseByte b s)).latch h
        change (parseBytes bs (parseByte b s)).latch = false at hl
        rw [hl] at this
        cases this
    have hpb : ∀ q, parseBytes bs ((parseByte b s).setQueue q) = (parseBytes (b :: bs) s).setQueue q := fun q => by
      rw [← interrupted_keep, ← interrupted_keep, parseBytes_interrupted]
      rfl
    have hpar : (parseByte b s).par = s.par := by rw [hr1.eq]
    obtain ⟨q, g1, g2, g3⟩ := ih (s := (parseByte b s).setQueue q1)
      (by rw [State.setQueue_par, hpar]; exact hk)
      ((heldBytes_congr (s := s.setQueue q1) (t := (parseByte b s).setQueue q1) rfl hpar).trans hr) (by rw [hpb]; exact hl)
    refine ⟨q, ?_, ?_, ?_⟩
    · simp only [List.length_cons, List.replicate_succ, execAll, hm]
      rw [hc, reportErrors_clear (by exact hl1), g1, hpb]
      rfl
    · rw [State.setQueue_par, hpar] at g2
      exact g2
    · exact (heldBytes_congr (s := ((parseByte b s).setQueue q1).setQueue q) (t := s.setQueue q) rfl hpar.symm).trans g3

/-- A short frame but for its last byte, from an idle parser (R112 to R114, R118). -/
theorem parseBytes_sixBytes {s : State} (hp : parserIdle s) {ty : PacketType} (ht : isShort ty) (b0 b1 b2 : Byte) :
    parseBytes [Config.magic0, Config.magic1, typeCode ty, b0, b1, b2] s = s.setParser
      { state := .crc32, buf := Memory.writeAll s.p.buf 0 [Config.magic0, Config.magic1, typeCode ty, b0, b1, b2],
        idx := 6, boundary := 3, type := ty } := by
  rw [parseBytes_magic hp]
  simp only [parseBytes]
  rw [parseByte_short rfl (by simp) ht]
  simp only [State.setParser_p, State.setParser_setParser]
  rw [parseByte_trailer_at (by omega) (by omega), parseByte_trailer_at (by omega) (by omega),
    parseByte_trailer_at (by omega) (by omega)]
  rfl

end Sys2Proof.Machine
end

