-- ==== Sys2Proof/Laws/PerInstr.lean ====
section
/-! SUPPORT. Statements made per instruction. WireLength: the bytes each row takes on the wire (R71, R77, R78). -/

namespace Sys2Proof.Laws.WireLength

open Sys2Proof.Machine

/-- The length R71, R77 and R78 give a row in bytes, for one value of PAYLOAD_STUB_LEN: 7 for a short frame,
`7 + PAYLOAD_STUB_LEN` for a received and 11 for a transmitted RESPONSE frame, 3 where the parser stops at the
type byte, 0 for an operation. -/
def expected (l : StubLen) (i : Instr) : Nat :=
  match i with
  | .rxError _ | .rxPing _ | .rxPong _ | .rxRequest _ => 7
  | .rxRequestContinuousStart _ | .rxRequestContinuousStop _ => 7
  | .rxResponse _ _ => 7 + stubBytes l
  | .rxInvalid | .rxUnassigned _ => 3
  | .txError | .txPing | .txPong | .txRequest => 7
  | .txResponse _ => 11
  | .push _ | .pop | .isEmpty | .isFull | .enqueue _ => 0
  | .serialize _ _ _ | .parseByte _ | .dispatch _ | .parserReset | .framingError => 0
  | .send _ | .sendByte _ | .sendPong | .sendTemperature | .sendError | .mainIter => 0

/-- A well-formed row's encoding has the length the rules give it. -/
def Statement (i : Instr) : Prop :=
  ∀ P : Params, wellFormed P i = true → (encode P i).length = expected P.stubLen i

theorem rxError (crc : Word) : Statement (.rxError crc) := fun _ _ => rfl
theorem rxPing (crc : Word) : Statement (.rxPing crc) := fun _ _ => rfl
theorem rxPong (crc : Word) : Statement (.rxPong crc) := fun _ _ => rfl
theorem rxRequest (crc : Word) : Statement (.rxRequest crc) := fun _ _ => rfl
theorem rxRequestContinuousStart (crc : Word) : Statement (.rxRequestContinuousStart crc) := fun _ _ => rfl
theorem rxRequestContinuousStop (crc : Word) : Statement (.rxRequestContinuousStop crc) := fun _ _ => rfl
theorem rxResponse (stub : Option Byte) (crc : Word) : Statement (.rxResponse stub crc) := by
  intro P h
  simp only [wellFormed, stubMatches] at h
  simp only [encode, expected, List.length_append, length_header, length_le32Bytes]
  split at h <;> rename_i hl <;> rw [hl] <;> cases stub <;> first | rfl | cases h
theorem rxInvalid : Statement .rxInvalid := fun _ _ => rfl
theorem rxUnassigned (t : Byte) : Statement (.rxUnassigned t) := fun _ _ => rfl
theorem txError : Statement .txError := fun _ _ => rfl
theorem txPing : Statement .txPing := fun _ _ => rfl
theorem txPong : Statement .txPong := fun _ _ => rfl
theorem txRequest : Statement .txRequest := fun _ _ => rfl
theorem txResponse (w : Word) : Statement (.txResponse w) := fun _ _ => rfl
theorem push (b : Byte) : Statement (.push b) := fun _ _ => rfl
theorem pop : Statement .pop := fun _ _ => rfl
theorem isEmpty : Statement .isEmpty := fun _ _ => rfl
theorem isFull : Statement .isFull := fun _ _ => rfl
theorem enqueue (b : Byte) : Statement (.enqueue b) := fun _ _ => rfl
theorem serialize (pkt : Packet) (buf : Buffer) (cap : Nat) : Statement (.serialize pkt buf cap) := fun _ _ => rfl
theorem parseByte (b : Byte) : Statement (.parseByte b) := fun _ _ => rfl
theorem dispatch (t : PacketType) : Statement (.dispatch t) := fun _ _ => rfl
theorem parserReset : Statement .parserReset := fun _ _ => rfl
theorem framingError : Statement .framingError := fun _ _ => rfl
theorem send (pkt : Packet) : Statement (.send pkt) := fun _ _ => rfl
theorem sendByte (b : Byte) : Statement (.sendByte b) := fun _ _ => rfl
theorem sendPong : Statement .sendPong := fun _ _ => rfl
theorem sendTemperature : Statement .sendTemperature := fun _ _ => rfl
theorem sendError : Statement .sendError := fun _ _ => rfl
theorem mainIter : Statement .mainIter := fun _ _ => rfl

end Sys2Proof.Laws.WireLength
end

