-- ==== Sys2Proof/Laws/Run.lean ====
section
/-! SUPPORT. Runs of the main context's atomic steps with an empty schedule, up to a whole SEND; and that no
operation looks at the control point. -/

namespace Sys2Proof.Machine

/-! ### The control point is looked at by the main context's step only -/

theorem pollOnce_setCtl (c : Ctl) (t0 : Nat) (s : State) :
    pollOnce t0 (s.setCtl c) = ((pollOnce t0 s).1, (pollOnce t0 s).2.setCtl c) := by
  have he : (s.setCtl c).env = s.env := rfl
  unfold pollOnce
  rw [he]
  split
  · rfl
  · rfl
  · unfold abstractWait
    rw [he]
    simp only
    split <;> rfl

theorem pollLoop_setCtl (c : Ctl) (t0 k : Nat) (s : State) :
    pollLoop t0 k (s.setCtl c) = ((pollLoop t0 k s).1, (pollLoop t0 k s).2.setCtl c) := by
  induction k generalizing s with
  | zero => rfl
  | succ k ih =>
    unfold pollLoop
    rw [pollOnce_setCtl]
    rcases pollOnce t0 s with ⟨r, t⟩
    cases r <;> simp only [ih]

theorem sendByte_setCtl (c : Ctl) (b : Byte) (s : State) :
    sendByte b (s.setCtl c) = ((sendByte b s).1, (sendByte b s).2.setCtl c) :=
  pollLoop_setCtl c (s.emitTx b).readTick.1 ((s.emitTx b).readTick.2.env.ready.length + 1) (s.emitTx b).readTick.2

theorem sendBytes_setCtl (c : Ctl) (bs : List Byte) (s : State) :
    sendBytes bs (s.setCtl c) = ((sendBytes bs s).1, (sendBytes bs s).2.setCtl c) := by
  induction bs generalizing s with
  | nil => rfl
  | cons b bs ih =>
    unfold sendBytes
    rw [sendByte_setCtl]
    rcases sendByte b s with ⟨ok, t⟩
    cases ok <;> simp only [ih]

theorem loadFrame_setCtl (c : Ctl) (pkt : Packet) (s : State) :
    loadFrame pkt (s.setCtl c) = ((loadFrame pkt s).1, (loadFrame pkt s).2.setCtl c) := by
  unfold loadFrame serialize
  rw [show (s.setCtl c).par = s.par from rfl]
  by_cases h : s.par.serCap < packetSize pkt
  · simp only [if_pos h, bufferSpace]
    rw [State.writeBytes_eq, State.writeBytes_eq]
    rfl
  · simp only [if_neg h, bufferSpace]
    simp only [State.writeBytes_eq]
    rfl

theorem sendPacket_setCtl (c : Ctl) (pkt : Packet) (s : State) :
    sendPacket pkt (s.setCtl c) = ((sendPacket pkt s).1, (sendPacket pkt s).2.setCtl c) := by
  unfold sendPacket
  rw [loadFrame_setCtl]
  rcases loadFrame pkt s with ⟨n, t⟩
  cases n with
  | none => rfl
  | some n => exact sendBytes_setCtl c _ t

theorem readTemp_setCtl (c : Ctl) (s : State) :
    (s.setCtl c).readTemp = (s.readTemp.1, s.readTemp.2.setCtl c) := by
  unfold State.readTemp
  rw [show (s.setCtl c).env = s.env from rfl]
  split <;> rfl

theorem parseStep_setCtl (c : Ctl) (b : Byte) (s : State) :
    parseStep b (s.setCtl c) = ((parseStep b s).1.setCtl c, (parseStep b s).2) := by
  have hs : storeByte b (s.setCtl c) = (storeByte b s).setCtl c := rfl
  have hp : (s.setCtl c).p = s.p := rfl
  unfold parseStep
  rw [hs, hp]
  split
  · rfl
  · generalize storeByte b s = t
    unfold handleByte
    split
    · unfold inFirstMagic
      split <;> rfl
    · unfold inSecondMagic
      split <;> rfl
    · unfold inPacketType
      rw [show (t.setCtl c).par = t.par from rfl]
      split
      · rfl
      · split <;> rfl
      · rfl
    · rfl
    · unfold inCrc32
      rw [show (t.setCtl c).p = t.p from rfl]
      split
      · unfold completeFrame
        rw [show receivedChecksum (t.setCtl c) = receivedChecksum t from rfl,
          show computedChecksum (t.setCtl c) = computedChecksum t from rfl, show (t.setCtl c).p = t.p from rfl]
        split
        · simp only [State.raise_eq]
          rfl
        · split
          · rfl
          · simp only [State.raise_eq]
            rfl
      · rfl

/-! ### Runs -/

theorem run_add {k j : Nat} {s t : State} (h : core.run k s = .next t) : core.run (k + j) s = core.run j t := by
  induction k generalizing s with
  | zero =>
    simp only [Host.Core.run] at h
    cases h
    rw [Nat.zero_add]
  | succ k ih =>
    rw [show k + 1 + j = (k + j) + 1 by omega]
    simp only [Host.Core.run] at h ⊢
    split at h
    · exact ih h
    · cases h
    · cases h

/-- With an empty schedule a step is the main context's (R61). -/
theorem run_one {s t : State} (hs : s.env.sched = []) (h : mainStep s = .next t) : core.run 1 s = .next t := by
  have hst : step s = .next t := by
    simp only [step, fetch, hs]
    exact h
  simp only [Host.Core.run]
  rw [show core.step s = step s from rfl, hst]

theorem run_cons {s t : State} {k : Nat} {o : Host.Outcome State Fault Refusal} (hs : s.env.sched = [])
    (h : mainStep s = .next t) (hr : core.run k t = o) : core.run (1 + k) s = o := by
  rw [run_add (run_one hs h), hr]

/-- The polls of one wait, run as steps, decide as the loop of R144 does. -/
theorem run_poll {o : Sender} {n i t0 k : Nat} {s : State} (hs : s.env.sched = []) (hc : s.ctl = .poll o n i t0)
    (hk : s.env.ready.length < k) :
    ∃ j, core.run j s = .next ((pollLoop t0 k s).2.setCtl (if (pollLoop t0 k s).1 = true
      then (if i + 1 < n + Config.crcLen then .emit o n (i + 1) else .endSend o true) else .endSend o false)) := by
  induction k generalizing s with
  | zero => omega
  | succ k ih =>
    have hm : mainStep s = .next ((pollOnce t0 s).2.setCtl (afterPoll o n i t0 (pollOnce t0 s).1)) := by
      simp only [mainStep, hc]
    unfold pollLoop
    split <;> rename_i t ht
    · rw [ht] at hm
      exact ⟨1, (run_one hs hm).trans (by simp [afterPoll])⟩
    · rw [ht] at hm
      exact ⟨1, (run_one hs hm).trans (by simp [afterPoll])⟩
    · rw [ht] at hm
      obtain ⟨r, hr, hr'⟩ := pollOnce_again ht
      have hw := (pollOnce_waited t0 s).1
      rw [ht] at hw
      change t = _ at hw
      have he : t.setCtl (afterPoll o n i t0 .again) = t := by
        change t.setCtl (.poll o n i t0) = t
        have hct : t.ctl = .poll o n i t0 := by
          rw [← hc, hw]
          rfl
        rw [← hct]
        rfl
      simp only at hm
      rw [he] at hm
      obtain ⟨j, hj⟩ := ih (s := t) (by rw [hw]; exact hs) (by rw [hw]; exact hc) (by
        rw [hr']
        rw [hr] at hk
        simp at hk
        omega)
      exact ⟨1 + j, run_cons hs hm hj⟩

/-- The bytes from `i` on of a loaded frame, run as steps, are stage 3 of SEND (R143). -/
theorem run_emit {o : Sender} {n m i : Nat} {s : State} (hm : i + m = n + 4) (h0 : 0 < m) (hs : s.env.sched = [])
    (hc : s.ctl = .emit o n i) :
    ∃ j, core.run j s = .next ((sendBytes (s.readBytes .txbuf i m) s).2.setCtl
      (.endSend o (sendBytes (s.readBytes .txbuf i m) s).1)) := by
  induction m generalizing i s with
  | zero => omega
  | succ m ih =>
    have hcons : s.readBytes .txbuf i (m + 1) = s.readByte .txbuf i :: s.readBytes .txbuf (i + 1) m := by
      rw [Nat.add_comm m 1, State.readBytes_append]
      rfl
    rw [hcons]
    let s1 := (s.emitTx (s.readByte .txbuf i)).readTick.2
    let t0 := (s.emitTx (s.readByte .txbuf i)).readTick.1
    have hm1 : mainStep s = .next (s1.setCtl (.poll o n i t0)) := by
      simp only [mainStep, hc]
      rfl
    obtain ⟨j, hj⟩ := run_poll (o := o) (n := n) (i := i) (t0 := t0) (k := s1.env.ready.length + 1)
      (s := s1.setCtl (.poll o n i t0)) hs rfl (Nat.lt_succ_self _)
    rw [pollLoop_setCtl] at hj
    have hsb : sendByte (s.readByte .txbuf i) s = pollLoop t0 (s1.env.ready.length + 1) s1 := rfl
    rw [← hsb] at hj
    have hw := sendByte_waited (s.readByte .txbuf i) s
    simp only [State.setCtl_setCtl] at hj
    unfold sendBytes
    rcases hr : sendByte (s.readByte .txbuf i) s with ⟨ok, t⟩
    rw [hr] at hj hw
    change Waited (s.emitTx _) t at hw
    cases ok
    · refine ⟨1 + j, run_cons hs hm1 ?_⟩
      rw [hj]
      simp
    · simp only [if_true] at hj
      have hts : t.env.sched = [] := by
        rw [hw.1]
        exact hs
      have htb : t.tbuf = s.tbuf := by
        rw [hw.1]
        rfl
      cases m with
      | zero =>
        refine ⟨1 + j, run_cons hs hm1 ?_⟩
        rw [hj, if_neg (by simp only [Config.crcLen]; omega)]
        rfl
      | succ m =>
        rw [if_pos (by simp only [Config.crcLen]; omega)] at hj
        obtain ⟨j', hj'⟩ := ih (i := i + 1) (s := t.setCtl (.emit o n (i + 1))) (by omega) (by omega) hts rfl
        refine ⟨1 + (j + j'), run_cons hs hm1 ?_⟩
        rw [run_add hj, hj']
        have hrb : (t.setCtl (.emit o n (i + 1))).readBytes .txbuf (i + 1) (m + 1) =
            s.readBytes .txbuf (i + 1) (m + 1) := State.readBytes_congr (sp := .txbuf) htb _ _
        rw [hrb]
        simp only [sendBytes_setCtl, State.setCtl_setCtl]

/-- A SEND, run as steps (R140 to R143). -/
theorem run_send {o : Sender} {pkt : Packet} {s : State} (hs : s.env.sched = []) (hc : s.ctl = .startSend o pkt) :
    ∃ j, core.run j s = .next ((sendPacket pkt s).2.setCtl (.endSend o (sendPacket pkt s).1)) := by
  have hm : mainStep s = .next ((loadFrame pkt s).2.setCtl (afterLoad o (loadFrame pkt s).1)) := by
    simp only [mainStep, hc]
  have ho := loadFrame_onlyTransmitted pkt s
  unfold sendPacket
  rcases hl : loadFrame pkt s with ⟨n, t⟩
  rw [hl] at ho hm
  change OnlyTransmitted s t at ho
  cases n with
  | none => exact ⟨1, run_one hs hm⟩
  | some n =>
    have hts : t.env.sched = [] := by
      rw [ho]
      exact hs
    obtain ⟨j, hj⟩ := run_emit (o := o) (n := n) (m := n + 4) (i := 0) (s := t.setCtl (.emit o n 0)) (by omega)
      (by omega) hts rfl
    refine ⟨1 + j, run_cons hs hm (hj.trans ?_)⟩
    rw [sendBytes_setCtl, State.setCtl_setCtl]
    rfl

end Sys2Proof.Machine
end

