-- ==== Sys2Proof/Laws/Wait.lean ====
section
/-! SUPPORT. The deadline of SEND_BYTE (R144) as plain arithmetic, and how long an abandoned wait took. -/

namespace Sys2Proof.Machine

/-- Wrapping subtraction of ticks is subtraction of clocks modulo the width (R68 (g)). -/
theorem tickDiff_clocks {w now t0 : Nat} (h : t0 ≤ now) :
    tickDiff w (tickOf w now) (tickOf w t0) = (now - t0) % 2 ^ w := by
  unfold tickDiff tickOf
  have hpos := Nat.two_pow_pos w
  generalize 2 ^ w = m at *
  rw [Nat.mod_mod]
  have hlt := Nat.mod_lt t0 hpos
  obtain ⟨d, rfl⟩ := Nat.exists_eq_add_of_le h
  rw [Nat.add_sub_cancel_left]
  show (t0 + d) % m + m - t0 % m ≡ d [MOD m]
  apply Nat.ModEq.add_right_cancel' (t0 % m)
  rw [Nat.sub_add_cancel (by omega)]
  have h1 : (t0 + d) % m + m ≡ t0 + d [MOD m] := by simp [Nat.ModEq]
  have h2 : d + t0 % m ≡ t0 + d [MOD m] := by simp [Nat.ModEq, Nat.add_comm]
  exact h1.trans h2.symm

/-- The deadline over the clock: more than 100 ms since the tick `t0` was read. -/
theorem deadlineElapsed_int {w now t0 : Nat} (ht : t0 < 2 ^ w) :
    deadlineElapsed w (tickOf w now) t0 = decide (100 < ((now : Int) - (t0 : Int)) % (2 ^ w : Nat)) := by
  unfold deadlineElapsed tickDiff tickOf
  rw [Nat.mod_eq_of_lt ht]
  have hp := Nat.two_pow_pos w
  have hc : (((now % 2 ^ w + 2 ^ w - t0) % 2 ^ w : Nat) : Int) = ((now : Int) - (t0 : Int)) % (2 ^ w : Nat) := by
    rw [Int.natCast_emod, Int.natCast_sub (by omega)]
    push_cast
    rw [show ((now : Int) % 2 ^ w + 2 ^ w - t0) = ((now : Int) % 2 ^ w - t0) + 2 ^ w by ring, Int.add_emod_right,
      Int.emod_sub_emod]
  congr 1
  simp only [Config.txTimeoutMs]
  rw [← hc]
  apply propext
  omega

/-- A wait that began at clock `n0` and fails ends more than 100 ms later (R144, R145). -/
theorem pollLoop_false {t0 k n0 : Nat} {s u : State} (h0 : t0 = tickOf s.par.tickWidth n0) (hn : n0 ≤ s.env.now)
    (hk : s.env.ready.length < k) (h : pollLoop t0 k s = (false, u)) : n0 + 100 < u.env.now := by
  induction k generalizing s with
  | zero => omega
  | succ k ih =>
    unfold pollLoop at h
    split at h
    · cases h
    · rename_i v hp
      cases h
      unfold pollOnce at hp
      split at hp
      · cases hp
      · simp only [Prod.mk.injEq, ite_eq_left_iff] at hp
        obtain ⟨hp, rfl⟩ := hp
        have hd := not_not.mp fun hd => absurd (hp hd) (by decide)
        simp only [State.readTick, State.setEnv_env, State.setEnv_par, State.nextAdvance] at hd ⊢
        generalize hN : s.env.now + _ = N at hd ⊢
        have hle : n0 ≤ N := by omega
        unfold deadlineElapsed at hd
        rw [h0, tickDiff_clocks hle] at hd
        have hd := of_decide_eq_true hd
        have := Nat.mod_le (N - n0) (2 ^ s.par.tickWidth)
        simp only [Config.txTimeoutMs] at hd
        show n0 + 100 < N
        omega
      · simp only [abstractWait] at hp
        split at hp
        · cases hp
        · cases hp
          simp only [State.setEnv_env, Config.txTimeoutMs]
          omega
    · rename_i v hp
      obtain ⟨r, hr, hr'⟩ := pollOnce_again hp
      have hw := pollOnce_waited t0 s
      rw [hp] at hw
      change Waited s v at hw
      obtain ⟨hw, hn'⟩ := hw
      refine ih (s := v) ?_ (le_trans hn hn') ?_ h
      · rw [hw]
        exact h0
      · rw [hr']
        rw [hr] at hk
        simp at hk
        omega

end Sys2Proof.Machine
end

