-- ==== Sys2Proof/Tests/Slice0.lean ====
section
/-! SUPPORT. Tests whose expected results are the ones spec/ writes out (95_test_vectors.md and the rules cited), and
for every statement with hypotheses a witness that meets all of them. -/

namespace Sys2Proof.Tests

open Sys2Proof.Machine

/-! ### Small states -/

/-- A machine with a queue of `n` slots, the checksum `crcT`, twelve polls that find the flag set, ticks that do
not advance, and one temperature. -/
def small (n : Nat) : State :=
  { State.reset with
    par := { capacity := n, stubLen := .one, serCap := 12, tickWidth := 32, checksum := .sum }
    env := { Env.reset with
      ready := List.replicate 12 true, dt := List.replicate 14 0, temps := [0x41C80000#32] } }

/-- The same with PAYLOAD_STUB_LEN = 0. -/
def noStub (n : Nat) : State := { small n with par := { (small n).par with stubLen := .zero } }

/-- The same with the bytes `bs` in the queue, from slot 0 on. -/
def holding (n : Nat) (bs : List Byte) : State :=
  { small n with q :=
    { buf := (List.range bs.length).zip bs, startIdx := 0, endIdx := bs.length % n, empty := bs.isEmpty } }

/-- The same with the parser in the middle of a frame whose first bytes are `bs`. -/
def parsing (st : ParserState) (bs : List Byte) (bd : Nat) (t : PacketType) : State :=
  { small 4 with p :=
    { state := st, buf := (List.range bs.length).zip bs, idx := bs.length, boundary := bd, type := t } }

/-- The same at a control point, with the schedule `es`. -/
def scheduled (c : Ctl) (es : List Event) : State := ((small 4).setSched es).setCtl c

/-- Whether an operation gave a next state that passes a check. -/
def after (o : Host.Outcome State Fault Refusal) (check : State → Bool) : Bool :=
  match o with
  | .next t => check t
  | .fault _ | .refused _ => false

/-- FRAME(PING) under `crcT` (95_test_vectors.md section 0). -/
def pingFrame : List Byte := [0xAA#8, 0x55#8, 0x02#8, 0x01#8, 0x01#8, 0x00#8, 0x00#8]

/-! ### WellFormed refuses an ill-formed term of each check -/

theorem test_wf_unassigned : wellFormed (small 4).par (.rxUnassigned 7) = false := by decide
theorem test_wf_stub_missing : wellFormed (small 4).par (.rxResponse none 0) = false := by decide
theorem test_wf_stub_extra : wellFormed (noStub 4).par (.rxResponse (some 0) 0) = false := by decide
theorem test_wf_dispatch : wellFormed (small 4).par (.dispatch .invalid) = false := by decide

/-- A direct call runs whatever its operands are (log 22): a capacity beyond the buffer is enough for the body. -/
theorem test_step_serialize_wideCapacity :
    after (step (scheduled .iterStart [.call (.serialize .ping .txbuf 17)])) (fun t =>
      t.ret == .size (some 3) && t.readBytes .txbuf 0 3 == [0xAA#8, 0x55#8, 0x02#8]) = true := by decide

/-! ### Decoding: bytes written out from the encodings of R71, R74, R78 -/

theorem test_decode_error :
    decode .one [0b10101010#8, 0b01010101#8, 0b00000001#8, 0x23#8, 0x98#8, 0x65#8, 0x9B#8] =
      .ok (.rxError 0x9B659823#32, []) := by decide
theorem test_decode_ping :
    decode .one [0b10101010#8, 0b01010101#8, 0b00000010#8, 0x99#8, 0xC9#8, 0x6C#8, 0x02#8] =
      .ok (.rxPing 0x026CC999#32, []) := by decide
theorem test_decode_pong :
    decode .one [0b10101010#8, 0b01010101#8, 0b00000011#8, 0x0F#8, 0xF9#8, 0x6B#8, 0x75#8, 0xAA#8] =
      .ok (.rxPong 0x756BF90F#32, [0xAA#8]) := by decide
theorem test_decode_request :
    decode .one [0b10101010#8, 0b01010101#8, 0b00000100#8, 0xAC#8, 0x6C#8, 0x0F#8, 0xEB#8] =
      .ok (.rxRequest 0xEB0F6CAC#32, []) := by decide
theorem test_decode_continuousStart :
    decode .one [0b10101010#8, 0b01010101#8, 0b00000101#8, 0x3A#8, 0x5C#8, 0x08#8, 0x9C#8] =
      .ok (.rxRequestContinuousStart 0x9C085C3A#32, []) := by decide
theorem test_decode_continuousStop :
    decode .one [0b10101010#8, 0b01010101#8, 0b00000110#8, 0x80#8, 0x0D#8, 0x01#8, 0x05#8] =
      .ok (.rxRequestContinuousStop 0x05010D80#32, []) := by decide
theorem test_decode_response :
    decode .one [0b10101010#8, 0b01010101#8, 0b00000111#8, 0x00#8, 0xE1#8, 0x5C#8, 0xA4#8, 0x26#8] =
      .ok (.rxResponse (some 0) 0x26A45CE1#32, []) := by decide
theorem test_decode_response_noStub :
    decode .zero [0b10101010#8, 0b01010101#8, 0b00000111#8, 0x16#8, 0x3D#8, 0x06#8, 0x72#8] =
      .ok (.rxResponse none 0x72063D16#32, []) := by decide
theorem test_decode_invalid :
    decode .one [0b10101010#8, 0b01010101#8, 0b00000000#8] = .ok (.rxInvalid, []) := by decide
theorem test_decode_unassigned :
    decode .one [0b10101010#8, 0b01010101#8, 0b00001000#8] = .ok (.rxUnassigned 8, []) := by decide
theorem test_decode_badMagic : decode .one [0x55#8, 0xAA#8, 0x02#8] = .error .badMagic0 := by decide
theorem test_decode_truncated : decode .one [0xAA#8, 0x55#8, 0x02#8, 0x00#8] = .error .truncated := by decide
theorem test_word_ping : decodeTableWord 56 0x026CC9990255AA = some (.rxPing 0x026CC999#32) := by decide
theorem test_word_runs :
    after (step ((small 4).withFetchWord 56 0x000001010255AA)) (fun t =>
      t.env.tx == [0xAA#8, 0x55#8, 0x03#8, 0x02#8, 0x01#8, 0x00#8, 0x00#8] && t.latch == false) = true := by decide

/-! ### Encoding: the frames of 95_test_vectors.md section 0 -/

/-- The parameters under the stand-in `crcZ`. -/
def zlib : Params := { (small 4).par with checksum := .zlib }

theorem test_encode_error :
    encode zlib .txError = [0xAA#8, 0x55#8, 0x01#8, 0x23#8, 0x98#8, 0x65#8, 0x9B#8] := by decide +kernel
theorem test_encode_ping :
    encode zlib .txPing = [0xAA#8, 0x55#8, 0x02#8, 0x99#8, 0xC9#8, 0x6C#8, 0x02#8] := by decide +kernel
theorem test_encode_pong :
    encode zlib .txPong = [0xAA#8, 0x55#8, 0x03#8, 0x0F#8, 0xF9#8, 0x6B#8, 0x75#8] := by decide +kernel
theorem test_encode_request :
    encode zlib .txRequest = [0xAA#8, 0x55#8, 0x04#8, 0xAC#8, 0x6C#8, 0x0F#8, 0xEB#8] := by decide +kernel
theorem test_encode_response :
    encode zlib (.txResponse 0x42120000#32) =
      [0xAA#8, 0x55#8, 0x07#8, 0x00#8, 0x00#8, 0x12#8, 0x42#8, 0x65#8, 0x46#8, 0xF2#8, 0x70#8] := by decide +kernel

/-! ### The byte queue: V-S1 to V-S3, V-Q1, V-Q2, V-Q4, V-Q5 -/

theorem test_push_fills : after (exec (.push 0x44) (holding 4 [0x11, 0x22, 0x33])) (fun t =>
    t.q == { buf := [(0, 0x11), (1, 0x22), (2, 0x33), (3, 0x44)], startIdx := 0, endIdx := 0, empty := false } &&
      t.ret == .bool true) = true := by decide
theorem test_push_full : after (exec (.push 0x55) (holding 4 [0x11, 0x22, 0x33, 0x44])) (fun t =>
    t.q == (holding 4 [0x11, 0x22, 0x33, 0x44]).q && t.ret == .bool false) = true := by decide
theorem test_pop_full : after (exec .pop (holding 4 [0x11, 0x22, 0x33, 0x44])) (fun t =>
    t.q.startIdx == 1 && t.q.endIdx == 0 && !t.q.empty && t.ret == .byte (some 0x11)) = true := by decide
theorem test_pop_last : after (exec .pop (holding 1 [0xAA])) (fun t =>
    t.q.startIdx == 0 && t.q.empty && t.ret == .byte (some 0xAA)) = true := by decide
theorem test_isEmpty_partly : after (exec .isEmpty (holding 2 [0x01])) (fun t => t.ret == .bool false) = true := by
  decide
theorem test_isFull_partly : after (exec .isFull (holding 2 [0x01])) (fun t => t.ret == .bool false) = true := by
  decide
theorem test_isFull_full : after (exec .isFull (holding 2 [0x01, 0x02])) (fun t => t.ret == .bool true) = true := by
  decide
theorem test_enqueue_overflow : after (exec (.enqueue 0x02) (holding 2 [0xAA, 0x55])) (fun t =>
    t.q == (holding 2 [0xAA, 0x55]).q && t.latch && t.env.tx == []) = true := by decide

/-! ### SERIALIZE: V-Z6, V-Z9, V-Z11 -/

theorem test_serialize_fits : after (exec (.serialize (.responseTemp 0xBFC00000#32) .caller 7) (small 4)) (fun t =>
    t.ret == .size (some 7) &&
      t.readBytes .caller 0 7 == [0xAA#8, 0x55#8, 0x07#8, 0x00#8, 0x00#8, 0xC0#8, 0xBF#8]) = true := by decide
theorem test_serialize_none : after (exec (.serialize .ping .caller 0) (small 4)) (fun t =>
    t.ret == .size none && t.env.caller == []) = true := by decide

/-! ### The parser: V-PB1, V-PB2, V-PB6 to V-PB9, V-PB12, V-PB14, V-PB16 to V-PB19 -/

theorem test_parse_magic0 : after (exec (.parseByte 0xAA) (small 4)) (fun t =>
    t.p == { state := .secondMagic, buf := [(0, 0xAA)], idx := 1, boundary := 0, type := .invalid } &&
      !t.latch) = true := by decide
theorem test_parse_secondAA : after (exec (.parseByte 0xAA) (parsing .secondMagic [0xAA] 0 .invalid)) (fun t =>
    t.p.state == .firstMagic && t.p.idx == 0 && t.latch) = true := by decide
theorem test_parse_type : after (exec (.parseByte 0x02) (parsing .packetType [0xAA, 0x55] 0 .invalid)) (fun t =>
    t.p.state == .crc32 && t.p.idx == 3 && t.p.boundary == 3 && t.p.type == .ping && !t.latch) = true := by decide
theorem test_parse_type7 : after (exec (.parseByte 0x07) (parsing .packetType [0xAA, 0x55] 0 .invalid)) (fun t =>
    t.p.state == .payload && t.p.idx == 3 && t.p.boundary == 0 && t.p.type == .response) = true := by decide
theorem test_parse_payload : after (exec (.parseByte 0x99) (parsing .payload [0xAA, 0x55, 0x07] 0 .response))
    (fun t => t.p.state == .crc32 && t.p.idx == 4 && t.p.boundary == 4 && t.readByte .rxbuf 3 == 0x99) = true := by
  decide
theorem test_parse_magicInTrailer : after (exec (.parseByte 0x02)
    (parsing .crc32 [0xAA, 0x55, 0x02, 0xAA, 0x55] 3 .ping)) (fun t =>
      t.p.state == .crc32 && t.p.idx == 6 && !t.latch) = true := by decide
theorem test_parse_lastByteIsHigh : after (exec (.parseByte 0x01)
    (parsing .crc32 [0xAA, 0x55, 0x02, 0x01, 0x01, 0x00] 3 .ping)) (fun t =>
      t.p.state == .firstMagic && t.p.idx == 0 && t.latch && t.env.tx == []) = true := by decide
theorem test_parse_exhausted : after (exec (.parseByte 0xAA)
    { small 4 with p := { (small 4).p with state := .crc32, idx := 16 } }) (fun t =>
      t.p.state == .firstMagic && t.p.idx == 0 && t.latch && t.p.buf == []) = true := by decide
theorem test_dispatch_pong : after (exec (.dispatch .pong) (small 4)) (fun t => t.latch && t.env.tx == []) = true := by
  decide
theorem test_dispatch_ping : after (exec (.dispatch .ping) (small 4)) (fun t =>
    !t.latch && t.env.tx == [0xAA#8, 0x55#8, 0x03#8, 0x02#8, 0x01#8, 0x00#8, 0x00#8]) = true := by decide
theorem test_parserReset : after (exec .parserReset (parsing .crc32 [0xAA, 0x55, 0x02] 3 .ping)) (fun t =>
    t.p.state == .firstMagic && t.p.idx == 0 && t.p.boundary == 3 && t.p.type == .ping && !t.latch) = true := by decide
theorem test_framingError : after (exec .framingError (parsing .crc32 [0xAA, 0x55, 0x02] 3 .ping)) (fun t =>
    t.p.state == .firstMagic && t.p.idx == 0 && t.latch) = true := by decide

/-! ### Whole received frames: V-DP1 to V-DP7, V-DP0, V-PB20 -/

theorem test_rxError : after (exec (.rxError 0x00000100#32) (small 4)) (fun t =>
    t.latch && t.p.type == .error && t.env.tx == []) = true := by decide
theorem test_rxPing : after (exec (.rxPing 0x00000101#32) (small 4)) (fun t =>
    !t.latch && t.env.tx == [0xAA#8, 0x55#8, 0x03#8, 0x02#8, 0x01#8, 0x00#8, 0x00#8]) = true := by decide
theorem test_rxPing_mismatch : after (exec (.rxPing 0#32) (small 4)) (fun t => t.latch && t.env.tx == []) = true := by
  decide
theorem test_rxPong : after (exec (.rxPong 0x00000102#32) (small 4)) (fun t => t.latch && t.env.tx == []) = true := by
  decide
theorem test_rxRequest : after (exec (.rxRequest 0x00000103#32) (small 4)) (fun t =>
    !t.latch && t.env.temps == [] && t.env.tx ==
      [0xAA#8, 0x55#8, 0x07#8, 0x00#8, 0x00#8, 0xC8#8, 0x41#8, 0x0F#8, 0x02#8, 0x00#8, 0x00#8]) = true := by decide
theorem test_rxContinuousStart : after (exec (.rxRequestContinuousStart 0x00000104#32) (small 4)) (fun t =>
    t.latch && t.env.tx == []) = true := by decide
theorem test_rxContinuousStop : after (exec (.rxRequestContinuousStop 0x00000105#32) (small 4)) (fun t =>
    t.latch && t.env.tx == []) = true := by decide
theorem test_rxResponse : after (exec (.rxResponse (some 0) 0x00000106#32) (small 4)) (fun t =>
    t.latch && t.p.boundary == 4 && t.p.type == .response && t.env.tx == []) = true := by decide
theorem test_rxResponse_noStub : after (exec (.rxResponse none 0x00000106#32) (noStub 4)) (fun t =>
    t.latch && t.p.boundary == 3 && t.p.type == .response && t.env.tx == []) = true := by decide
theorem test_rxInvalid : after (exec .rxInvalid (small 4)) (fun t =>
    t.latch && t.p.state == .firstMagic && t.p.boundary == 0) = true := by decide
theorem test_rxUnassigned : after (exec (.rxUnassigned 0xAA) (small 4)) (fun t =>
    t.latch && t.p.state == .firstMagic && t.p.idx == 0) = true := by decide

/-! ### The transmit assembler: V-T1 to V-T4, V-T8 to V-T15 -/

theorem test_deadline_100 : deadlineElapsed 32 1100 1000 = false := by decide
theorem test_deadline_101 : deadlineElapsed 32 1101 1000 = true := by decide
theorem test_deadline_wrap_100 : deadlineElapsed 32 0x54 0xFFFFFFF0 = false := by decide
theorem test_deadline_wrap_101 : deadlineElapsed 32 0x55 0xFFFFFFF0 = true := by decide

/-- The wait of byte `k` finds the flag clear and the tick 101 ms on; every other poll finds it set. -/
def stallAt (k : Nat) : State :=
  { small 4 with env := { (small 4).env with
    ready := List.replicate k true ++ false :: List.replicate 12 true
    dt := List.replicate (k + 1) 0 ++ 101 :: List.replicate 12 0 } }

theorem test_send_pong : after (exec (.send .pong) (small 4)) (fun t =>
    t.ret == .bool true && t.env.tx == [0xAA#8, 0x55#8, 0x03#8, 0x02#8, 0x01#8, 0x00#8, 0x00#8]) = true := by decide
theorem test_send_timeout_first : after (exec (.send .pong) (stallAt 0)) (fun t =>
    t.ret == .bool false && t.env.tx == [0xAA#8] && !t.latch) = true := by decide
theorem test_sendByte : after (exec (.sendByte 0x99) (small 4)) (fun t =>
    t.ret == .bool true && t.env.tx == [0x99#8]) = true := by decide
theorem test_sendPong_timeout : after (exec .sendPong (stallAt 2)) (fun t =>
    t.latch && t.env.tx == [0xAA#8, 0x55#8, 0x03#8]) = true := by decide
theorem test_sendTemperature : after (exec .sendTemperature (small 4)) (fun t =>
    !t.latch && t.env.tx ==
      [0xAA#8, 0x55#8, 0x07#8, 0x00#8, 0x00#8, 0xC8#8, 0x41#8, 0x0F#8, 0x02#8, 0x00#8, 0x00#8]) = true := by decide
theorem test_sendError_timeout : after (exec .sendError (stallAt 3)) (fun t =>
    !t.latch && t.env.tx == [0xAA#8, 0x55#8, 0x01#8, 0x00#8]) = true := by decide
theorem test_txError : after (exec .txError (small 4)) (fun t =>
    t.env.tx == [0xAA#8, 0x55#8, 0x01#8, 0x00#8, 0x01#8, 0x00#8, 0x00#8]) = true := by decide
theorem test_txPing : after (exec .txPing (small 4)) (fun t => t.env.tx == pingFrame) = true := by decide
theorem test_txPong : after (exec .txPong (small 4)) (fun t =>
    t.env.tx == [0xAA#8, 0x55#8, 0x03#8, 0x02#8, 0x01#8, 0x00#8, 0x00#8]) = true := by decide
theorem test_txRequest : after (exec .txRequest (small 4)) (fun t =>
    t.env.tx == [0xAA#8, 0x55#8, 0x04#8, 0x03#8, 0x01#8, 0x00#8, 0x00#8]) = true := by decide
theorem test_txResponse : after (exec (.txResponse 0x42120000#32) (small 4)) (fun t =>
    t.env.tx ==
      [0xAA#8, 0x55#8, 0x07#8, 0x00#8, 0x00#8, 0x12#8, 0x42#8, 0x5A#8, 0x01#8, 0x00#8, 0x00#8]) = true := by decide

/-! ### The main loop: V-M1, V-M2, the first iteration of P5, and an arrival inside an iteration -/

theorem test_mainIter_idle : exec .mainIter (small 4) = .next (small 4) := rfl
theorem test_mainIter_overflowReport : after (exec .mainIter ((holding 2 [0xAA, 0x55]).setLatch true)) (fun t =>
    t.p.state == .secondMagic && t.q.startIdx == 1 && !t.latch &&
      t.env.tx == [0xAA#8, 0x55#8, 0x01#8, 0x00#8, 0x01#8, 0x00#8, 0x00#8]) = true := by decide
theorem test_step_rx_mid_iteration : after (step (scheduled (.parse 0xAA) [.rx 0x02])) (fun t =>
    t.ctl == .parse 0xAA && heldBytes t == [0x02#8]) = true := by decide
theorem test_step_main : after (step (scheduled (.parse 0xAA) [.main])) (fun t =>
    t.ctl == .report && t.p.state == .secondMagic) = true := by decide

/-! ### Witnesses: for every statement with hypotheses, a state and operands that meet all of them, one for each
clause, at the boundary values -/

/-- The invariant of a state between two iterations: the queue, the parser and the spaces by evaluation. -/
theorem inv_of {s : State} (hc : s.ctl = .iterStart) (h1 : 1 ≤ s.par.capacity) (h2 : queueOk s.par.capacity s.q)
    (h3 : s.p.state = .firstMagic) (h4 : s.p.idx = 0)
    (h5 : Memory.wf s.q.buf ∧ Memory.wf s.p.buf ∧ Memory.wf s.tbuf ∧ Memory.wf s.env.caller)
    (h6 : (∀ c ∈ s.q.buf, c.1 < s.par.capacity) ∧ (∀ c ∈ s.p.buf, c.1 < 8) ∧ ∀ c ∈ s.tbuf, c.1 < 11) : s.Inv := by
  refine ⟨h1, h2, fun _ => ?_, fun h => ?_, ?_, h5.1, h5.2.1, h5.2.2.1, h5.2.2.2, h6.1, h6.2.1, h6.2.2⟩
  · unfold parserBetweenBytes
    rw [h3]
    exact h4
  · rw [hc] at h
    cases h
  · unfold sendOk
    rw [hc]
    trivial

theorem small_inv : (small 4).Inv :=
  inv_of rfl (by decide) (by decide) rfl rfl (by decide) (by decide)

/-- A queue of eight slots that holds a short frame. -/
theorem holding_inv : (holding 8 pingFrame).Inv :=
  inv_of rfl (by decide) (by decide) rfl rfl (by decide) (by decide)

theorem witness_DecodeOfEncodeIsTheFrame :
    (isReceived (.rxResponse (some 0xFF) 0) = true ∧ wellFormed (small 4).par (.rxResponse (some 0xFF) 0) = true) ∧
    (isReceived (.rxResponse none 0) = true ∧ wellFormed (noStub 4).par (.rxResponse none 0) = true) ∧
    (isReceived (.rxUnassigned 8) = true ∧ wellFormed (small 4).par (.rxUnassigned 8) = true) := by decide
theorem witness_DecodedBytesAreTheEncoding :
    decode (small 4).par.stubLen (pingFrame ++ [0xAA]) = .ok (.rxPing 0x101#32, [0xAA]) := by decide
theorem witness_TransmittedFramesDecode : ∀ w, Packet.pong ≠ .responseTemp w := by simp
theorem witness_StepRunsWhatIsFetched :
    ((scheduled .iterStart [.wire pingFrame]).ctl = .iterStart ∧
      decode (scheduled .iterStart [.wire pingFrame]).par.stubLen pingFrame = .ok (.rxPing 0x101#32, [])) ∧
    (scheduled (.endSend .report true) [.rx 0xAA]).env.sched = [.rx 0xAA] ∧
    ((scheduled .iterStart [.call .pop]).ctl = .iterStart ∧
      (scheduled .iterStart [.call .pop]).env.sched = [.call .pop]) ∧
    ((scheduled .iterStart [.wire [0xAB]]).ctl = .iterStart ∧
      decode (scheduled .iterStart [.wire [0xAB]]).par.stubLen [0xAB] = .error .badMagic0) ∧
    (scheduled .iterStart [.wire []]).env.sched = [.wire []] ∧
    ((scheduled .report [.call .pop]).ctl ≠ .iterStart ∧
      (scheduled .report [.call .pop]).env.sched = [.call .pop]) ∧
    ((scheduled .report [.wire [0xAA]]).ctl ≠ .iterStart ∧
      (scheduled .report [.wire [0xAA]]).env.sched = [.wire [0xAA]]) ∧
    (scheduled .report []).env.sched = [] ∧ (scheduled .report [.main]).env.sched = [.main] := by decide
theorem witness_EveryInstructionCompletes : queueOk (holding 4 [1, 2, 3, 4]).par.capacity (holding 4 [1, 2, 3, 4]).q := by
  decide
theorem witness_PushStoresOrDrops :
    (queueOk 4 (holding 4 [1, 2, 3]).q ∧ queueFull (holding 4 [1, 2, 3]).q = false) ∧
    queueFull (holding 4 [1, 2, 3, 4]).q = true := by decide
theorem witness_PopTakesTheOldest :
    (queueOk 4 (holding 4 [1]).q ∧ (holding 4 [1]).q.empty = false) ∧ (holding 4 []).q.empty = true := by decide
theorem witness_ObserversTellTheCount : queueOk 1 (holding 1 [0xAA]).q ∧ queueOk 1 (holding 1 []).q := by decide
theorem witness_EnqueueAppendsOrRaises :
    (queueOk 4 (holding 4 [1, 2, 3]).q ∧ Memory.wf (holding 4 [1, 2, 3]).q.buf ∧
      queueCount 4 (holding 4 [1, 2, 3]).q < 4) ∧
    (queueOk 4 (holding 4 [1, 2, 3, 4]).q ∧ Memory.wf (holding 4 [1, 2, 3, 4]).q.buf ∧
      queueCount 4 (holding 4 [1, 2, 3, 4]).q = 4) := by decide
theorem witness_QueueIsFifo : queueOk 4 (holding 4 [1, 2]).q ∧ Memory.wf (holding 4 [1, 2]).q.buf := by decide
theorem witness_FifoRoundTrip :
    queueOk (small 4).par.capacity (small 4).q ∧ Memory.wf (small 4).q.buf ∧ (small 4).q.empty = true ∧
      [0x11#8, 0x22#8, 0x33#8, 0x44#8].length ≤ (small 4).par.capacity := by decide
theorem witness_QueueOpsKeepTheInvariant :
    queueOk 4 (holding 4 [1, 2, 3]).q ∧
    after (exec (.push 0x44) (holding 4 [1, 2, 3])) (fun _ => true) = true ∧
    after (exec (.enqueue 0x44) (holding 4 [1, 2, 3])) (fun _ => true) = true ∧
    after (exec .pop (holding 4 [1, 2, 3])) (fun _ => true) = true := by decide
theorem witness_SerializeWritesTheBody :
    packetSize (.responseTemp 0) ≤ 7 ∧ Memory.wf ((small 4).mem (bufferSpace .txbuf)) := by decide
theorem witness_SerializeFailureIsContained :
    6 < packetSize (.responseTemp 0) ∧ Memory.wf ((small 4).mem (bufferSpace .caller)) := by decide
theorem witness_SendEmitsTheFrame :
    (canSend .pong (small 4) ∧ readyFor (packetSize .pong + 4) (small 4)) ∧
    (canSend (.responseTemp 1) (small 4) ∧ readyFor (packetSize (.responseTemp 1) + 4) (small 4)) := by decide
theorem witness_SendTraceIsABeginningOfTheFrame :
    Memory.wf (small 4).tbuf ∧ packetSize (.responseTemp 0) ≤ (small 4).par.serCap ∧
    { small 4 with par := { (small 4).par with serCap := 6 } }.par.serCap < packetSize (.responseTemp 0) := by decide
theorem witness_TimedOutSendEmitsKPlusOneBytes :
    (canSend .pong (stallAt 0) ∧ (stallAt 0).env.ready = List.replicate 0 true ++ false :: List.replicate 12 true ∧
      (stallAt 0).env.dt = [0] ++ 101 :: List.replicate 12 0 ∧ 100 < 101 % 2 ^ (stallAt 0).par.tickWidth) ∧
    (6 < packetSize .pong + 4 ∧
      (stallAt 6).env.ready = List.replicate 6 true ++ false :: List.replicate 12 true ∧
      (stallAt 6).env.dt = List.replicate 7 0 ++ 101 :: List.replicate 12 0) := by decide
theorem witness_OnePollOfTheWait :
    (scheduled (.poll .handler 3 6 0) []).env.sched = [] ∧ (0 < 2 ^ (small 4).par.tickWidth) ∧
    (∃ r, (scheduled (.poll .handler 3 6 0) []).env.ready = true :: r) ∧
    (∃ r, (stallAt 0).env.ready = false :: r) ∧ (∃ ds, (stallAt 0).env.dt = 0 :: ds) :=
  ⟨rfl, by decide, ⟨_, rfl⟩, ⟨_, rfl⟩, ⟨_, rfl⟩⟩
theorem witness_SendByteEmitsAndWaits : (small 4).env.ready.head? = some true := by decide
theorem witness_SendPongRaisesOnFailure :
    after (exec (.send .pong) (small 4)) (fun u => u.ret == .bool true) = true ∧
    after (exec (.send .pong) (stallAt 6)) (fun u => u.ret == .bool false) = true := by decide
theorem witness_SendTemperatureReadsOnceAndRaisesOnFailure :
    ((small 4).env.temps = [0x41C80000#32] ∧
      after (exec (.send (.responseTemp (small 4).readTemp.1)) (small 4).readTemp.2)
        (fun u => u.ret == .bool true) = true) ∧
    after (exec (.send (.responseTemp (stallAt 6).readTemp.1)) (stallAt 6).readTemp.2)
      (fun u => u.ret == .bool false) = true ∧
    (small 4).readTemp.2.env.temps = [] := by decide
theorem witness_SendErrorDiscardsFailure : canSend .error (small 4) ∧ readyFor 7 (small 4) := by decide
theorem witness_HandlersSendWholeFramesUnderReady :
    (canSend .pong (small 4) ∧ readyFor 7 (small 4)) ∧
    (canSend (.responseTemp (small 4).readTemp.1) (small 4) ∧ readyFor 11 (small 4)) ∧
    canSend (.responseTemp (small 4).readTemp.2.readTemp.1) (small 4).readTemp.2 ∧
    readyFor 11 (small 4).readTemp.2 := by decide
theorem witness_MagicStates :
    ((small 4).p.state = .firstMagic ∧ (small 4).p.idx < 16) ∧
    ((parsing .secondMagic [0xAA] 0 .invalid).p.state = .secondMagic ∧
      (parsing .secondMagic [0xAA] 0 .invalid).p.idx < 16) ∧ 0xAA#8 ≠ 0x55#8 := by decide
theorem witness_PacketTypeState :
    (parsing .packetType [0xAA, 0x55] 0 .invalid).p.state = .packetType ∧
    (parsing .packetType [0xAA, 0x55] 0 .invalid).p.idx < 16 ∧
    (1 ≤ (1#8).toNat ∧ (1#8).toNat ≤ 6) ∧ (1 ≤ (6#8).toNat ∧ (6#8).toNat ≤ 6) ∧
    ((7#8).toNat = 7 ∧ (small 4).par.stubLen = .one) ∧ ((7#8).toNat = 7 ∧ (noStub 4).par.stubLen = .zero) ∧
    (0#8).toNat = 0 ∧ 8 ≤ (8#8).toNat ∧ 8 ≤ (255#8).toNat := by decide
theorem witness_PayloadAndTrailerBytesAreData :
    ((parsing .payload [0xAA, 0x55, 0x07] 0 .response).p.state = .payload ∧
      (parsing .payload [0xAA, 0x55, 0x07] 0 .response).p.idx < 16) ∧
    ((parsing .crc32 [0xAA, 0x55, 0x02] 3 .ping).p.state = .crc32 ∧
      3 ≤ (parsing .crc32 [0xAA, 0x55, 0x02] 3 .ping).p.idx ∧
      (parsing .crc32 [0xAA, 0x55, 0x02, 0x01, 0x01] 3 .ping).p.idx < 3 + 3) := by decide
theorem witness_FrameCompletion :
    ((parsing .crc32 [0xAA, 0x55, 0x02, 0x01, 0x01, 0x00] 3 .ping).p.idx = 3 + 3 ∧
      Memory.wf (parsing .crc32 [0xAA, 0x55, 0x02, 0x01, 0x01, 0x00] 3 .ping).p.buf) ∧
    ofLE32 1 1 0 0 = checksumOf .sum ((parsing .crc32 [0xAA, 0x55, 0x02, 0x01, 0x01, 0x00] 3 .ping).readBytes .rxbuf 0 3) ∧
    ofLE32 1 1 0 1 ≠ checksumOf .sum
      ((parsing .crc32 [0xAA, 0x55, 0x02, 0x01, 0x01, 0x00] 3 .ping).readBytes .rxbuf 0 3) := by decide
theorem witness_ExhaustedBufferDropsTheByte :
    16 ≤ { small 4 with p := { (small 4).p with idx := 16 } }.p.idx := by decide
theorem witness_ParseByteFrame :
    Memory.wf (parsing .packetType [0xAA, 0x55] 0 .invalid).p.buf ∧ Memory.wf (small 4).tbuf ∧
    after (exec (.parseByte 2) (parsing .packetType [0xAA, 0x55] 0 .invalid)) (fun _ => true) = true ∧
    (parsing .packetType [0xAA, 0x55] 0 .invalid).p.idx < 16 := by decide
theorem witness_DispatchByType : PacketType.response ≠ .ping ∧ PacketType.response ≠ .request := by decide
theorem witness_PingIsAnsweredByPong :
    parserIdle (small 4) ∧ Memory.wf (small 4).p.buf ∧ canSend .pong (small 4) ∧ readyFor 7 (small 4) := by decide
theorem witness_RequestIsAnsweredByTheTemperature :
    parserIdle (small 4) ∧ Memory.wf (small 4).p.buf ∧
      canSend (.responseTemp (small 4).readTemp.1) (small 4) ∧ readyFor 11 (small 4) := by decide
theorem witness_AcceptedFramesDoWhatTheirSendDoes :
    (parserIdle (stallAt 6) ∧ Memory.wf (stallAt 6).p.buf) ∧
    after (exec (.send .pong) (stallAt 6)) (fun u => u.ret == .bool false) = true ∧
    after (exec (.send (.responseTemp (stallAt 6).readTemp.1)) (stallAt 6).readTemp.2)
      (fun u => u.ret == .bool false) = true := by decide
theorem witness_UnhandledFramesRaise :
    parserIdle (small 4) ∧ Memory.wf (small 4).p.buf ∧
      Instr.rxPong (shortChecksum (small 4) .pong) = .rxPong 0x102#32 := by decide
theorem witness_ReceivedResponseAlwaysRaises :
    (parserIdle (small 4) ∧ Memory.wf (small 4).p.buf ∧ wellFormed (small 4).par (.rxResponse (some 0) 0) = true) ∧
    (parserIdle (noStub 4) ∧ wellFormed (noStub 4).par (.rxResponse none 0) = true) := by decide
theorem witness_IllegalTypesRaise :
    parserIdle (small 4) ∧ wellFormed (small 4).par .rxInvalid = true ∧
      wellFormed (small 4).par (.rxUnassigned 8) = true ∧ wellFormed (small 4).par (.rxUnassigned 255) = true := by decide
theorem witness_WrongTrailerIsRejected :
    parserIdle (small 4) ∧ Memory.wf (small 4).p.buf ∧ shortFrameInstr .ping 0 = some (.rxPing 0) ∧
    (0 : Word) ≠ shortChecksum (small 4) .ping ∧ 31 < 32 ∧
    shortFrameInstr .ping (shortChecksum (small 4) .ping ^^^ BitVec.twoPow 32 31) = some (.rxPing 0x80000101#32) := by
  decide
theorem witness_GarbageThenPingIsAnswered :
    parserIdle (small 4) ∧ Memory.wf (small 4).p.buf ∧ canSend .pong (small 4) ∧ readyFor 7 (small 4) ∧
      0xAA#8 ∉ [0x00#8, 0xFF#8] := by decide
theorem witness_StrayMagicLosesTheFrame : parserIdle (small 4) ∧ Memory.wf (small 4).p.buf := by decide
theorem witness_ReceivedFrameFrame :
    isReceived (.rxRequest 0x103#32) = true ∧ wellFormed (small 4).par (.rxRequest 0x103#32) = true ∧
      parserIdle (small 4) ∧ Memory.wf (small 4).p.buf ∧ Memory.wf (small 4).tbuf := by decide
theorem witness_FrameLengthIsBounded : parserIdle (noStub 4) ∧ Memory.wf (noStub 4).p.buf := by decide
theorem witness_IdleIterationChangesNothing : (small 4).q.empty = true ∧ (small 4).latch = false := by decide
theorem witness_ErrorReportSendsOneErrorFrame :
    ((small 4).setLatch true).q.empty = true ∧ ((small 4).setLatch true).latch = true ∧
      canSend .error ((small 4).setLatch true) ∧ readyFor 7 ((small 4).setLatch true) := by decide
theorem witness_IterationParsesOneByteThenReports :
    queueOk 8 (holding 8 pingFrame).q ∧ heldBytes (holding 8 pingFrame) = 0xAA :: pingFrame.tail ∧
      after (exec .pop (holding 8 pingFrame)) (fun _ => true) = true := by decide
theorem witness_LatchIsClearAfterAnIteration :
    after (exec .mainIter ((small 4).setLatch true)) (fun _ => true) = true := by decide
theorem witness_QueuedPingIsAnsweredInSevenIterations :
    (holding 8 pingFrame).Inv ∧ parserIdle (holding 8 pingFrame) ∧ (holding 8 pingFrame).latch = false ∧
      canSend .pong (holding 8 pingFrame) ∧ readyFor 7 (holding 8 pingFrame) ∧
      heldBytes (holding 8 pingFrame) = encodeShort .ping (shortChecksum (holding 8 pingFrame) .ping) :=
  ⟨holding_inv, by decide⟩

/-- FRAME(PONG) under `crcT` in the queue. -/
def heldPong : State := holding 8 [0xAA, 0x55, 0x03, 0x02, 0x01, 0x00, 0x00]

theorem witness_QueuedBadFrameIsAnsweredByOneError :
    heldPong.Inv ∧ parserIdle heldPong ∧ heldPong.latch = false ∧ canSend .error heldPong ∧ readyFor 7 heldPong ∧
      (PacketType.pong ≠ .ping ∧ PacketType.pong ≠ .request) ∧
      (0x100#32 ≠ shortChecksum heldPong .ping) ∧ heldBytes heldPong = encodeShort .pong 0x102#32 :=
  ⟨inv_of rfl (by decide) (by decide) rfl rfl (by decide) (by decide), by decide⟩
theorem witness_AtomicStepsMakeAnIteration :
    (holding 8 pingFrame).ctl = .iterStart ∧ (holding 8 pingFrame).env.sched = [] ∧
      after (exec .mainIter (holding 8 pingFrame)) (fun _ => true) = true := by decide
theorem witness_EnqueueCommutesWithMainSteps :
    (scheduled (.parse 0xAA) []).ctl ≠ .iterStart ∧ (scheduled (.parse 0xAA) []).ctl ≠ .report ∧
      after (exec (.enqueue 1) (scheduled (.parse 0xAA) [])) (fun _ => true) = true ∧
      after (mainStep (scheduled (.parse 0xAA) [])) (fun _ => true) = true := by decide
theorem witness_InterruptContextFrame :
    (scheduled .report [.rx 1]).env.sched = [.rx 1] ∧
      after (step (scheduled .report [.rx 1])) (fun _ => true) = true := by decide
theorem witness_LatchIsClearedOnlyByTheReport :
    after (step ((scheduled .report [.main]).setLatch true)) (fun t => !t.latch) = true ∧
      ((scheduled .report [.main]).setLatch true).latch = true := by decide
theorem witness_OnlyQueueOperationsChangeTheQueue :
    Instr.isFull ≠ .pop ∧ Instr.isFull ≠ .mainIter ∧ (∀ b, Instr.isFull ≠ .push b) ∧ (∀ b, Instr.isFull ≠ .enqueue b) ∧
      after (exec .isFull (small 4)) (fun _ => true) = true :=
  ⟨by decide, by decide, by simp, by simp, by decide⟩
theorem witness_TraceGrowsAndClockIsMonotone :
    after (step (scheduled (.startSend .report .error) [.main])) (fun _ => true) = true := by decide
theorem witness_EveryStepKeepsTheInvariant :
    (holding 8 pingFrame).Inv ∧ after (step (holding 8 pingFrame)) (fun _ => true) = true :=
  ⟨holding_inv, by decide⟩
theorem witness_TheBlockNeverStops :
    (small 4).Inv := small_inv

end Sys2Proof.Tests
end

section
/-! PROOFS. The transmit trace, the millisecond clock and the parameters along a step (O55). -/

namespace Sys2Proof.Machine

/-- From `s` to `t` the transmit trace is at most extended (R8), the clock does not go back (R179), and the
parameters are the same (R5). -/
structure Advances (s t : State) : Prop where
  tx : s.env.tx <+: t.env.tx
  now : s.env.now ≤ t.env.now
  par : t.par = s.par

theorem Advances.of_same {s t : State} (htx : t.env.tx = s.env.tx) (hnow : t.env.now = s.env.now)
    (hpar : t.par = s.par) : Advances s t :=
  ⟨htx ▸ List.prefix_rfl, Nat.le_of_eq hnow.symm, hpar⟩

theorem Advances.refl (s : State) : Advances s s := .of_same rfl rfl rfl

theorem Advances.trans {s t u : State} (h : Advances s t) (h' : Advances t u) : Advances s u :=
  ⟨h.tx.trans h'.tx, h.now.trans h'.now, h'.par.trans h.par⟩

/-! ### What neither transmits nor waits -/

theorem setSched_advances (s : State) (es : List Event) : Advances s (s.setSched es) := .of_same rfl rfl rfl
theorem setQueue_advances (s : State) (q : Queue) : Advances s (s.setQueue q) := .of_same rfl rfl rfl
theorem setLatch_advances (s : State) (v : Bool) : Advances s (s.setLatch v) := .of_same rfl rfl rfl
theorem setCtl_advances (s : State) (c : Ctl) : Advances s (s.setCtl c) := .of_same rfl rfl rfl
theorem setRet_advances (s : State) (r : Ret) : Advances s (s.setRet r) := .of_same rfl rfl rfl
theorem resetParser_advances (s : State) : Advances s s.resetParser := .of_same rfl rfl rfl

theorem setCaller_advances (s : State) (m : Memory) : Advances s (s.setEnv { s.env with caller := m }) :=
  .of_same rfl rfl rfl

theorem pushQueue_advances {b : Byte} {s t : State} {ok : Bool} (h : pushQueue b s = some (ok, t)) :
    Advances s t := by
  rcases pushQueue_cases h with ⟨-, -, rfl⟩ | ⟨-, -, -, rfl⟩
  · exact Advances.refl _
  · exact setQueue_advances s _

theorem popQueue_advances {s t : State} {v : Option Byte} (h : popQueue s = some (v, t)) : Advances s t := by
  rcases popQueue_cases h with ⟨-, -, rfl⟩ | ⟨-, -, -, rfl⟩
  · exact Advances.refl _
  · exact setQueue_advances s _

/-! ### What runs the parser or transmits -/

theorem OnlyRan.advances {s t : State} (h : OnlyRan s t) : Advances s t :=
  ⟨h.tx, h.now, by rw [h.eq]⟩

theorem reportErrors_advances (s : State) : Advances s (reportErrors s) :=
  (setLatch_advances s false).trans (reportErrors_ran s).1.advances

theorem finishSend_advances (o : Sender) (ok : Bool) (s : State) : Advances s (finishSend o ok s) := by
  cases o with
  | handler =>
    exact (raiseUnlessSent_ran (ok, s)).advances.trans ((resetParser_advances _).trans (setCtl_advances _ _))
  | report => exact setCtl_advances s _

theorem reportStep_advances (s : State) : Advances s (reportStep s) := by
  unfold reportStep testAndClear
  cases s.latch <;> exact (setLatch_advances s false).trans (setCtl_advances _ _)

/-! ### Instructions, the main context, the step -/

theorem exec_usesQueue_advances {i : Instr} {s t : State} (hq : usesQueue i = true) (h : exec i s = .next t) :
    Advances s t := by
  cases i with
  | push b =>
    simp only [exec, execPush] at h
    split at h
    next hp => exact Host.Outcome.next.inj h ▸ (pushQueue_advances hp).trans (setRet_advances _ _)
    next => cases h
  | pop =>
    simp only [exec, execPop] at h
    split at h
    next hp => exact Host.Outcome.next.inj h ▸ (popQueue_advances hp).trans (setRet_advances _ _)
    next => cases h
  | enqueue b =>
    rcases exec_enqueue_cases h with ⟨-, rfl⟩ | ⟨-, -, rfl⟩
    · exact setLatch_advances s true
    · exact setQueue_advances s _
  | mainIter =>
    obtain ⟨v, u, hp, rfl⟩ := exec_mainIter_cases h
    exact (popQueue_advances hp).trans ((parsePopped_ran v u).advances.trans (reportErrors_advances _))
  | _ => cases hq

theorem exec_advances {i : Instr} {s t : State} (h : exec i s = .next t) : Advances s t := by
  cases hq : usesQueue i with
  | true => exact exec_usesQueue_advances hq h
  | false =>
    obtain ⟨u, m, r, hr, -, rfl⟩ := exec_ran hq h
    exact hr.advances.trans ((setCaller_advances u m).trans (setRet_advances _ r))

/-- An operation that advances and then moves the control point advances. -/
theorem Advances.moved {s t u : State} {c : Ctl} (hu : Advances s u)
    (h : (.next (u.setCtl c) : Host.Outcome State Fault Refusal) = .next t) : Advances s t :=
  Host.Outcome.next.inj h ▸ hu.trans (setCtl_advances u c)

theorem mainStep_advances {s t : State} (h : mainStep s = .next t) : Advances s t := by
  unfold mainStep at h
  split at h
  case h_1 =>
    split at h
    next hp => exact (popQueue_advances hp).moved h
    next => cases h
  case h_2 b _ => exact (parseStep_onlyParsed b s).ran.advances.moved h
  case h_3 => exact (readTemp_ran s).advances.moved h
  case h_4 pkt _ => exact (loadFrame_ran pkt s).advances.moved h
  case h_5 => exact ((emitAll_ran s [_]).trans (readTick_waited _).ran).advances.moved h
  case h_6 => exact (pollOnce_waited _ s).ran.advances.moved h
  case h_7 o ok _ => exact Host.Outcome.next.inj h ▸ finishSend_advances o ok s
  case h_8 => exact Host.Outcome.next.inj h ▸ reportStep_advances s

theorem step_advances {s t : State} (h : step s = .next t) : Advances s t := by
  rcases step_cases h with ⟨i, u, es, -, rfl, hx⟩ | ⟨u, es, -, rfl, hm⟩
  · exact (setSched_advances s es).trans (exec_advances hx)
  · exact (setSched_advances s es).trans (mainStep_advances hm)

/-- Settles O55: taking the event leaves trace, clock and parameters alone, and every instruction and every
atomic step of the main context advances them. -/
theorem traceGrowsAndClockIsMonotone : Obligations.TraceGrowsAndClockIsMonotone := by
  intro s t h
  obtain ⟨htx, hnow, hpar⟩ := step_advances h
  exact ⟨htx, hnow, hpar⟩

end Sys2Proof.Machine
end

section
/-! PROOFS. What the latch, the queue and the invariant are along a step: who clears the latch (O53), who changes
the queue (O54), and that the invariant holds at reset (O56) and after every step (O57). -/

namespace Sys2Proof.Machine

/-! ### What the queue operations and the main context's step amount to -/

/-- What the instruction PUSH amounts to (R91). -/
theorem exec_push_cases {b : Byte} {s t : State} (h : exec (.push b) s = .next t) :
    ∃ ok u, pushQueue b s = some (ok, u) ∧ t = u.setRet (.bool ok) := by
  simp only [exec, execPush] at h
  split at h
  next ok u hu => exact ⟨ok, u, hu, (Host.Outcome.next.inj h).symm⟩
  next => cases h

/-- What the instruction POP amounts to (R92). -/
theorem exec_pop_cases {s t : State} (h : exec .pop s = .next t) :
    ∃ v u, popQueue s = some (v, u) ∧ t = u.setRet (.byte v) := by
  simp only [exec, execPop] at h
  split at h
  next v u hu => exact ⟨v, u, hu, (Host.Outcome.next.inj h).symm⟩
  next => cases h

theorem pushQueue_latch {b : Byte} {s t : State} {ok : Bool} (h : pushQueue b s = some (ok, t)) :
    t.latch = s.latch := by
  rcases pushQueue_cases h with ⟨-, -, rfl⟩ | ⟨-, -, -, rfl⟩ <;> rfl

theorem popQueue_latch {s t : State} {v : Option Byte} (h : popQueue s = some (v, t)) : t.latch = s.latch := by
  rcases popQueue_cases h with ⟨-, -, rfl⟩ | ⟨-, -, -, rfl⟩ <;> rfl

theorem popQueue_ctl {s t : State} {v : Option Byte} (h : popQueue s = some (v, t)) : t.ctl = s.ctl := by
  rcases popQueue_cases h with ⟨-, -, rfl⟩ | ⟨-, -, -, rfl⟩ <;> rfl

/-- The atomic steps of the main context (R61), one constructor per control point. -/
inductive MainMove (s : State) : State → Prop where
  | pops {v : Option Byte} {u : State} (hc : s.ctl = .iterStart) (hp : popQueue s = some (v, u)) :
      MainMove s (u.setCtl (afterPop v))
  | parses {b : Byte} (hc : s.ctl = .parse b) :
      MainMove s ((parseStep b s).1.setCtl (afterParse (parseStep b s).2))
  | readsTemp (hc : s.ctl = .readTemp) :
      MainMove s (s.readTemp.2.setCtl (.startSend .handler (.responseTemp s.readTemp.1)))
  | loads {o : Sender} {pkt : Packet} (hc : s.ctl = .startSend o pkt) :
      MainMove s ((loadFrame pkt s).2.setCtl (afterLoad o (loadFrame pkt s).1))
  | emits {o : Sender} {n i : Nat} (hc : s.ctl = .emit o n i) :
      MainMove s ((s.emitTx (s.readByte .txbuf i)).readTick.2.setCtl
        (.poll o n i (s.emitTx (s.readByte .txbuf i)).readTick.1))
  | polls {o : Sender} {n i t0 : Nat} (hc : s.ctl = .poll o n i t0) :
      MainMove s ((pollOnce t0 s).2.setCtl (afterPoll o n i t0 (pollOnce t0 s).1))
  | finishes {o : Sender} {ok : Bool} (hc : s.ctl = .endSend o ok) : MainMove s (finishSend o ok s)
  | reports (hc : s.ctl = .report) : MainMove s (reportStep s)

theorem mainStep_move {s t : State} (h : mainStep s = .next t) : MainMove s t := by
  unfold mainStep at h
  split at h
  case h_1 hc =>
    split at h
    next hp => exact Host.Outcome.next.inj h ▸ .pops hc hp
    next => cases h
  case h_2 hc => exact Host.Outcome.next.inj h ▸ .parses hc
  case h_3 hc => exact Host.Outcome.next.inj h ▸ .readsTemp hc
  case h_4 hc => exact Host.Outcome.next.inj h ▸ .loads hc
  case h_5 hc => exact Host.Outcome.next.inj h ▸ .emits hc
  case h_6 hc => exact Host.Outcome.next.inj h ▸ .polls hc
  case h_7 hc => exact Host.Outcome.next.inj h ▸ .finishes hc
  case h_8 hc => exact Host.Outcome.next.inj h ▸ .reports hc

/-! ### The latch (R36) -/

/-- No instruction but MAIN_ITER clears the latch. -/
theorem exec_latch {i : Instr} {s t : State} (hi : i ≠ .mainIter) (h : exec i s = .next t) (hl : s.latch = true) :
    t.latch = true := by
  cases hq : usesQueue i with
  | false =>
    obtain ⟨u, m, r, hr, -, rfl⟩ := exec_ran hq h
    exact hr.latch hl
  | true =>
    cases i with
    | push b =>
      obtain ⟨ok, u, hu, rfl⟩ := exec_push_cases h
      exact (pushQueue_latch hu).trans hl
    | pop =>
      obtain ⟨v, u, hu, rfl⟩ := exec_pop_cases h
      exact (popQueue_latch hu).trans hl
    | enqueue b =>
      rcases exec_enqueue_cases h with ⟨-, rfl⟩ | ⟨-, -, rfl⟩
      · rfl
      · exact hl
    | mainIter => exact absurd rfl hi
    | _ => cases hq

/-- No atomic step of the main context but the report clears the latch. -/
theorem mainStep_latch {s t : State} (hc : s.ctl ≠ .report) (h : mainStep s = .next t) (hl : s.latch = true) :
    t.latch = true := by
  cases mainStep_move h with
  | pops _ hp => exact (popQueue_latch hp).trans hl
  | parses _ => exact (parseStep_onlyParsed _ s).ran.latch hl
  | readsTemp _ => exact (readTemp_ran s).latch hl
  | loads _ => exact (loadFrame_ran _ s).latch hl
  | emits _ => exact hl
  | polls _ => exact (pollOnce_waited _ s).ran.latch hl
  | @finishes o ok _ =>
    cases o with
    | handler => exact (raiseUnlessSent_ran (ok, s)).latch hl
    | report => exact hl
  | reports hr => exact absurd hr hc

/-- Settles O53: every other step keeps a set latch set. -/
theorem latchIsClearedOnlyByTheReport : Obligations.LatchIsClearedOnlyByTheReport := by
  intro s t h hl ht
  rcases step_cases h with ⟨i, u, es, hf, rfl, hx⟩ | ⟨u, es, hf, rfl, hm⟩
  · by_cases hi : i = .mainIter
    · exact .inr ⟨_, hi ▸ hf⟩
    · rw [exec_latch hi hx hl] at ht
      cases ht
  · by_cases hc : s.ctl = .report
    · exact .inl ⟨_, hf, hc⟩
    · rw [mainStep_latch (s := s.setSched es) hc hm hl] at ht
      cases ht

/-! ### The queue (R27) -/

theorem exec_keeps_queue {i : Instr} {s t : State} (hq : usesQueue i = false) (h : exec i s = .next t) :
    t.q = s.q := by
  obtain ⟨u, m, r, hr, -, rfl⟩ := exec_ran hq h
  show u.q = s.q
  rw [hr.eq]

/-- Settles O54: the four instructions named are the ones that use the queue. -/
theorem onlyQueueOperationsChangeTheQueue : Obligations.OnlyQueueOperationsChangeTheQueue := by
  intro i s t hpush hpop henq hiter h
  refine exec_keeps_queue ?_ h
  cases i with
  | push b => exact absurd rfl (hpush b)
  | pop => exact absurd rfl hpop
  | enqueue b => exact absurd rfl (henq b)
  | mainIter => exact absurd rfl hiter
  | _ => rfl

/-! ### The parser along an instruction (R32, R129) -/

/-- Transmitting, replying and waiting leave the parser alone. -/
theorem OnlyReplied.parser {s t : State} (h : OnlyReplied s t) : t.p = s.p := by rw [h.1]

theorem OnlyTransmitted.parser {s t : State} (h : OnlyTransmitted s t) : t.p = s.p := h.replied.parser

theorem Waited.parser {s t : State} (h : Waited s t) : t.p = s.p := h.onlyTransmitted.parser

theorem serialize_parser (pkt : Packet) (buf : Buffer) (cap : Nat) (s : State) :
    (serialize pkt buf cap s).2.p = s.p := by
  unfold serialize
  split <;> simp only [State.writeBytes_eq] <;> cases buf <;> rfl

/-- What an instruction that does not use the queue does to the parser: it parses bytes, or resets the parser, or
leaves it alone. -/
theorem exec_parser_cases {i : Instr} {s t : State} (hq : usesQueue i = false) (h : exec i s = .next t) :
    (∃ bs, t = parseBytes bs s) ∨ t.p = s.resetParser.p ∨ t.p = s.p := by
  cases i with
  | push | pop | enqueue | mainIter => cases hq
  | rxError | rxPing | rxPong | rxRequest | rxRequestContinuousStart | rxRequestContinuousStop | rxResponse
  | rxInvalid | rxUnassigned => exact .inl ⟨_, (Host.Outcome.next.inj h).symm⟩
  | parseByte b => exact .inl ⟨[b], (Host.Outcome.next.inj h).symm⟩
  | parserReset | framingError => exact .inr (.inl (Host.Outcome.next.inj h ▸ rfl))
  | isEmpty | isFull => exact .inr (.inr (Host.Outcome.next.inj h ▸ rfl))
  | txError | txPing | txPong | txRequest | txResponse | send | sendError =>
    exact .inr (.inr (Host.Outcome.next.inj h ▸ (sendPacket_onlyTransmitted _ s).parser))
  | serialize => exact .inr (.inr (Host.Outcome.next.inj h ▸ serialize_parser _ _ _ s))
  | dispatch => exact .inr (.inr (Host.Outcome.next.inj h ▸ (dispatchType_replied _ s).parser))
  | sendByte => exact .inr (.inr (Host.Outcome.next.inj h ▸ (sendByte_waited _ s).parser))
  | sendPong => exact .inr (.inr (Host.Outcome.next.inj h ▸ (sendPong_replied s).parser))
  | sendTemperature => exact .inr (.inr (Host.Outcome.next.inj h ▸ (sendTemperature_replied s).parser))

/-- `t`'s parser stands between bytes, and RXBUF was written below 8 only since `s`. -/
def BetweenAfter (s t : State) : Prop := parserBetweenBytes t ∧ WrittenBelow 8 s.p.buf t.p.buf

theorem BetweenAfter.of_parser {s t : State} (h : parserBetweenBytes s) (hp : t.p = s.p) (hl : t.par = s.par) :
    BetweenAfter s t :=
  ⟨parserBetween_congr hp hl h, hp ▸ WrittenBelow.refl _ _⟩

/-- A reset parser waits for a first magic byte, whatever RXBUF holds (R128). -/
theorem BetweenAfter.of_reset {s t : State} (hp : t.p = s.resetParser.p) : BetweenAfter s t := by
  unfold BetweenAfter parserBetweenBytes
  rw [hp]
  exact ⟨rfl, WrittenBelow.refl _ _⟩

theorem exec_between {i : Instr} {s t : State} (hq : usesQueue i = false) (h : exec i s = .next t)
    (hb : parserBetweenBytes s) : BetweenAfter s t := by
  rcases exec_parser_cases hq h with ⟨bs, rfl⟩ | hp | hp
  · exact parseBytes_between hb bs
  · exact .of_reset hp
  · exact .of_parser hb hp (exec_advances h).par

/-- The parser's part of a byte writes RXBUF below 8 only, whether it ends the frame or not (R129). -/
theorem parseStep_below {s : State} (h : parserBetweenBytes s) (b : Byte) :
    WrittenBelow 8 s.p.buf (parseStep b s).1.p.buf := by
  have hi := parserBetween_idx h
  rw [parseStep_buf, if_pos (by omega)]
  exact write_below _ (by omega) b

/-! ### The invariant along an instruction -/

/-- Settles O56: every space is empty, the parser waits for a first magic byte, and no send is in progress. -/
theorem resetSatisfiesTheInvariant : Obligations.ResetSatisfiesTheInvariant where
  capacity := by decide
  queue := by decide
  parser _ := rfl
  handler h := by cases h
  send := trivial
  qmemWf := .nil
  rxbufWf := .nil
  txbufWf := .nil
  callerWf := .nil
  qmemIn _ h := by cases h
  rxbufIn _ h := by cases h
  txbufIn _ h := by cases h

/-- Between two iterations the parser is between bytes. -/
theorem State.Inv.between {s : State} (h : s.Inv) (hc : s.ctl = .iterStart) : parserBetweenBytes s :=
  h.parser (hc ▸ rfl)

/-- An operation called between two iterations keeps the invariant if it leaves the parser between bytes. -/
theorem State.Inv.ran_called {s t : State} (h : s.Inv) (hc : s.ctl = .iterStart) (hr : OnlyRan s t)
    (hb : BetweenAfter s t) : t.Inv := by
  have ht : t.ctl = .iterStart := by rw [hr.eq]; exact hc
  have hi := h.ran hr .iterStart hb.2 (fun _ => hb.1) (fun hn => by cases hn) trivial
  rwa [← ht, State.setCtl_self] at hi

theorem parsePopped_between {s : State} (h : parserBetweenBytes s) (v : Option Byte) :
    BetweenAfter s (parsePopped v s) := by
  cases v with
  | none => exact .of_parser h rfl rfl
  | some b => exact parseBytes_between h [b]

theorem reportErrors_parser (s : State) : (reportErrors s).p = s.p := by
  unfold reportErrors testAndClear
  cases s.latch with
  | false => rfl
  | true => exact (sendPacket_onlyTransmitted .error (s.setLatch false)).parser

theorem State.Inv.reported {s : State} (h : s.Inv) (hc : s.ctl = .iterStart) : (reportErrors s).Inv :=
  (h.latched false).ran_called hc (reportErrors_ran s).1
    (.of_parser ((h.latched false).between hc) (reportErrors_parser s) (reportErrors_advances s).par)

/-- MAIN_ITER pops, parses and reports, and each of the three keeps the invariant (R155). -/
theorem State.Inv.iterated {s t : State} (h : s.Inv) (hc : s.ctl = .iterStart) (hx : exec .mainIter s = .next t) :
    t.Inv := by
  obtain ⟨v, u, hp, rfl⟩ := exec_mainIter_cases hx
  have hu := h.popped hp
  have hcu : u.ctl = .iterStart := (popQueue_ctl hp).trans hc
  have hr := parsePopped_ran v u
  refine (hu.ran_called hcu hr (parsePopped_between (hu.between hcu) v)).reported ?_
  rw [hr.eq]
  exact hcu

theorem State.Inv.after_push {s t : State} {b : Byte} {ok : Bool} (h : s.Inv) (ht : pushQueue b s = some (ok, t)) :
    t.Inv := by
  rcases pushQueue_cases ht with ⟨-, -, rfl⟩ | ⟨-, -, hi, rfl⟩
  · exact h
  · exact h.pushed hi b

/-- An instruction called between two iterations keeps the invariant. -/
theorem State.Inv.called {i : Instr} {s t : State} (h : s.Inv) (hc : s.ctl = .iterStart) (hx : exec i s = .next t) :
    t.Inv := by
  cases hq : usesQueue i with
  | false =>
    obtain ⟨hb, hw⟩ := exec_between hq hx (h.between hc)
    obtain ⟨u, m, r, hr, hm, rfl⟩ := exec_ran hq hx
    exact (h.ran_called hc hr ⟨parserBetween_congr rfl rfl hb, hw⟩).delivered (hm.1 h.callerWf).1 r
  | true =>
    cases i with
    | push b =>
      obtain ⟨ok, u, hu, rfl⟩ := exec_push_cases hx
      exact (h.after_push hu).returned _
    | pop =>
      obtain ⟨v, u, hu, rfl⟩ := exec_pop_cases hx
      exact (h.popped hu).returned _
    | enqueue b => exact h.enqueued hx
    | mainIter => exact h.iterated hc hx
    | _ => cases hq

/-! ### The invariant along the main context's steps -/

/-- A move that leaves the parser alone and neither enters nor leaves a handler keeps the invariant, if the
transmit transient of the new control point is in order (R39). -/
theorem State.Inv.moved {s t : State} {c : Ctl} (h : s.Inv) (hr : OnlyRan s t) (hp : t.p = s.p)
    (hc : inHandler c = inHandler s.ctl) (hs : sendOk (t.setCtl c)) : (t.setCtl c).Inv := by
  have hpar : t.par = s.par := by rw [hr.eq]
  refine h.ran hr c (hp ▸ WrittenBelow.refl _ _) (fun hn => ?_) (fun hn => ?_) hs
  · exact parserBetween_congr hp hpar (h.parser (hc ▸ hn))
  · rw [hp]
    exact h.handler (hc ▸ hn)

/-- The POP leads to the parse of its byte, or to the report (R156). -/
theorem State.Inv.step_pops {s t : State} {v : Option Byte} (h : s.Inv) (hc : s.ctl = .iterStart)
    (hp : popQueue s = some (v, t)) : (t.setCtl (afterPop v)).Inv := by
  have ht := popQueue_ctl hp
  cases v <;> exact (h.popped hp).moved (OnlyRan.refl t) rfl (by rw [ht, hc]; rfl) trivial

/-- The parser's part ends between bytes, or at the end of a frame whose reply is due (R119). -/
theorem State.Inv.step_parses {s : State} {b : Byte} (h : s.Inv) (hc : s.ctl = .parse b) :
    ((parseStep b s).1.setCtl (afterParse (parseStep b s).2)).Inv := by
  have hb : parserBetweenBytes s := h.parser (hc ▸ rfl)
  have hr := (parseStep_onlyParsed b s).ran
  have hw := parseStep_below hb b
  rcases hps : parseStep b s with ⟨t, r⟩
  rw [hps] at hr hw
  cases r with
  | none => exact h.ran hr .report hw (fun _ => parseStep_between hb hps) (fun hn => by cases hn) trivial
  | some r =>
    have hh := parserBetween_reply hb hps
    cases r <;> exact h.ran hr _ hw (fun hn => by cases hn) (fun _ => hh) trivial

theorem State.Inv.step_readsTemp {s : State} (h : s.Inv) (hc : s.ctl = .readTemp) (pkt : Packet) :
    (s.readTemp.2.setCtl (.startSend .handler pkt)).Inv :=
  h.moved (readTemp_ran s) (readTemp_replied s).parser (by rw [hc]; rfl) trivial

/-- The error report sends ERROR (R148). -/
theorem State.Inv.report_packet {s : State} {o : Sender} {pkt : Packet} (h : s.Inv) (hc : s.ctl = .startSend o pkt) :
    o = .report → pkt = .error := by
  rintro rfl
  have hs := h.send
  rwa [sendOk, hc] at hs

/-- Serialization leads to the first byte of a complete frame, or to the end of the send (R140 to R142). -/
theorem State.Inv.step_loads {s : State} {o : Sender} {pkt : Packet} (h : s.Inv) (hc : s.ctl = .startSend o pkt) :
    ((loadFrame pkt s).2.setCtl (afterLoad o (loadFrame pkt s).1)).Inv := by
  refine h.moved (loadFrame_ran pkt s) (loadFrame_onlyTransmitted pkt s).parser ?_ ?_
  · rw [hc]
    cases (loadFrame pkt s).1 <;> cases o <;> rfl
  · rcases hl : loadFrame pkt s with ⟨n, t⟩
    cases n with
    | none => trivial
    | some n =>
      exact ⟨Nat.lt_add_left n (by decide),
        frameLoaded_congr (s := t) rfl rfl (loadFrame_loaded h.txbufWf (h.report_packet hc) hl)⟩

/-- A byte of the frame is emitted, and its wait begins at a tick (R143, R144). -/
theorem State.Inv.step_emits {s : State} {o : Sender} {n i : Nat} (h : s.Inv) (hc : s.ctl = .emit o n i) (b : Byte) :
    ((s.emitTx b).readTick.2.setCtl (.poll o n i (s.emitTx b).readTick.1)).Inv := by
  have hs := h.send
  rw [sendOk, hc] at hs
  obtain ⟨hi, hl⟩ := hs
  refine h.moved ((emitAll_ran s [b]).trans (readTick_waited _).ran) rfl ?_
    ⟨hi, readTick_lt (s.emitTx b), frameLoaded_congr rfl rfl hl⟩
  rw [hc]
  cases o <;> rfl

/-- A poll leads to the next byte of the frame, to the same wait, or to the end of the send (R143, R144). -/
theorem State.Inv.step_polls {s : State} {o : Sender} {n i t0 : Nat} (h : s.Inv) (hc : s.ctl = .poll o n i t0) :
    ((pollOnce t0 s).2.setCtl (afterPoll o n i t0 (pollOnce t0 s).1)).Inv := by
  have hs := h.send
  rw [sendOk, hc] at hs
  obtain ⟨hi, ht0, hl⟩ := hs
  have hw := pollOnce_waited t0 s
  rcases hp : pollOnce t0 s with ⟨r, t⟩
  rw [hp] at hw
  change Waited s t at hw
  have hpar : t.par = s.par := by rw [hw.1]; rfl
  have hload : ∀ c, frameLoaded o n (t.setCtl c) := fun _ =>
    frameLoaded_congr (by rw [State.setCtl_tbuf, hw.1]; rfl) hpar hl
  refine h.moved hw.ran hw.parser ?_ ?_
  · rw [hc]
    unfold afterPoll
    split
    · split <;> cases o <;> rfl
    · cases o <;> rfl
    · rfl
  · unfold afterPoll
    split
    · split
      next hlt => exact ⟨hlt, hload _⟩
      next => trivial
    · trivial
    · exact ⟨hi, by rw [State.setCtl_par, hpar]; exact ht0, hload _⟩

/-- The handler's caller resets the parser (R119); the report leaves it alone (R148). -/
theorem State.Inv.step_finishes {s : State} {o : Sender} {ok : Bool} (h : s.Inv) (hc : s.ctl = .endSend o ok) :
    (finishSend o ok s).Inv := by
  cases o with
  | handler =>
    have hp : (raiseUnlessSent (ok, s)).p = s.p := (raiseUnlessSent_replied (ok, s)).parser
    have hr : OnlyRan s (raiseUnlessSent (ok, s)).resetParser :=
      (raiseUnlessSent_ran (ok, s)).trans (setParser_onlyParsed _ _).ran
    obtain ⟨hb, hw⟩ : BetweenAfter s (raiseUnlessSent (ok, s)).resetParser :=
      .of_reset (by rw [State.resetParser_p, hp]; rfl)
    exact h.ran hr .report hw (fun _ => hb) (fun hn => by cases hn) trivial
  | report => exact h.moved (OnlyRan.refl s) rfl (by rw [hc]; rfl) trivial

theorem State.Inv.step_reports {s : State} (h : s.Inv) (hc : s.ctl = .report) : (reportStep s).Inv := by
  have hm : ∀ c, inHandler c = false → sendOk ((s.setLatch false).setCtl c) → ((s.setLatch false).setCtl c).Inv :=
    fun c hn hs => (h.latched false).moved (OnlyRan.refl _) rfl (by rw [State.setLatch_ctl, hc, hn]; rfl) hs
  unfold reportStep testAndClear
  cases s.latch with
  | true => exact hm _ rfl rfl
  | false => exact hm _ rfl trivial

/-- Every atomic step of the main context keeps the invariant. -/
theorem State.Inv.after_mainStep {s t : State} (h : s.Inv) (hm : mainStep s = .next t) : t.Inv := by
  cases mainStep_move hm with
  | pops hc hp => exact h.step_pops hc hp
  | parses hc => exact h.step_parses hc
  | readsTemp hc => exact h.step_readsTemp hc _
  | loads hc => exact h.step_loads hc
  | emits hc => exact h.step_emits hc _
  | polls hc => exact h.step_polls hc
  | finishes hc => exact h.step_finishes hc
  | reports hc => exact h.step_reports hc

/-- Settles O57: an instruction runs between two iterations or is the interrupt's ENQUEUE, which may cut in
anywhere; every other step is the main context's. -/
theorem everyStepKeepsTheInvariant : Obligations.EveryStepKeepsTheInvariant := by
  intro s t h hst
  rcases step_cases hst with ⟨i, u, es, hf, rfl, hx⟩ | ⟨u, es, -, rfl, hm⟩
  · rcases fetch_instr hf with ⟨b, rfl⟩ | hc
    · exact (h.sched es).enqueued hx
    · exact (h.sched es).called hc hx
  · exact (h.sched es).after_mainStep hm

end Sys2Proof.Machine
end

section
/-! PROOFS. What a step runs (O6), and the main context's atomic steps: an ENQUEUE commutes with them (O51), and
together they make an iteration (O50). -/

namespace Sys2Proof.Machine

/-! ### What is fetched (R60, R64, R172) -/

theorem step_of_instr {s u : State} {i : Instr} (h : fetch s = .instr i u) : step s = exec i u := by
  simp only [step, h]

theorem step_of_main {s u : State} (h : fetch s = .main u) : step s = mainStep u := by
  simp only [step, h]

theorem fetch_nothing {s : State} (hs : s.env.sched = []) : fetch s = .main s := by
  simp only [fetch, hs]

theorem fetch_main {s : State} {es : List Event} (hs : s.env.sched = .main :: es) :
    fetch s = .main (s.setSched es) := by
  simp only [fetch, hs]

/-- The receive interrupt runs at any control point (R60, R172). -/
theorem fetch_rx {s : State} {b : Byte} {es : List Event} (hs : s.env.sched = .rx b :: es) :
    fetch s = .instr (.enqueue b) (s.setSched es) := by
  simp only [fetch, hs]

theorem fetch_call {s : State} {i : Instr} {es : List Event} (hc : s.ctl = .iterStart)
    (hs : s.env.sched = .call i :: es) : fetch s = .instr i (s.setSched es) := by
  simp only [fetch, hs, if_pos hc]

theorem fetch_wire {s : State} {bs : List Byte} {es : List Event} (hc : s.ctl = .iterStart)
    (hs : s.env.sched = .wire bs :: es) : fetch s = fetchWire bs es s := by
  simp only [fetch, hs, if_pos hc]

/-- Within an iteration a call or wire bytes wait (R59). -/
theorem fetch_waits {s : State} {e : Event} {es : List Event} (hc : s.ctl ≠ .iterStart)
    (hs : s.env.sched = e :: es) (he : (∃ i, e = .call i) ∨ ∃ bs, e = .wire bs) : fetch s = .main s := by
  rcases he with ⟨i, rfl⟩ | ⟨bs, rfl⟩ <;> simp only [fetch, hs, if_neg hc]

theorem fetchWire_frame {s : State} {bs left : List Byte} {i : Instr} (es : List Event)
    (hd : decode s.par.stubLen bs = .ok (i, left)) :
    fetchWire bs es s = .instr i (s.setSched (restOfWire left es)) := by
  cases bs with
  | nil => cases hd
  | cons b bs => simp only [fetchWire, hd]

theorem fetchWire_noFrame {s : State} {b : Byte} {bs : List Byte} {e : DecodeError} (es : List Event)
    (hd : decode s.par.stubLen (b :: bs) = .error e) :
    fetchWire (b :: bs) es s = .instr (.parseByte b) (s.setSched (restOfWire bs es)) := by
  simp only [fetchWire, hd]

/-- Settles O6: one clause per head of the schedule, wire bytes with a frame at their head, without one, or used
up. -/
theorem stepRunsWhatIsFetched : Obligations.StepRunsWhatIsFetched := by
  refine ⟨?frame, ?noFrame, ?wireUsedUp, ?rx, ?call, ?waits, ?nothing, ?main⟩
  case frame => exact fun s bs es i left hc hs hd => step_of_instr ((fetch_wire hc hs).trans (fetchWire_frame es hd))
  case noFrame => exact fun s b bs es e hc hs hd => step_of_instr ((fetch_wire hc hs).trans (fetchWire_noFrame es hd))
  case wireUsedUp => exact fun s es hc hs => step_of_main (fetch_wire hc hs)
  case rx => exact fun s b es hs => step_of_instr (fetch_rx hs)
  case call => exact fun s i es hc hs => step_of_instr (fetch_call hc hs)
  case waits => exact fun s e es hc hs he => step_of_main (fetch_waits hc hs he)
  case nothing => exact fun s hs => step_of_main (fetch_nothing hs)
  case main => exact fun s es hs => step_of_main (fetch_main hs)

/-! ### ENQUEUE beside an atomic step (R61) -/

/-- Each move is the step at its control point: the converse of `mainStep_move`. -/
theorem MainMove.step {s t : State} (h : MainMove s t) : mainStep s = .next t := by
  cases h with
  | pops hc hp => simp only [mainStep, hc, hp]
  | parses hc => simp only [mainStep, hc]
  | readsTemp hc => simp only [mainStep, hc]
  | loads hc => simp only [mainStep, hc]
  | emits hc => simp only [mainStep, hc]
  | polls hc => simp only [mainStep, hc]
  | finishes hc => simp only [mainStep, hc]
  | reports hc => simp only [mainStep, hc]

theorem finishSend_interrupted (q : Queue) (l : Bool) (o : Sender) (ok : Bool) (s : State) :
    finishSend o ok (s.interrupted q l) = (finishSend o ok s).interrupted q l := by
  cases o with
  | handler =>
    simp only [finishSend, raiseUnlessSent_interrupted]
    rfl
  | report => rfl

/-- Every atomic step but the POP and the test-and-clear goes on under an ENQUEUE as without it. -/
theorem MainMove.interrupted {s t : State} (h : MainMove s t) (hi : s.ctl ≠ .iterStart) (hr : s.ctl ≠ .report)
    (q : Queue) (l : Bool) : MainMove (s.interrupted q l) (t.interrupted q l) := by
  cases h with
  | pops hc => exact absurd hc hi
  | reports hc => exact absurd hc hr
  | parses hc =>
    have h := MainMove.parses (s := s.interrupted q l) hc
    rwa [parseStep_interrupted] at h
  | readsTemp hc =>
    have h := MainMove.readsTemp (s := s.interrupted q l) hc
    rwa [readTemp_interrupted] at h
  | loads hc =>
    have h := MainMove.loads (s := s.interrupted q l) hc
    rwa [loadFrame_interrupted] at h
  | emits hc => exact MainMove.emits (s := s.interrupted q l) hc
  | polls hc =>
    have h := MainMove.polls (s := s.interrupted q l) hc
    rwa [pollOnce_interrupted] at h
  | finishes hc =>
    have h := MainMove.finishes (s := s.interrupted q l) hc
    rwa [finishSend_interrupted] at h

/-- A step that goes on the same whatever the queue holds cannot have written to it. -/
theorem mainStep_keeps_queue {s t : State} (hi : s.ctl ≠ .iterStart) (hr : s.ctl ≠ .report)
    (h : mainStep s = .next t) : t.q = s.q := by
  have hs := ((mainStep_move h).interrupted hi hr s.q false).step
  rw [interrupted_keep, interrupted_keep, State.setQueue_self, h] at hs
  rw [Host.Outcome.next.inj hs, State.setQueue_q]

/-- What an ENQUEUE does is decided by the queue and the parameters alone (R95). -/
theorem exec_enqueue_interrupts {b : Byte} {s u : State} (h : exec (.enqueue b) s = .next u) :
    ∃ q l, ∀ t : State, t.q = s.q → t.par = s.par → exec (.enqueue b) t = .next (t.interrupted q l) := by
  rcases exec_enqueue_cases h with ⟨hf, -⟩ | ⟨hf, hi, -⟩
  · refine ⟨s.q, true, fun t hq _ => ?_⟩
    rw [← hq] at hf ⊢
    simp only [exec, execEnqueue, pushQueue_full hf, State.raise_eq, interrupted_raise]
  · refine ⟨queuePushed s.par.capacity b s.q, false, fun t hq hp => ?_⟩
    rw [← hq] at hf hi ⊢
    rw [← hp] at hi ⊢
    simp only [exec, execEnqueue, pushQueue_stores hf hi, interrupted_keep]

/-- Settles O51: both orders lead to the state of the main context's step with the ENQUEUE's queue and latch. -/
theorem enqueueCommutesWithMainSteps : Obligations.EnqueueCommutesWithMainSteps := by
  intro s u v b hi hr hu hv
  obtain ⟨q, l, henq⟩ := exec_enqueue_interrupts hu
  have hus : u = s.interrupted q l := Host.Outcome.next.inj (hu.symm.trans (henq s rfl rfl))
  refine ⟨v.interrupted q l, ?_, henq v (mainStep_keeps_queue hi hr hv) (mainStep_advances hv).par⟩
  rw [hus]
  exact ((mainStep_move hv).interrupted hi hr q l).step

/-! ### No part of an iteration looks at the control point -/

theorem raiseUnlessSent_setCtl (c : Ctl) (ok : Bool) (s : State) :
    raiseUnlessSent (ok, s.setCtl c) = (raiseUnlessSent (ok, s)).setCtl c := by
  cases ok with
  | false =>
    simp only [raiseUnlessSent, State.raise_eq]
    rfl
  | true => rfl

theorem runReply_setCtl (c : Ctl) (r : Reply) (s : State) : runReply r (s.setCtl c) = (runReply r s).setCtl c := by
  cases r with
  | pong => simp only [runReply, sendPong, sendPacket_setCtl, raiseUnlessSent_setCtl]
  | temperature =>
    simp only [runReply, sendTemperature, readTemp_setCtl, sendPacket_setCtl, raiseUnlessSent_setCtl]

/-- A reply that is due runs to its end, then the parser is reset (R119). -/
theorem parseByte_reply {b : Byte} {s t : State} {r : Reply} (h : parseStep b s = (t, some r)) :
    parseByte b s = (runReply r t).resetParser := by
  simp only [parseByte, h]

theorem parseByte_setCtl (c : Ctl) (b : Byte) (s : State) : parseByte b (s.setCtl c) = (parseByte b s).setCtl c := by
  have hstep := parseStep_setCtl c b s
  rcases hp : parseStep b s with ⟨t, _ | r⟩ <;> rw [hp] at hstep
  · rw [parseByte_none hp, parseByte_none hstep]
  · rw [parseByte_reply hp, parseByte_reply hstep, runReply_setCtl]
    rfl

theorem parsePopped_setCtl (c : Ctl) (v : Option Byte) (s : State) :
    parsePopped v (s.setCtl c) = (parsePopped v s).setCtl c := by
  cases v with
  | none => rfl
  | some b => exact parseByte_setCtl c b s

theorem reportErrors_setCtl (c : Ctl) (s : State) : reportErrors (s.setCtl c) = (reportErrors s).setCtl c := by
  unfold reportErrors testAndClear
  rw [State.setCtl_latch]
  cases s.latch with
  | false => rfl
  | true => exact congrArg Prod.snd (sendPacket_setCtl c .error (s.setLatch false))

/-! ### Runs of atomic steps through an iteration (R61, R155) -/

theorem OnlyRan.sched {s t : State} (h : OnlyRan s t) : t.env.sched = s.env.sched := by rw [h.eq]

theorem OnlyRan.ctl {s t : State} (h : OnlyRan s t) : t.ctl = s.ctl := by rw [h.eq]

/-- A SEND run as steps, its caller's step included (R119, R146 to R148). -/
theorem run_sendAndFinish {o : Sender} {pkt : Packet} {s : State} (hs : s.env.sched = [])
    (hc : s.ctl = .startSend o pkt) :
    ∃ k, core.run k s = .next (finishSend o (sendPacket pkt s).1 (sendPacket pkt s).2) := by
  obtain ⟨j, hj⟩ := run_send hs hc
  have hsched : (sendPacket pkt s).2.env.sched = [] := (sendPacket_ran pkt s).sched.trans hs
  have hm := (MainMove.finishes (s := (sendPacket pkt s).2.setCtl (.endSend o (sendPacket pkt s).1)) rfl).step
  refine ⟨j + 1, (run_add hj).trans ((run_one (by exact hsched) hm).trans (congrArg _ ?_))⟩
  cases o with
  | handler =>
    simp only [finishSend, raiseUnlessSent_setCtl]
    rfl
  | report => rfl

/-- A reply that is due, run as steps to the reset of the parser (R119, R121, R122). -/
theorem run_reply {r : Reply} {s : State} (hs : s.env.sched = []) (hc : s.ctl = afterParse (some r)) :
    ∃ k, core.run k s = .next ((runReply r s).resetParser.setCtl .report) := by
  cases r with
  | pong => exact run_sendAndFinish hs hc
  | temperature =>
    have hsched : s.readTemp.2.env.sched = [] := (readTemp_ran s).sched.trans hs
    obtain ⟨k, hk⟩ := run_sendAndFinish (o := .handler) (pkt := .responseTemp s.readTemp.1)
      (s := s.readTemp.2.setCtl (.startSend .handler (.responseTemp s.readTemp.1))) hsched rfl
    refine ⟨1 + k, run_cons hs (MainMove.readsTemp hc).step (hk.trans (congrArg _ ?_))⟩
    rw [sendPacket_setCtl]
    simp only [finishSend, raiseUnlessSent_setCtl]
    rfl

/-- Phase 1 after the POP, run as steps (R156). -/
theorem run_parsePopped {v : Option Byte} {s : State} (hs : s.env.sched = []) (hc : s.ctl = afterPop v) :
    ∃ k, core.run k s = .next ((parsePopped v s).setCtl .report) := by
  cases v with
  | none =>
    have hself : s.setCtl .report = s := (congrArg s.setCtl hc.symm).trans (State.setCtl_self s)
    exact ⟨0, congrArg Host.Outcome.next hself.symm⟩
  | some b =>
    have hm := (MainMove.parses hc).step
    have hsched := (parseStep_onlyParsed b s).ran.sched.trans hs
    show ∃ k, core.run k s = .next ((parseByte b s).setCtl .report)
    rcases hp : parseStep b s with ⟨t, _ | r⟩ <;> rw [hp] at hm hsched
    · rw [parseByte_none hp]
      exact ⟨1, run_one hs hm⟩
    · rw [parseByte_reply hp]
      obtain ⟨k, hk⟩ := run_reply (r := r) (s := t.setCtl (afterParse (some r))) hsched rfl
      rw [runReply_setCtl] at hk
      exact ⟨1 + k, run_cons hs hm hk⟩

/-- Phase 2, run as steps (R157). -/
theorem run_reportErrors {s : State} (hs : s.env.sched = []) (hc : s.ctl = .report) :
    ∃ k, core.run k s = .next ((reportErrors s).setCtl .iterStart) := by
  have hm := (MainMove.reports hc).step
  unfold reportStep testAndClear at hm
  unfold reportErrors testAndClear
  cases hl : s.latch with
  | false =>
    rw [hl] at hm
    exact ⟨1, run_one hs hm⟩
  | true =>
    rw [hl] at hm
    obtain ⟨k, hk⟩ := run_sendAndFinish (o := .report) (pkt := .error)
      (s := (s.setLatch false).setCtl (.startSend .report .error)) hs rfl
    rw [sendPacket_setCtl] at hk
    exact ⟨1 + k, run_cons hs hm hk⟩

theorem popQueue_sched {s t : State} {v : Option Byte} (h : popQueue s = some (v, t)) :
    t.env.sched = s.env.sched := by
  rcases popQueue_cases h with ⟨-, -, rfl⟩ | ⟨-, -, -, rfl⟩ <;> rfl

/-- Settles O50: the POP, the parser with any reply, and the report, each run as steps, end at the control point
where the iteration began. -/
theorem atomicStepsMakeAnIteration : Obligations.AtomicStepsMakeAnIteration := by
  intro s t hc hs ht
  obtain ⟨v, u, hp, rfl⟩ := exec_mainIter_cases ht
  have hu : u.env.sched = [] := (popQueue_sched hp).trans hs
  obtain ⟨j, hj⟩ := run_parsePopped (v := v) (s := u.setCtl (afterPop v)) hu rfl
  rw [parsePopped_setCtl, State.setCtl_setCtl] at hj
  have hparsed := parsePopped_ran v u
  obtain ⟨k, hk⟩ := run_reportErrors (s := (parsePopped v u).setCtl .report) (hparsed.sched.trans hu) rfl
  rw [reportErrors_setCtl, State.setCtl_setCtl] at hk
  have hctl : (reportErrors (parsePopped v u)).ctl = .iterStart :=
    calc (reportErrors (parsePopped v u)).ctl
      _ = (parsePopped v u).ctl := (reportErrors_ran (parsePopped v u)).1.ctl
      _ = u.ctl := hparsed.ctl
      _ = .iterStart := (popQueue_ctl hp).trans hc
  rw [← hctl, State.setCtl_self] at hk
  exact ⟨1 + (j + k), by omega, run_cons hs (MainMove.pops hc hp).step ((run_add hj).trans hk)⟩

end Sys2Proof.Machine
end

section
/-! PROOFS. The frame of PARSE_BYTE (O31) and of a received frame (O42). -/

namespace Sys2Proof.Machine

/-! ### What an operation that only runs leaves alone -/

theorem OnlyRan.queue {s t : State} (h : OnlyRan s t) : t.q = s.q := by rw [h.eq]

theorem OnlyRan.ret {s t : State} (h : OnlyRan s t) : t.ret = s.ret := by rw [h.eq]

theorem OnlyRan.caller {s t : State} (h : OnlyRan s t) : t.env.caller = s.env.caller := by rw [h.eq]

theorem OnlyRan.readByte_qmem {s t : State} (h : OnlyRan s t) (a : Nat) :
    t.readByte .qmem a = s.readByte .qmem a :=
  State.readByte_congr (sp := .qmem) (congrArg Queue.buf h.queue) a

theorem OnlyRan.readByte_caller {s t : State} (h : OnlyRan s t) (a : Nat) :
    t.readByte .caller a = s.readByte .caller a :=
  State.readByte_congr (sp := .caller) h.caller a

/-! ### TXBUF beyond the frame that is sent (R50, R142) -/

/-- Stages 1 and 2 of SEND write TXBUF below the packet's frame length only, whether the body fits or not. -/
theorem loadFrame_below {pkt : Packet} {s : State} (hw : Memory.wf s.tbuf) :
    WrittenBelow (packetSize pkt + Config.crcLen) s.tbuf (loadFrame pkt s).2.tbuf := by
  rcases Nat.lt_or_ge s.par.serCap (packetSize pkt) with hc | hc
  · unfold loadFrame serialize
    simp only [if_pos hc, State.writeBytes_eq]
    exact writeAll_below s.tbuf (by simp only [failedBytes, List.length_map, List.length_range]; omega)
  · rw [loadFrame_fits hc hw, State.writeBytes_eq]
    exact writeAll_below s.tbuf (by rw [length_packetFrame]; omega)

theorem sendPacket_below {pkt : Packet} {s : State} (hw : Memory.wf s.tbuf) :
    WrittenBelow (packetSize pkt + Config.crcLen) s.tbuf (sendPacket pkt s).2.tbuf := by
  rw [sendPacket_tbuf]
  exact loadFrame_below hw

/-- A type's handler writes TXBUF below the length of its reply only (R121, R122). -/
theorem runReply_below {ty : PacketType} {r : Reply} {s : State} (hr : handlerOf ty = some r)
    (hw : Memory.wf s.tbuf) : WrittenBelow (replyLen ty) s.tbuf (runReply r s).tbuf := by
  cases ty with
  | ping =>
    cases hr
    show WrittenBelow 7 s.tbuf (raiseUnlessSent (sendPacket .pong s)).tbuf
    rw [raiseUnlessSent_tbuf]
    exact sendPacket_below hw
  | request =>
    cases hr
    show WrittenBelow 11 s.tbuf (sendTemperature s).tbuf
    exact runReply_txbuf .temperature s
  | invalid | error | pong | requestContinuousStart | requestContinuousStop | response => cases hr

theorem dispatchType_below (ty : PacketType) {s : State} (hw : Memory.wf s.tbuf) :
    WrittenBelow (replyLen ty) s.tbuf (dispatchType ty s).tbuf := by
  unfold dispatchType
  split
  next r hr => exact runReply_below hr hw
  next =>
    rw [State.raise_eq]
    exact WrittenBelow.refl _ _

theorem OnlyParsed.txbuf {s t : State} (h : OnlyParsed s t) : t.tbuf = s.tbuf := by
  rw [h.1]
  rfl

/-- PARSE_BYTE writes TXBUF below the reply of the frame's type only (R119). -/
theorem parseByte_below (b : Byte) {s : State} (hw : Memory.wf s.tbuf) :
    WrittenBelow (replyLen s.p.type) s.tbuf (parseByte b s).tbuf := by
  rcases hp : parseStep b s with ⟨t, _ | r⟩
  · have ht := (parseStep_onlyParsed b s).txbuf
    rw [hp] at ht
    rw [parseByte_none hp]
    exact ht ▸ WrittenBelow.refl _ _
  · obtain ⟨-, rfl, -, hr, -⟩ := parseStep_reply hp
    rw [parseByte_reply hp]
    exact runReply_below (s := storeByte b s) hr hw

/-! ### PARSE_BYTE (R111, R177) -/

/-- RXBUF after PARSE_BYTE is RXBUF after the store, when there was room for one (R110, R111). -/
theorem readByte_parseByte (b : Byte) (s : State) (a : Nat) :
    (parseByte b s).readByte .rxbuf a = if a = s.p.idx ∧ s.p.idx < 16 then b else s.readByte .rxbuf a := by
  have hbuf := parseByte_buf b s
  by_cases hi : s.p.idx < 16
  · rw [if_pos hi] at hbuf
    simp only [hi, and_true]
    rw [← readByte_storeByte b a]
    exact State.readByte_congr (s := storeByte b s) (sp := .rxbuf) hbuf a
  · rw [if_neg hi] at hbuf
    simp only [hi, and_false, if_false]
    exact State.readByte_congr (sp := .rxbuf) hbuf a

/-- Settles O31: RXBUF by the store, TXBUF by the reply, the rest because PARSE_BYTE only runs the parser and at
most one reply. -/
theorem parseByteFrame : Obligations.ParseByteFrame := by
  intro s t b _ hw ht
  obtain rfl := Host.Outcome.next.inj ht
  have hran := parseByte_ran b s
  refine ⟨fun a ha => ?_, fun hi => ?_, hran.readByte_qmem, hran.readByte_caller,
    (parseByte_below b hw).kept (sp := .txbuf) hw, hran.queue, hran.advances.par, hran.ctl, hran.ret, hran.sched,
    hran.latch⟩
  · rw [readByte_parseByte, if_neg fun h => ha h.1]
  · rw [readByte_parseByte, if_pos ⟨rfl, hi⟩]

/-! ### A received frame (R119, R128) -/

/-- After the frame `bs` from `s` on: the parser is idle, the frame was written to RXBUF from its beginning, and
TXBUF was written below `n` only. -/
structure FrameReceived (bs : List Byte) (n : Nat) (s t : State) : Prop where
  idle : parserIdle t
  rxbuf : t.p.buf = Memory.writeAll s.p.buf 0 bs
  txbuf : WrittenBelow n s.tbuf t.tbuf

theorem frameEnd_received (body : List Byte) (crc : Word) (ty : PacketType) {s : State} (hw : Memory.wf s.tbuf) :
    FrameReceived (body ++ le32Bytes crc) (replyLen ty) s (frameEnd body crc ty s) := by
  unfold frameEnd
  split
  · exact ⟨⟨rfl, rfl⟩, rfl, WrittenBelow.refl _ _⟩
  · exact ⟨⟨rfl, rfl⟩, congrArg Parser.buf (dispatchType_replied ty (frameStored body crc ty s)).parser,
      dispatchType_below ty (s := frameStored body crc ty s) hw⟩

theorem shortFrame_received {ty : PacketType} {s : State} (ht : isShort ty) (h : parserIdle s)
    (hr : Memory.wf s.p.buf) (hw : Memory.wf s.tbuf) (crc : Word) :
    FrameReceived (encodeShort ty crc) (replyLen ty) s (parseBytes (encodeShort ty crc) s) := by
  rw [parseBytes_shortFrame h ht hr]
  exact frameEnd_received (header ty) crc ty hw

theorem illegalFrame_received {b : Byte} {s : State} (hb : b.toNat = 0 ∨ 8 ≤ b.toNat) (h : parserIdle s) :
    FrameReceived [Config.magic0, Config.magic1, b] 0 s (parseBytes [Config.magic0, Config.magic1, b] s) := by
  rw [parseBytes_illegalFrame h hb]
  exact ⟨⟨rfl, rfl⟩, rfl, WrittenBelow.refl _ _⟩

/-- The parse of any RX row's encoding: a short frame, a type-7 frame, or a header with an illegal type byte. -/
theorem encode_received {i : Instr} {s : State} (hi : isReceived i = true) (hf : wellFormed s.par i = true)
    (h : parserIdle s) (hr : Memory.wf s.p.buf) (hw : Memory.wf s.tbuf) :
    FrameReceived (encode s.par i) (replyLenOf i) s (parseBytes (encode s.par i) s) := by
  have short : ∀ (ty : PacketType) (crc : Word), isShort ty →
      FrameReceived (encodeShort ty crc) (replyLen ty) s (parseBytes (encodeShort ty crc) s) :=
    fun _ crc ht => shortFrame_received ht h hr hw crc
  cases i with
  | rxError crc => exact short .error crc (by decide)
  | rxPing crc => exact short .ping crc (by decide)
  | rxPong crc => exact short .pong crc (by decide)
  | rxRequest crc => exact short .request crc (by decide)
  | rxRequestContinuousStart crc => exact short .requestContinuousStart crc (by decide)
  | rxRequestContinuousStop crc => exact short .requestContinuousStop crc (by decide)
  | rxResponse stub crc =>
    simp only [encode]
    rw [parseBytes_responseFrame h hf hr]
    exact frameEnd_received (header .response ++ stub.toList) crc .response hw
  | rxInvalid => exact illegalFrame_received (.inl rfl) h
  | rxUnassigned t => exact illegalFrame_received (.inr (of_decide_eq_true hf)) h
  | _ => cases hi

/-- RXBUF begins with the frame. -/
theorem FrameReceived.readBytes_rxbuf {bs : List Byte} {n : Nat} {s t : State} (h : FrameReceived bs n s t)
    (hw : Memory.wf s.p.buf) : t.readBytes .rxbuf 0 bs.length = bs := by
  have hmem : t.mem .rxbuf = (s.writeBytes .rxbuf 0 bs).mem .rxbuf := by
    rw [State.writeBytes_eq, State.mem_setMem_same]
    exact h.rxbuf
  calc t.readBytes .rxbuf 0 bs.length
    _ = (s.writeBytes .rxbuf 0 bs).readBytes .rxbuf 0 bs.length := State.readBytes_congr hmem 0 bs.length
    _ = bs := State.readBytes_writeBytes s .rxbuf 0 bs hw

/-- RXBUF beyond the frame is as before. -/
theorem FrameReceived.kept_rxbuf {bs : List Byte} {n : Nat} {s t : State} (h : FrameReceived bs n s t)
    (hw : Memory.wf s.p.buf) : bytesKeptFrom .rxbuf bs.length s t := by
  refine WrittenBelow.kept (sp := .rxbuf) ?_ hw
  show WrittenBelow bs.length s.p.buf t.p.buf
  rw [h.rxbuf]
  exact writeAll_below s.p.buf (Nat.le_of_eq (Nat.zero_add _))

/-- Settles O42: the parser and the two frame buffers by the kind of frame, the rest because a parse of bytes only
runs. -/
theorem receivedFrameFrame : Obligations.ReceivedFrameFrame := by
  intro i s hi hf h hr hw
  have hran := parseBytes_ran (encode s.par i) s
  have hframe := encode_received hi hf h hr hw
  exact ⟨_, exec_received hi s, hframe.idle, hframe.readBytes_rxbuf hr, hframe.kept_rxbuf hr,
    hframe.txbuf.kept (sp := .txbuf) hw, hran.readByte_qmem, hran.readByte_caller, hran.queue, hran.advances.par,
    hran.ctl, hran.ret, hran.sched, hran.latch⟩

end Sys2Proof.Machine
end

section
/-! PROOFS. The decoder and the encoder agree on received frames (O1 to O4). -/

namespace Sys2Proof

open Machine

/-! ### The four forms of a received frame (R71, R77, R78) -/

/-- `bs` is the frame that `i` stands for: a short frame, a type-7 frame with the stub the parameter has, or a
header alone whose type byte is 0 or names nothing. Tied to the model by `receivedFrame_iff`. -/
inductive ReceivedFrame (P : Params) : Instr → List Byte → Prop where
  | short {i : Instr} {ty : PacketType} {crc : Word} (h : shortFrameInstr ty crc = some i) :
      ReceivedFrame P i (encodeShort ty crc)
  | response {stub : Option Byte} (crc : Word) (h : stubMatches P stub = true) :
      ReceivedFrame P (.rxResponse stub crc) (header .response ++ stub.toList ++ le32Bytes crc)
  | invalid : ReceivedFrame P .rxInvalid (header .invalid)
  | unassigned {t : Byte} (h : 8 ≤ t.toNat) :
      ReceivedFrame P (.rxUnassigned t) [Config.magic0, Config.magic1, t]

theorem shortFrame_received_encode {P : Params} {ty : PacketType} {crc : Word} {i : Instr}
    (h : shortFrameInstr ty crc = some i) :
    isReceived i = true ∧ wellFormed P i = true ∧ encodeShort ty crc = encode P i := by
  cases ty <;> cases h <;> exact ⟨rfl, rfl, rfl⟩

theorem receivedFrame_encode {P : Params} {i : Instr} (hi : isReceived i = true) (hf : wellFormed P i = true) :
    ReceivedFrame P i (encode P i) := by
  cases i with
  | rxError crc => exact .short (ty := .error) rfl
  | rxPing crc => exact .short (ty := .ping) rfl
  | rxPong crc => exact .short (ty := .pong) rfl
  | rxRequest crc => exact .short (ty := .request) rfl
  | rxRequestContinuousStart crc => exact .short (ty := .requestContinuousStart) rfl
  | rxRequestContinuousStop crc => exact .short (ty := .requestContinuousStop) rfl
  | rxResponse stub crc => exact .response crc hf
  | rxInvalid => exact .invalid
  | rxUnassigned t => exact .unassigned (of_decide_eq_true hf)
  | _ => cases hi

/-- The four forms are the encodings of the well-formed RX rows. -/
theorem receivedFrame_iff {P : Params} {i : Instr} {bs : List Byte} :
    ReceivedFrame P i bs ↔ isReceived i = true ∧ wellFormed P i = true ∧ bs = encode P i := by
  constructor
  · intro h
    cases h with
    | short h => exact shortFrame_received_encode h
    | response crc h => exact ⟨rfl, h, rfl⟩
    | invalid => exact ⟨rfl, rfl, rfl⟩
    | unassigned h => exact ⟨rfl, decide_eq_true h, rfl⟩
  · rintro ⟨hi, hf, rfl⟩
    exact receivedFrame_encode hi hf

theorem isShort_of_shortFrameInstr {ty : PacketType} {crc : Word} {i : Instr}
    (h : shortFrameInstr ty crc = some i) : isShort ty := by
  cases ty with
  | invalid | response => cases h
  | error | ping | pong | request | requestContinuousStart | requestContinuousStop => decide

/-! ### What each type byte makes the decoder read (R77, R80) -/

theorem decodeType_short {ty : PacketType} (ht : isShort ty) :
    ∃ mk : Word → Instr, (∀ crc, shortFrameInstr ty crc = some (mk crc)) ∧
      ∀ l bs, decodeType l (typeCode ty) bs = decodeShort mk bs := by
  cases ty with
  | error | ping | pong | request | requestContinuousStart | requestContinuousStop =>
    exact ⟨_, fun _ => rfl, fun _ _ => rfl⟩
  | invalid | response => exact absurd ht (by decide)

theorem decodeType_unassigned {t : Byte} (ht : 8 ≤ t.toNat) (l : StubLen) (bs : List Byte) :
    decodeType l t bs = .ok (.rxUnassigned t, bs) := by
  simp only [decodeType, typeOfByte_eq_none.mpr ht]

theorem decodeResponse_stub {P : Params} {stub : Option Byte} (h : stubMatches P stub = true) (crc : Word)
    (rest : List Byte) :
    decodeResponse P.stubLen (stub.toList ++ (le32Bytes crc ++ rest)) = .ok (.rxResponse stub crc, rest) := by
  unfold stubMatches at h
  cases hl : P.stubLen <;> rw [hl] at h <;> cases stub
  case one.some x => exact decodeShort_le32Bytes (.rxResponse (some x)) crc rest
  case zero.none => exact decodeShort_le32Bytes (.rxResponse none) crc rest
  case one.none | zero.some => cases h

theorem decodeResponse_ok {P : Params} {bs rest : List Byte} {i : Instr}
    (h : decodeResponse P.stubLen bs = .ok (i, rest)) :
    ∃ stub crc, stubMatches P stub = true ∧ i = .rxResponse stub crc ∧
      bs = stub.toList ++ (le32Bytes crc ++ rest) := by
  unfold stubMatches
  cases hl : P.stubLen <;> rw [hl] at h
  case zero =>
    obtain ⟨crc, rfl, rfl⟩ := decodeShort_ok h
    exact ⟨none, crc, rfl, rfl, rfl⟩
  case one =>
    cases bs with
    | nil => cases h
    | cons x bs =>
      obtain ⟨crc, rfl, rfl⟩ := decodeShort_ok h
      exact ⟨some x, crc, rfl, rfl, rfl⟩

/-! ### The decoder reads exactly the received frames (R84) -/

theorem decode_receivedFrame {P : Params} {i : Instr} {bs : List Byte} (h : ReceivedFrame P i bs)
    (rest : List Byte) : decode P.stubLen (bs ++ rest) = .ok (i, rest) := by
  cases h with
  | @short _ ty crc h =>
    obtain ⟨mk, hmk, hdec⟩ := decodeType_short (isShort_of_shortFrameInstr h)
    obtain rfl : mk crc = i := Option.some.inj ((hmk crc).symm.trans h)
    calc decode P.stubLen (encodeShort ty crc ++ rest)
      _ = decodeType P.stubLen (typeCode ty) (le32Bytes crc ++ rest) := decode_magic _ _ _
      _ = decodeShort mk (le32Bytes crc ++ rest) := hdec _ _
      _ = .ok (mk crc, rest) := decodeShort_le32Bytes mk crc rest
  | response crc h =>
    rw [List.append_assoc, List.append_assoc]
    exact (decode_magic _ _ _).trans (decodeResponse_stub h crc rest)
  | invalid => exact decode_magic _ _ _
  | unassigned h => exact (decode_magic _ _ _).trans (decodeType_unassigned h _ _)

theorem receivedFrame_of_decodeType {P : Params} {t : Byte} {body rest : List Byte} {i : Instr}
    (h : decodeType P.stubLen t body = .ok (i, rest)) :
    ∃ bs, ReceivedFrame P i bs ∧ Config.magic0 :: Config.magic1 :: t :: body = bs ++ rest := by
  rcases ht : typeOfByte t with _ | ty
  · rw [decodeType_unassigned (typeOfByte_eq_none.mp ht)] at h
    cases h
    exact ⟨_, .unassigned (typeOfByte_eq_none.mp ht), rfl⟩
  obtain rfl := typeOfByte_eq_some.mp ht
  by_cases hs : isShort ty
  · obtain ⟨mk, hmk, hdec⟩ := decodeType_short hs
    rw [hdec] at h
    obtain ⟨crc, rfl, rfl⟩ := decodeShort_ok h
    exact ⟨_, .short (hmk crc), rfl⟩
  cases ty with
  | invalid =>
    cases h
    exact ⟨_, .invalid, rfl⟩
  | response =>
    obtain ⟨stub, crc, hm, rfl, rfl⟩ := decodeResponse_ok h
    refine ⟨_, .response crc hm, ?_⟩
    rw [List.append_assoc, List.append_assoc]
    rfl
  | error | ping | pong | request | requestContinuousStart | requestContinuousStop => exact absurd (by decide) hs

/-! ### The obligations -/

/-- Settles O2: the encoding is one of the four forms of frame, and the decoder reads each of them. -/
theorem decodeOfEncodeIsTheFrame : Obligations.DecodeOfEncodeIsTheFrame :=
  fun _ _ rest hi hf => decode_receivedFrame (receivedFrame_encode hi hf) rest

/-- Settles O3: past the magic, the type byte decides which form of frame was read. -/
theorem decodedBytesAreTheEncoding : Obligations.DecodedBytesAreTheEncoding := by
  intro P bs rest i h
  obtain ⟨t, body, rfl, htype⟩ := decode_ok h
  obtain ⟨frame, hframe, happ⟩ := receivedFrame_of_decodeType htype
  obtain ⟨hi, hf, rfl⟩ := receivedFrame_iff.mp hframe
  exact ⟨hi, hf, happ⟩

theorem shortFrameInstr_packet {pkt : Packet} (h : ∀ w, pkt ≠ .responseTemp w) (crc : Word) :
    ∃ i, shortFrameInstr (packetType pkt) crc = some i := by
  cases pkt with
  | error | ping | pong | request => exact ⟨_, rfl⟩
  | responseTemp w => exact absurd rfl (h w)

theorem packetFrame_short {pkt : Packet} (h : ∀ w, pkt ≠ .responseTemp w) (c : Checksum) :
    packetFrame c pkt = encodeShort (packetType pkt) (checksumOf c (packetBody pkt)) := by
  cases pkt with
  | error | ping | pong | request => rfl
  | responseTemp w => exact absurd rfl (h w)

/-- The 11 bytes of a RESPONSE frame, cut as the receiver with a stub byte cuts them (R78): the other three
temperature bytes and the first checksum byte stand where it expects the trailer. -/
theorem responseFrame_cut (w v : Word) :
    packetBody (.responseTemp w) ++ le32Bytes v =
      header .response ++ (some (w.extractLsb' 0 8)).toList ++
        le32Bytes (ofLE32 (w.extractLsb' 8 8) (w.extractLsb' 16 8) (w.extractLsb' 24 8) (v.extractLsb' 0 8)) ++
        [v.extractLsb' 8 8, v.extractLsb' 16 8, v.extractLsb' 24 8] := by
  rw [le32Bytes_ofLE32]
  rfl

/-- Settles O4: a transmitted frame is a received short frame, or a received type-7 frame and three bytes. -/
theorem transmittedFramesDecode : Obligations.TransmittedFramesDecode := by
  constructor
  · intro P pkt rest hp
    obtain ⟨i, hi⟩ := shortFrameInstr_packet hp (checksumOf P.checksum (packetBody pkt))
    refine ⟨i, hi, ?_⟩
    rw [packetFrame_short hp]
    exact decode_receivedFrame (.short hi) rest
  · intro c w
    have hframe := responseFrame_cut w (checksumOf c (packetBody (.responseTemp w)))
    exact ⟨_, _, _, _, (congrArg (decode .one) hframe).trans
      (decode_receivedFrame (.response (P := Config.defaultParams) _ rfl) _)⟩

/-- Settles O1: fourteen fixed words, each run through the decoder. -/
theorem specWordsDecode : Obligations.SpecWordsDecode := by
  unfold Obligations.SpecWordsDecode
  decide

end Sys2Proof
end

section
/-! PROOFS. The byte queue: what PUSH, POP, ENQUEUE and the two observers answer (O8 to O11), first in first out
(O12, O13), and the invariant with its count (O14). -/

namespace Sys2Proof.Machine

/-! ### The state after a byte is stored or taken -/

/-- The state after a PUSH that stored its byte (R91), by `exec_push_stores`. -/
def State.stored (b : Byte) (s : State) : State :=
  (s.setQueue (queuePushed s.par.capacity b s.q)).setRet (.bool true)

/-- The state after a POP that took a byte (R92), by `exec_pop_takes`. -/
def State.taken (s : State) : State :=
  (s.setQueue (queuePopped s.par.capacity s.q)).setRet (.byte (some (s.readByte .qmem s.q.startIdx)))

@[simp] theorem State.stored_par (b : Byte) (s : State) : (s.stored b).par = s.par := rfl
@[simp] theorem State.stored_q (b : Byte) (s : State) : (s.stored b).q = queuePushed s.par.capacity b s.q := rfl
@[simp] theorem State.stored_ret (b : Byte) (s : State) : (s.stored b).ret = .bool true := rfl
@[simp] theorem State.taken_par (s : State) : s.taken.par = s.par := rfl
@[simp] theorem State.taken_q (s : State) : s.taken.q = queuePopped s.par.capacity s.q := rfl
@[simp] theorem State.taken_ret (s : State) : s.taken.ret = .byte (some (s.readByte .qmem s.q.startIdx)) := rfl

@[simp] theorem heldBytes_setRet (s : State) (r : Ret) : heldBytes (s.setRet r) = heldBytes s := rfl

theorem heldBytes_stored {s : State} (b : Byte) (h : queueOk s.par.capacity s.q) (hf : queueFull s.q = false) :
    heldBytes (s.stored b) = heldBytes s ++ [b] :=
  heldBytes_pushed h hf

theorem heldBytes_taken {s : State} (h : queueOk s.par.capacity s.q) (he : s.q.empty = false) :
    heldBytes s = s.readByte .qmem s.q.startIdx :: heldBytes s.taken :=
  heldBytes_popped h he

theorem heldBytes_eq_nil {s : State} (h : queueOk s.par.capacity s.q) : heldBytes s = [] ↔ s.q.empty = true := by
  rw [← List.length_eq_zero_iff, length_heldBytes, queueCount_empty h]

theorem queueFull_eq_false_of_lt {n : Nat} {q : Queue} (h : queueOk n q) (hlt : queueCount n q < n) :
    queueFull q = false :=
  Bool.eq_false_iff.mpr fun hf => Nat.ne_of_lt hlt ((queueCount_full h).mp hf)

/-- A PUSH writes one slot of QMEM, the one at the end index. -/
theorem readByte_queuePushed_of_ne (s : State) (b : Byte) {a : Nat} (ha : a ≠ s.q.endIdx) :
    (s.setQueue (queuePushed s.par.capacity b s.q)).readByte .qmem a = s.readByte .qmem a :=
  (State.readByte_writeByte s .qmem s.q.endIdx a b).trans (if_neg ha)

/-! ### What the queue instructions answer -/

theorem exec_push_full {s : State} {b : Byte} (hf : queueFull s.q = true) :
    exec (.push b) s = .next (s.setRet (.bool false)) := by
  simp only [exec, execPush, pushQueue_full hf]

theorem exec_push_stores {s : State} {b : Byte} (h : queueOk s.par.capacity s.q) (hf : queueFull s.q = false) :
    exec (.push b) s = .next (s.stored b) := by
  simp only [exec, execPush, pushQueue_stores hf h.2.1, State.stored]

theorem exec_pop_empty {s : State} (he : s.q.empty = true) : exec .pop s = .next (s.setRet (.byte none)) := by
  simp only [exec, execPop, popQueue_empty he]

theorem exec_pop_takes {s : State} (h : queueOk s.par.capacity s.q) (he : s.q.empty = false) :
    exec .pop s = .next s.taken := by
  simp only [exec, execPop, popQueue_some he h.1, State.taken]

theorem exec_enqueue_full {s : State} {b : Byte} (hf : queueFull s.q = true) :
    exec (.enqueue b) s = .next (s.setLatch true) := by
  simp only [exec, execEnqueue, pushQueue_full hf, State.raise_eq]

theorem exec_enqueue_stores {s : State} {b : Byte} (h : queueOk s.par.capacity s.q) (hf : queueFull s.q = false) :
    exec (.enqueue b) s = .next (s.setQueue (queuePushed s.par.capacity b s.q)) := by
  simp only [exec, execEnqueue, pushQueue_stores hf h.2.1]

/-- Settles O8: the two answers of PUSH, with the queue after it written out. -/
theorem pushStoresOrDrops : Obligations.PushStoresOrDrops :=
  ⟨fun _ _ h hf => exec_push_stores h hf, fun _ _ hf => exec_push_full hf⟩

/-- Settles O9: the two answers of POP; the empty flag's Boolean comparison is the decided equality. -/
theorem popTakesTheOldest : Obligations.PopTakesTheOldest := by
  refine ⟨fun s h he => ?_, fun _ he => exec_pop_empty he⟩
  rw [exec_pop_takes h he, State.taken, queuePopped, beq_eq_decide]
  rfl

/-- Settles O10: the stored flag is "count 0", and the computed test is "count N" (R26). -/
theorem observersTellTheCount : Obligations.ObserversTellTheCount := by
  intro s h
  have hempty : queueEmpty s.q = decide (queueCount s.par.capacity s.q = 0) :=
    Bool.eq_iff_iff.mpr ((queueCount_empty h).trans decide_eq_true_iff.symm)
  have hfull : queueFull s.q = decide (queueCount s.par.capacity s.q = s.par.capacity) :=
    Bool.eq_iff_iff.mpr ((queueCount_full h).trans decide_eq_true_iff.symm)
  rw [← hempty, ← hfull]
  exact ⟨rfl, rfl⟩

/-- Settles O11: an ENQUEUE is a PUSH into a queue with room, and the latch alone on a full one. -/
theorem enqueueAppendsOrRaises : Obligations.EnqueueAppendsOrRaises := by
  intro s b h _
  constructor
  · intro hlt
    have hf := queueFull_eq_false_of_lt h hlt
    exact ⟨_, exec_enqueue_stores h hf, heldBytes_pushed h hf, rfl, rfl,
      fun a ha => readByte_queuePushed_of_ne s b ha⟩
  · intro hcount
    exact exec_enqueue_full ((queueCount_full h).mpr hcount)

/-! ### The queue after an instruction (R97) -/

/-- PUSH and ENQUEUE do the same to the queue: nothing when it is full, else the byte is stored. -/
theorem exec_push_or_enqueue_queue {s t : State} {b : Byte}
    (ht : exec (.push b) s = .next t ∨ exec (.enqueue b) s = .next t) :
    t.par = s.par ∧ t.q = if queueFull s.q = true then s.q else queuePushed s.par.capacity b s.q := by
  rcases ht with ht | ht
  · obtain ⟨ok, u, hu, rfl⟩ := exec_push_cases ht
    rcases pushQueue_cases hu with ⟨-, hf, rfl⟩ | ⟨-, hf, -, rfl⟩ <;> simp [hf]
  · rcases exec_enqueue_cases ht with ⟨hf, rfl⟩ | ⟨hf, -, rfl⟩ <;> simp [hf]

theorem exec_pop_queue {s t : State} (ht : exec .pop s = .next t) :
    t.par = s.par ∧ t.q = if s.q.empty = true then s.q else queuePopped s.par.capacity s.q := by
  obtain ⟨v, u, hu, rfl⟩ := exec_pop_cases ht
  rcases popQueue_cases hu with ⟨-, he, rfl⟩ | ⟨-, he, -, rfl⟩ <;> simp [he]

/-- Settles O14: the queue after each instruction is the one before, or the one with a byte stored or taken. -/
theorem queueOpsKeepTheInvariant : Obligations.QueueOpsKeepTheInvariant := by
  intro s t b h
  constructor
  · intro ht
    obtain ⟨hpar, hq⟩ := exec_push_or_enqueue_queue ht
    rw [hpar]
    cases hf : queueFull s.q
    · have hstored : t.q = queuePushed s.par.capacity b s.q := by simpa [hf] using hq
      have hok : queueOk s.par.capacity t.q := hstored ▸ queuePushed_ok h
      exact ⟨hok, hstored ▸ queueCount_pushed h hf, queueCount_le hok⟩
    · have hkept : t.q = s.q := by simpa [hf] using hq
      rw [hkept, if_pos rfl]
      exact ⟨h, rfl, queueCount_le h⟩
  · intro ht
    obtain ⟨hpar, hq⟩ := exec_pop_queue ht
    rw [hpar]
    cases he : s.q.empty
    · have htaken : t.q = queuePopped s.par.capacity s.q := by simpa [he] using hq
      have hcount := queueCount_popped h he
      rw [htaken]
      exact ⟨queuePopped_ok h, by omega⟩
    · have hkept : t.q = s.q := by simpa [he] using hq
      have hcount := (queueCount_empty h).mp he
      rw [hkept]
      exact ⟨h, by omega⟩

/-! ### Runs of PUSHes and POPs (R96) -/

/-- A dropped byte leaves no mark on the run. -/
theorem runQueueOps_push_full {s : State} {b : Byte} {ops : List QueueOp} (hf : queueFull s.q = true) :
    runQueueOps (.push b :: ops) s = runQueueOps ops (s.setRet (.bool false)) := by
  simp [runQueueOps, exec_push_full hf, acceptedByte]

theorem runQueueOps_push_stores {s : State} {b : Byte} {ops : List QueueOp} (h : queueOk s.par.capacity s.q)
    (hf : queueFull s.q = false) :
    runQueueOps (.push b :: ops) s =
      (runQueueOps ops (s.stored b)).map fun r => { r with accepted := b :: r.accepted } := by
  simp [runQueueOps, exec_push_stores h hf, acceptedByte]

/-- A POP that finds nothing leaves no mark on the run. -/
theorem runQueueOps_pop_empty {s : State} {ops : List QueueOp} (he : s.q.empty = true) :
    runQueueOps (.pop :: ops) s = runQueueOps ops (s.setRet (.byte none)) := by
  simp [runQueueOps, exec_pop_empty he, poppedByte]

theorem runQueueOps_pop_takes {s : State} {ops : List QueueOp} (h : queueOk s.par.capacity s.q)
    (he : s.q.empty = false) :
    runQueueOps (.pop :: ops) s = (runQueueOps ops s.taken).map fun r =>
      { r with popped := s.readByte .qmem s.q.startIdx :: r.popped } := by
  simp [runQueueOps, exec_pop_takes h he, poppedByte]

/-- First in, first out, along a run: induction on the operations, each of which stores at the young end, takes
at the old end, or leaves the queue as it is. -/
theorem runQueueOps_fifo (ops : List QueueOp) {s : State} (h : queueOk s.par.capacity s.q) :
    ∃ r, runQueueOps ops s = some r ∧ r.popped ++ heldBytes r.final = heldBytes s ++ r.accepted := by
  induction ops generalizing s with
  | nil => exact ⟨_, rfl, (List.append_nil _).symm⟩
  | cons op ops ih =>
    cases op with
    | push b =>
      cases hf : queueFull s.q
      · obtain ⟨r, hr, hfifo⟩ := ih (s := s.stored b) (queuePushed_ok h)
        refine ⟨{ r with accepted := b :: r.accepted }, by rw [runQueueOps_push_stores h hf, hr]; rfl, ?_⟩
        rw [hfifo, heldBytes_stored b h hf, List.append_assoc, List.singleton_append]
      · rw [runQueueOps_push_full hf]
        exact ih (s := s.setRet (.bool false)) h
    | pop =>
      cases he : s.q.empty
      · obtain ⟨r, hr, hfifo⟩ := ih (s := s.taken) (queuePopped_ok h)
        refine ⟨{ r with popped := s.readByte .qmem s.q.startIdx :: r.popped },
          by rw [runQueueOps_pop_takes h he, hr]; rfl, ?_⟩
        rw [heldBytes_taken h he, List.cons_append, List.cons_append, hfifo]
      · rw [runQueueOps_pop_empty he]
        exact ih (s := s.setRet (.byte none)) h

/-- Settles O12: the run's first-in first-out law; it needs R26 alone. -/
theorem queueIsFifo : Obligations.QueueIsFifo := fun ops _ h _ => runQueueOps_fifo ops h

/-- Bytes for which there is room are all held after pushing them, and the run goes on from there. -/
theorem runQueueOps_pushes (bs : List Byte) {s : State} (h : queueOk s.par.capacity s.q)
    (hroom : queueCount s.par.capacity s.q + bs.length ≤ s.par.capacity) :
    ∃ t, queueOk t.par.capacity t.q ∧ heldBytes t = heldBytes s ++ bs ∧
      ∀ ops, runQueueOps (bs.map .push ++ ops) s =
        (runQueueOps ops t).map fun r => { r with accepted := bs ++ r.accepted } := by
  induction bs generalizing s with
  | nil => exact ⟨s, h, (List.append_nil _).symm, fun ops => by simp⟩
  | cons b bs ih =>
    rw [List.length_cons] at hroom
    have hf := queueFull_eq_false_of_lt h (by omega)
    have hcount := queueCount_pushed (b := b) h hf
    obtain ⟨t, hok, hheld, hrun⟩ := ih (s := s.stored b) (queuePushed_ok h)
      (by rw [State.stored_par, State.stored_q]; omega)
    refine ⟨t, hok, ?_, fun ops => ?_⟩
    · rw [hheld, heldBytes_stored b h hf, List.append_assoc, List.singleton_append]
    · rw [List.map_cons, List.cons_append, runQueueOps_push_stores h hf, hrun, Option.map_map]
      rfl

/-- As many POPs as there are bytes held return them in order and leave the queue empty. -/
theorem runQueueOps_pops {bs : List Byte} {s : State} (h : queueOk s.par.capacity s.q) (hheld : heldBytes s = bs) :
    ∃ r, runQueueOps (List.replicate bs.length .pop) s = some r ∧ r.popped = bs ∧ r.final.q.empty = true := by
  induction bs generalizing s with
  | nil => exact ⟨_, rfl, rfl, (heldBytes_eq_nil h).mp hheld⟩
  | cons b bs ih =>
    have he : s.q.empty = false := Bool.eq_false_iff.mpr fun he => by
      rw [(heldBytes_eq_nil h).mpr he] at hheld
      cases hheld
    rw [heldBytes_taken h he] at hheld
    obtain ⟨hfirst, hrest⟩ := List.cons.inj hheld
    obtain ⟨r, hr, hpopped, hempty⟩ := ih (s := s.taken) (queuePopped_ok h) hrest
    refine ⟨{ r with popped := b :: r.popped }, ?_, by rw [hpopped], hempty⟩
    rw [List.length_cons, List.replicate_succ, runQueueOps_pop_takes h he, hr, hfirst]
    rfl

/-- Settles O13: the pushed bytes are the held ones, and the POPs return the held ones. -/
theorem fifoRoundTrip : Obligations.FifoRoundTrip := by
  intro bs s h _ he hlen
  have hcount := (queueCount_empty h).mp he
  obtain ⟨t, hok, hheld, hrun⟩ := runQueueOps_pushes bs h (by omega)
  rw [(heldBytes_eq_nil h).mpr he, List.nil_append] at hheld
  obtain ⟨r, hr, hpopped, hempty⟩ := runQueueOps_pops hok hheld
  exact ⟨{ r with accepted := bs ++ r.accepted }, by rw [hrun, hr]; rfl, hpopped, hempty⟩

end Sys2Proof.Machine
end

section
/-! PROOFS. SERIALIZE with and without enough capacity (O15, O16), and the whole frame of a SEND under READY
(O17). -/

namespace Sys2Proof.Machine

/-! ### Bytes written at the start of a space -/

@[simp] theorem State.mem_setRet (s : State) (r : Ret) (sp : Space) : (s.setRet r).mem sp = s.mem sp := by
  cases sp <;> rfl

@[simp] theorem State.mem_writeBytes_same (s : State) (sp : Space) (a : Nat) (bs : List Byte) :
    (s.writeBytes sp a bs).mem sp = Memory.writeAll (s.mem sp) a bs := by
  rw [State.writeBytes_eq, State.mem_setMem_same]

/-- Writing bytes at the start of a space keeps every byte from their end on. -/
theorem bytesKeptFrom_of_written {s t : State} {sp : Space} {bs : List Byte} {n : Nat} (hw : (s.mem sp).wf)
    (ht : t.mem sp = Memory.writeAll (s.mem sp) 0 bs) (hn : bs.length ≤ n) : bytesKeptFrom sp n s t :=
  WrittenBelow.kept (ht ▸ writeAll_below (s.mem sp) (by omega)) hw

/-- A space begins with the bytes written at its start. -/
theorem readBytes_of_written {s t : State} {sp : Space} {bs : List Byte} (hw : (s.mem sp).wf)
    (ht : t.mem sp = Memory.writeAll (s.mem sp) 0 bs) : t.readBytes sp 0 bs.length = bs := by
  rw [← State.mem_writeBytes_same] at ht
  rw [State.readBytes_congr ht]
  exact State.readBytes_writeBytes s sp 0 bs hw

/-! ### SERIALIZE -/

@[simp] theorem length_failedBytes (s : State) (k : Nat) : (failedBytes s k).length = k := by simp [failedBytes]

/-- SERIALIZE with enough capacity writes the body at the buffer's start and answers its size (R101). -/
theorem exec_serialize_fits {pkt : Packet} {cap : Nat} (h : packetSize pkt ≤ cap) (buf : Buffer) (s : State) :
    exec (.serialize pkt buf cap) s =
      .next ((s.writeBytes (bufferSpace buf) 0 (packetBody pkt)).setRet (.size (some (packetSize pkt)))) := by
  simp only [exec, execSerialize, serialize, if_neg (Nat.not_lt.mpr h)]

/-- The state after a SERIALIZE that failed for want of capacity (R107), by `exec_serialize_tooSmall`: free
bytes stand below the capacity, and the model's counter has moved past them. -/
def State.spoiled (sp : Space) (cap : Nat) (s : State) : State :=
  (s.setEnv { s.env with draws := s.env.draws + cap }).setMem sp (Memory.writeAll (s.mem sp) 0 (failedBytes s cap))

theorem exec_serialize_tooSmall {pkt : Packet} {cap : Nat} (h : cap < packetSize pkt) (buf : Buffer) (s : State) :
    exec (.serialize pkt buf cap) s = .next ((s.spoiled (bufferSpace buf) cap).setRet (.size none)) := by
  simp only [exec, execSerialize, serialize, if_pos h, Nat.min_eq_left h.le, State.writeBytes_eq]
  cases buf <;> rfl

/-- Settles O15: the one write of the body, read back and framed; the five bodies are the definition's. -/
theorem serializeWritesTheBody : Obligations.SerializeWritesTheBody := by
  refine ⟨fun pkt buf cap s hcap hw => ?_, rfl, rfl, rfl, rfl, fun _ => rfl⟩
  refine ⟨_, exec_serialize_fits hcap buf s, rfl, ?_, ?_, ?_⟩
  · rw [packetSize_eq]
    exact readBytes_of_written hw (by simp)
  · exact bytesKeptFrom_of_written hw (by simp) (packetSize_eq pkt).ge
  · simp [State.writeBytes_eq]

/-- Settles O16: exactly the bytes below the capacity are overwritten, and only the draw counter moves beside
them. -/
theorem serializeFailureIsContained : Obligations.SerializeFailureIsContained := by
  intro pkt buf cap s hcap hw
  have hmem : ((s.spoiled (bufferSpace buf) cap).setRet (.size none)).mem (bufferSpace buf) =
      Memory.writeAll (s.mem (bufferSpace buf)) 0 (failedBytes s cap) := by simp [State.spoiled]
  refine ⟨_, exec_serialize_tooSmall hcap buf s, rfl, ?_, ?_⟩
  · exact bytesKeptFrom_of_written hw hmem (length_failedBytes s cap).le
  · rw [hmem]
    cases buf <;> rfl

/-! ### SEND under READY -/

/-- Whatever becomes of the waits, a SEND whose body fits has written its frame at the start of TXBUF (R142). -/
theorem sendPacket_tbuf_fits {pkt : Packet} {s : State} (hc : packetSize pkt ≤ s.par.serCap)
    (hw : Memory.wf s.tbuf) :
    (sendPacket pkt s).2.tbuf = Memory.writeAll s.tbuf 0 (packetFrame s.par.checksum pkt) := by
  rw [sendPacket_tbuf, loadFrame_fits hc hw]
  exact State.mem_writeBytes_same s .txbuf 0 _

/-- Delivering SEND's result changes the result field alone (R161). -/
theorem sendReturning_setRet (pkt : Packet) (s : State) :
    (sendReturning pkt s).setRet s.ret = (sendPacket pkt s).2 := by
  have hret : s.ret = (sendPacket pkt s).2.ret := by rw [sendPacket_onlyTransmitted pkt s]
  rw [hret, sendReturning, State.setRet_setRet, State.setRet_self]

/-- An instruction that is a SEND of `pkt` (log 18) sends the packet whole under READY. -/
theorem sendsWhole_of_sends {i : Instr} {pkt : Packet} (hi : ∀ s, exec i s = .next (sendReturning pkt s)) :
    SendsWhole i pkt := by
  intro s ⟨hc, hw⟩ hr
  obtain ⟨hok, htx, hready⟩ := sendPacket_ready hc hw hr
  have hmem : (sendReturning pkt s).mem .txbuf =
      Memory.writeAll (s.mem .txbuf) 0 (packetFrame s.par.checksum pkt) := sendPacket_tbuf_fits hc hw
  have hlen : (packetFrame s.par.checksum pkt).length = packetSize pkt + 4 := length_packetFrame _ pkt
  refine ⟨_, hi s, congrArg Ret.bool hok, htx, ?_, ?_, hready, ?_⟩
  · rw [← hlen]
    exact readBytes_of_written (sp := .txbuf) hw hmem
  · exact bytesKeptFrom_of_written hw hmem hlen.le
  · have honly := sendPacket_onlyTransmitted pkt s
    rwa [← sendReturning_setRet] at honly

/-- Settles O17: SEND and the TX rows are the same send. -/
theorem sendEmitsTheFrame : Obligations.SendEmitsTheFrame :=
  ⟨fun pkt => sendsWhole_of_sends (exec_send pkt), sendsWhole_of_sends fun _ => rfl, sendsWhole_of_sends fun _ => rfl,
    sendsWhole_of_sends fun _ => rfl, sendsWhole_of_sends fun _ => rfl,
    fun _ => sendsWhole_of_sends fun _ => rfl⟩

end Sys2Proof.Machine
end

section
/-! PROOFS. PARSE_BYTE state by state (O26 to O30), DISPATCH (O32), PARSER_RESET and FRAMING_ERROR (O33). -/

namespace Sys2Proof.Machine

/-! ### Reset and dispatch (R121 to R128, R130) -/

/-- Settles O33: both are one update of the parser; FRAMING_ERROR's raise is one update of the latch. -/
theorem parserResetAndFramingError : Obligations.ParserResetAndFramingError := fun _ => ⟨rfl, rfl⟩

theorem handlerOf_eq_none {ty : PacketType} (hping : ty ≠ .ping) (hrequest : ty ≠ .request) : handlerOf ty = none := by
  cases ty with
  | ping => exact absurd rfl hping
  | request => exact absurd rfl hrequest
  | _ => rfl

theorem dispatchType_handled {ty : PacketType} {r : Reply} (h : handlerOf ty = some r) (s : State) :
    dispatchType ty s = runReply r s := by
  simp only [dispatchType, h]

theorem dispatchType_unhandled {ty : PacketType} (h : handlerOf ty = none) (s : State) :
    dispatchType ty s = s.setLatch true := by
  simp only [dispatchType, h, State.raise_eq]

/-- Settles O32: the two types with a handler run it, and every other type raises. -/
theorem dispatchByType : Obligations.DispatchByType :=
  fun s => ⟨rfl, rfl, fun _ hping hrequest =>
    congrArg Host.Outcome.next (dispatchType_unhandled (handlerOf_eq_none hping hrequest) s)⟩

/-! ### One byte in each state (R110 to R118) -/

/-- A parser with no room left drops the byte (R110). -/
theorem parseByte_exhausted {s : State} (hi : 16 ≤ s.p.idx) (b : Byte) : parseByte b s = s.failFrame := by
  have hx : bufferExhausted s.p = true := decide_eq_true hi
  apply parseByte_none
  simp only [parseStep, hx, if_true]

/-- Settles O30: the exhaustion test comes before the store. -/
theorem exhaustedBufferDropsTheByte : Obligations.ExhaustedBufferDropsTheByte :=
  fun _ b hi => congrArg Host.Outcome.next (parseByte_exhausted hi b)

/-- Settles O26: each magic state meets its byte or another. -/
theorem magicStates : Obligations.MagicStates := by
  refine ⟨fun s b hs hi => ⟨?_, fun hb => ?_⟩, fun s b hs hi => ⟨?_, fun hb => ?_⟩⟩
  · rintro rfl
    exact congrArg Host.Outcome.next (parseByte_magic0 hs hi)
  · exact congrArg Host.Outcome.next (parseByte_stray hs hi hb)
  · rintro rfl
    exact congrArg Host.Outcome.next (parseByte_magic1 hs hi)
  · exact congrArg Host.Outcome.next (parseByte_badSecond hs hi hb)

/-- The bytes 1 to 6 are the codes of the types without payload (R74, R114). -/
theorem exists_isShort {b : Byte} (hlo : 1 ≤ b.toNat) (hup : b.toNat ≤ 6) : ∃ ty, isShort ty ∧ typeCode ty = b := by
  obtain ⟨ty, hty⟩ : ∃ ty, typeOfByte b = some ty :=
    Option.ne_none_iff_exists'.mp fun hn => by have := typeOfByte_eq_none.mp hn; omega
  obtain rfl := typeOfByte_eq_some.mp hty
  refine ⟨ty, ⟨?_, ?_⟩, rfl⟩
  · rintro rfl
    exact absurd hlo (by decide)
  · rintro rfl
    exact absurd hup (by decide)

/-- Settles O27: the byte is the code of a type without payload, the code of RESPONSE, or no legal code. -/
theorem packetTypeState : Obligations.PacketTypeState := by
  have response : ∀ {b : Byte}, b.toNat = 7 → b = typeCode .response := fun h => BitVec.eq_of_toNat_eq h
  intro s b hs hi
  refine ⟨fun ⟨hlo, hup⟩ => ?_, fun hb hl => ?_, fun hb hl => ?_, fun hb => ?_⟩
  · obtain ⟨ty, hty, rfl⟩ := exists_isShort hlo hup
    exact ⟨ty, rfl, congrArg Host.Outcome.next (parseByte_short hs hi hty)⟩
  · rw [response hb]
    exact congrArg Host.Outcome.next (parseByte_response hs hi hl)
  · rw [response hb]
    exact congrArg Host.Outcome.next (parseByte_response_noStub hs hi hl)
  · exact congrArg Host.Outcome.next (parseByte_illegalType hs hi hb)

/-- Settles O28: PAYLOAD takes its byte, and CRC32 only stores until the fourth trailer byte. -/
theorem payloadAndTrailerBytesAreData : Obligations.PayloadAndTrailerBytesAreData :=
  ⟨fun _ _ hs hi => congrArg Host.Outcome.next (parseByte_payload hs hi),
    fun _ _ hs _ hup _ => congrArg Host.Outcome.next (parseByte_trailer hs (by omega) (by omega))⟩

/-! ### The end of a frame (R119, R120) -/

/-- Storing the fourth trailer byte completes the received checksum, least significant byte first. -/
theorem receivedChecksum_storeByte {s : State} (h : s.p.idx = s.p.boundary + 3) (b : Byte) :
    receivedChecksum (storeByte b s) = ofLE32 (s.readByte .rxbuf s.p.boundary)
      (s.readByte .rxbuf (s.p.boundary + 1)) (s.readByte .rxbuf (s.p.boundary + 2)) b := by
  have hbound : (storeByte b s).p.boundary = s.p.boundary := rfl
  simp [receivedChecksum, hbound, readByte_storeByte, h]

/-- A store at or beyond the boundary leaves the checksummed bytes alone. -/
theorem computedChecksum_storeByte {s : State} (h : s.p.boundary ≤ s.p.idx) (b : Byte) :
    computedChecksum (storeByte b s) = checksumOf s.par.checksum (s.readBytes .rxbuf 0 s.p.boundary) := by
  rw [← readBytes_storeByte_below b h]
  rfl

/-- Settles O29: the comparison after the store, over the bytes that stood in RXBUF before it. -/
theorem frameCompletion : Obligations.FrameCompletion := by
  intro s b hs hidx hi _ stored rx computed
  have hlast := parseByte_last (b := b) hs hi (by omega)
  rw [receivedChecksum_storeByte hidx, computedChecksum_storeByte (by omega)] at hlast
  refine ⟨fun hne => ?_, fun heq t ht => ?_⟩
  · rw [if_pos hne] at hlast
    exact congrArg Host.Outcome.next hlast
  · rw [if_neg (not_not_intro heq)] at hlast
    obtain rfl := Host.Outcome.next.inj ht
    exact congrArg Host.Outcome.next hlast

end Sys2Proof.Machine
end

section
/-! PROOFS. Whole received frames from an idle parser: accepted (O34, O35, O59), rejected (O36 to O39), after stray
bytes (O40, O41), and the bound on their length (O43). -/

namespace Sys2Proof.Machine

/-! ### The two ends of a frame (R119, R120) -/

/-- The parser after a whole frame (R119), by `frameEnd_rejected`, `frameEnd_unhandled` and `frameEnd_accepted`: the
frame stands in RXBUF, the parser is reset, type and boundary are the frame's. -/
def parserAfter (body : List Byte) (crc : Word) (ty : PacketType) (s : State) : Parser :=
  { state := .firstMagic, buf := Memory.writeAll s.p.buf 0 (body ++ le32Bytes crc), idx := 0,
    boundary := body.length, type := ty }

theorem frameEnd_rejected {body : List Byte} {crc : Word} {s : State} (h : crc ≠ s.crc body) (ty : PacketType) :
    frameEnd body crc ty s = (s.setParser (parserAfter body crc ty s)).setLatch true :=
  if_pos h

/-- A type without a handler ends in an error whatever its trailer (R120, R123 to R127). -/
theorem frameEnd_unhandled {ty : PacketType} (h : handlerOf ty = none) (body : List Byte) (crc : Word) (s : State) :
    frameEnd body crc ty s = (s.setParser (parserAfter body crc ty s)).setLatch true := by
  by_cases hcrc : crc ≠ s.crc body
  · exact frameEnd_rejected hcrc ty
  · rw [frameEnd, if_neg hcrc, dispatchType_unhandled h]
    rfl

/-- No reply looks at the parser. -/
theorem runReply_setParser (p : Parser) (r : Reply) (s : State) :
    runReply r (s.setParser p) = (runReply r s).setParser p := by
  have hraise : ∀ ok t, raiseUnlessSent (ok, State.setParser t p) = (raiseUnlessSent (ok, t)).setParser p := by
    intro ok t
    cases ok <;> rfl
  cases r with
  | pong => simp only [runReply, sendPong, sendPacket_beside (beside_setParser p), hraise]
  | temperature =>
    simp only [runReply, sendTemperature, readTemp_beside (beside_setParser p),
      sendPacket_beside (beside_setParser p), hraise]

theorem frameEnd_accepted {ty : PacketType} {r : Reply} (h : handlerOf ty = some r) (body : List Byte) (s : State) :
    frameEnd body (s.crc body) ty s = (runReply r s).setParser (parserAfter body (s.crc body) ty s) := by
  rw [frameEnd, if_neg (not_not_intro rfl), dispatchType_handled h, frameStored, runReply_setParser]
  rfl

/-! ### Short frames as instructions (R79) -/

theorem shortFrameInstr_received {ty : PacketType} {crc : Word} {i : Instr} (h : shortFrameInstr ty crc = some i) :
    isShort ty ∧ isReceived i = true ∧ ∀ P, encode P i = encodeShort ty crc := by
  cases ty with
  | invalid | response => cases h
  | error | ping | pong | request | requestContinuousStart | requestContinuousStop =>
    cases h
    exact ⟨by decide, rfl, fun _ => rfl⟩

/-- A short frame's row is the end of that frame (R112 to R114, R118, R119; log 17). -/
theorem exec_shortFrame {ty : PacketType} {crc : Word} {i : Instr} {s : State} (hi : shortFrameInstr ty crc = some i)
    (hp : parserIdle s) (hw : Memory.wf s.p.buf) : exec i s = .next (frameEnd (header ty) crc ty s) := by
  obtain ⟨hty, hreceived, hencode⟩ := shortFrameInstr_received hi
  rw [exec_received hreceived, hencode, parseBytes_shortFrame hp hty hw]

/-- A short frame with the right trailer, of a type that has a handler, is that handler's reply. -/
theorem exec_acceptedFrame {ty : PacketType} {r : Reply} {i : Instr} {s : State}
    (hi : shortFrameInstr ty (shortChecksum s ty) = some i) (hr : handlerOf ty = some r) (hp : parserIdle s)
    (hw : Memory.wf s.p.buf) :
    exec i s = .next ((runReply r s).setParser (parserAfter (header ty) (shortChecksum s ty) ty s)) :=
  (exec_shortFrame hi hp hw).trans (congrArg Host.Outcome.next (frameEnd_accepted hr (header ty) s))

theorem exec_acceptedPing {s : State} (hp : parserIdle s) (hw : Memory.wf s.p.buf) :
    exec (.rxPing (shortChecksum s .ping)) s =
      .next ((sendPong s).setParser (parserAfter (header .ping) (shortChecksum s .ping) .ping s)) :=
  exec_acceptedFrame (r := .pong) rfl rfl hp hw

theorem exec_acceptedRequest {s : State} (hp : parserIdle s) (hw : Memory.wf s.p.buf) :
    exec (.rxRequest (shortChecksum s .request)) s =
      .next ((sendTemperature s).setParser (parserAfter (header .request) (shortChecksum s .request) .request s)) :=
  exec_acceptedFrame (r := .temperature) rfl rfl hp hw

/-! ### Frames that are rejected (R116, R120, R123 to R127) -/

/-- Settles O36: the four rows are short frames of types without a handler. -/
theorem unhandledFramesRaise : Obligations.UnhandledFramesRaise := by
  intro s i hp hw hi
  obtain ⟨ty, hty, hframe⟩ : ∃ ty, handlerOf ty = none ∧ shortFrameInstr ty (shortChecksum s ty) = some i := by
    rcases hi with rfl | rfl | rfl | rfl
    · exact ⟨.error, rfl, rfl⟩
    · exact ⟨.pong, rfl, rfl⟩
    · exact ⟨.requestContinuousStart, rfl, rfl⟩
    · exact ⟨.requestContinuousStop, rfl, rfl⟩
  refine ⟨_, exec_shortFrame hframe hp hw, ?_⟩
  rw [frameEnd_unhandled hty]
  exact ⟨rfl, ⟨rfl, rfl⟩, rfl⟩

/-- Settles O37: RESPONSE has no handler, so neither the stub nor the trailer matters. -/
theorem receivedResponseAlwaysRaises : Obligations.ReceivedResponseAlwaysRaises := by
  intro s stub crc hp hw hf
  refine ⟨_, exec_rxResponse stub crc s, ?_⟩
  rw [parseBytes_responseFrame hp hf hw, frameEnd_unhandled rfl]
  exact ⟨⟨rfl, rfl⟩, rfl, by simp [parserAfter], rfl⟩

/-- Settles O38: the frame ends at its type byte. -/
theorem illegalTypesRaise : Obligations.IllegalTypesRaise := by
  intro s i hp hf hi
  obtain ⟨b, hb, hexec⟩ : ∃ b : Byte, (b.toNat = 0 ∨ 8 ≤ b.toNat) ∧
      exec i s = .next (parseBytes [Config.magic0, Config.magic1, b] s) := by
    rcases hi with rfl | ⟨b, rfl⟩
    · exact ⟨typeCode .invalid, .inl rfl, exec_rxInvalid s⟩
    · exact ⟨b, .inr (of_decide_eq_true hf), exec_rxUnassigned b s⟩
  refine ⟨_, hexec, ?_⟩
  rw [parseBytes_illegalFrame hp hb]
  exact ⟨⟨rfl, rfl⟩, rfl, rfl, rfl⟩

/-- Flipping one bit of a word changes it. -/
theorem xor_twoPow_ne {k : Nat} (hk : k < 32) (w : Word) : w ^^^ BitVec.twoPow 32 k ≠ w := by
  intro h
  have hbit := congrArg (BitVec.getLsbD · k) h
  simp [hk] at hbit

/-- Settles O39: a trailer with one bit flipped is a wrong trailer. -/
theorem wrongTrailerIsRejected : Obligations.WrongTrailerIsRejected := by
  intro s ty hp hw
  have wrong : ∀ (crc : Word) (i : Instr), shortFrameInstr ty crc = some i → crc ≠ shortChecksum s ty →
      ∃ t, exec i s = .next t ∧ parserIdle t ∧ t = (s.setParser t.p).setLatch true := by
    intro crc i hi hne
    refine ⟨_, exec_shortFrame hi hp hw, ?_⟩
    rw [frameEnd_rejected hne]
    exact ⟨⟨rfl, rfl⟩, rfl⟩
  exact ⟨wrong, fun k i hk hi => wrong _ i hi (xor_twoPow_ne hk _)⟩

/-! ### Accepted frames in every environment (R146, R147, R170) -/

theorem raiseUnlessSent_eq (ok : Bool) (s : State) : raiseUnlessSent (ok, s) = s.setLatch (s.latch || !ok) := by
  cases ok <;> simp [raiseUnlessSent]

theorem OnlyTransmitted.latch {s t : State} (h : OnlyTransmitted s t) : t.latch = s.latch := by rw [h]

/-- Reading the supplier uses up the scripted answer, if there is one, and otherwise draws (R180). -/
theorem readTemp_eq (s : State) :
    s.readTemp.2 = s.setEnv { s.env with temps := s.env.temps.tail, draws := s.readTemp.2.env.draws } := by
  unfold State.readTemp
  split
  next h => simp [h]
  next h => simp [h]

theorem readTemp_latch (s : State) : s.readTemp.2.latch = s.latch := by
  rw [readTemp_eq]
  rfl

theorem sendReturning_ret (pkt : Packet) (s : State) :
    (sendReturning pkt s).ret = .bool true ∨ (sendReturning pkt s).ret = .bool false := by
  show Ret.bool (sendPacket pkt s).1 = _ ∨ Ret.bool (sendPacket pkt s).1 = _
  cases (sendPacket pkt s).1 with
  | true => exact .inl rfl
  | false => exact .inr rfl

/-- What a handler makes of its SEND, told from the SEND's own result. -/
theorem raiseUnlessSent_sendPacket (pkt : Packet) (s : State) :
    raiseUnlessSent (sendPacket pkt s) = ((sendReturning pkt s).setRet s.ret).setLatch
      (s.latch || decide ((sendReturning pkt s).ret = .bool false)) := by
  have hret : decide ((sendReturning pkt s).ret = .bool false) = !(sendPacket pkt s).1 := by
    show decide (Ret.bool (sendPacket pkt s).1 = _) = _
    cases (sendPacket pkt s).1 <;> rfl
  rw [hret, sendReturning_setRet, ← (sendPacket_onlyTransmitted pkt s).latch]
  exact raiseUnlessSent_eq _ _

/-- Settles O59: the reply is the SEND with its result turned into the latch, and does not look at the parser. -/
theorem acceptedFramesDoWhatTheirSendDoes : Obligations.AcceptedFramesDoWhatTheirSendDoes := by
  intro s u hp hw
  constructor
  · intro hu
    obtain rfl := Host.Outcome.next.inj hu
    refine ⟨_, exec_acceptedPing hp hw, ⟨rfl, rfl⟩, rfl, rfl, sendReturning_ret _ _, ?_⟩
    show (raiseUnlessSent (sendPacket .pong s)).setParser _ = _
    rw [raiseUnlessSent_sendPacket]
    rfl
  · intro hu
    obtain rfl := Host.Outcome.next.inj hu
    refine ⟨_, exec_acceptedRequest hp hw, ⟨rfl, rfl⟩, rfl, rfl, sendReturning_ret _ _, ?_⟩
    show (raiseUnlessSent (sendPacket (.responseTemp s.readTemp.1) s.readTemp.2)).setParser _ = _
    rw [raiseUnlessSent_sendPacket, readTemp_latch, (readTemp_ran s).ret]
    rfl

/-! ### Accepted frames under READY (R121, R122) -/

theorem OnlyTransmitted.queue {s t : State} (h : OnlyTransmitted s t) : t.q = s.q := by rw [h]

theorem OnlyTransmitted.temps {s t : State} (h : OnlyTransmitted s t) : t.env.temps = s.env.temps := by rw [h]

/-- Under READY a handler's SEND emits its whole frame, and its result raises nothing. -/
theorem raiseUnlessSent_ready {pkt : Packet} {s : State} (hc : canSend pkt s) (hr : readyFor (packetSize pkt + 4) s) :
    OnlyTransmitted s (raiseUnlessSent (sendPacket pkt s)) ∧
      (raiseUnlessSent (sendPacket pkt s)).env.tx = s.env.tx ++ packetFrame s.par.checksum pkt := by
  obtain ⟨hok, htx, -⟩ := sendPacket_ready hc.1 hc.2 hr
  have honly := sendPacket_onlyTransmitted pkt s
  rcases hsend : sendPacket pkt s with ⟨ok, t⟩
  rw [hsend] at hok htx honly
  obtain rfl : ok = true := hok
  exact ⟨honly, htx⟩

/-- Settles O34: the PONG handler under READY. -/
theorem pingIsAnsweredByPong : Obligations.PingIsAnsweredByPong := by
  intro s hp hw hc hr
  obtain ⟨honly, htx⟩ := raiseUnlessSent_ready hc hr
  exact ⟨_, exec_acceptedPing hp hw, htx, honly.latch, ⟨rfl, rfl⟩, rfl, rfl, honly.queue, honly.temps⟩

/-- Settles O35: the temperature handler under READY, after the one answer of the supplier. -/
theorem requestIsAnsweredByTheTemperature : Obligations.RequestIsAnsweredByTheTemperature := by
  intro s hp hw hc hr
  have hread := readTemp_eq s
  have hc' : canSend (.responseTemp s.readTemp.1) s.readTemp.2 := by
    rw [hread]
    exact hc
  have hr' : readyFor 11 s.readTemp.2 := by
    rw [hread]
    exact hr
  obtain ⟨honly, htx⟩ := raiseUnlessSent_ready hc' hr'
  refine ⟨_, exec_acceptedRequest hp hw, htx.trans ?_, honly.latch.trans ?_, ⟨rfl, rfl⟩, rfl, rfl,
    honly.queue.trans ?_, honly.temps.trans ?_⟩
  all_goals
    rw [hread]
    rfl

/-! ### Stray bytes before a frame (R131, R195) -/

theorem OnlyParsed.env {s t : State} (h : OnlyParsed s t) : t.env = s.env := by
  rw [h.1]
  rfl

/-- Garbage with no 0xAA costs an error a byte and leaves the parser idle (R112, R131). -/
theorem parseBytes_garbage {g : List Byte} {s : State} (hp : parserIdle s) (hg : Config.magic0 ∉ g) :
    parserIdle (parseBytes g s) ∧ OnlyParsed s (parseBytes g s) ∧
      (parseBytes g s).latch = (s.latch || !g.isEmpty) := by
  induction g generalizing s with
  | nil => exact ⟨hp, OnlyParsed.refl s, by simp [parseBytes]⟩
  | cons b g ih =>
    obtain ⟨hb, hg⟩ := not_or.mp fun h => hg (List.mem_cons.mpr h)
    have hbyte := parseByte_stray hp.1 (by rw [hp.2]; decide) (Ne.symm hb)
    have hparsed : OnlyParsed s (parseByte b s) := by
      rw [hbyte]
      exact (setParser_onlyParsed s _).trans (failFrame_onlyParsed _)
    obtain ⟨hidle, honly, hlatch⟩ := ih (s := parseByte b s) (by rw [hbyte]; exact ⟨rfl, rfl⟩) hg
    refine ⟨hidle, hparsed.trans honly, hlatch.trans ?_⟩
    rw [hbyte]
    simp

theorem parseBytes_wf (bs : List Byte) {s : State} (hw : Memory.wf s.p.buf) : Memory.wf (parseBytes bs s).p.buf := by
  induction bs generalizing s with
  | nil => exact hw
  | cons b bs ih => exact ih (parseByte_wf hw b)

/-- A run that goes on after PARSE_BYTE of some bytes (R87, R88). -/
theorem execAll_parseBytes (bs : List Byte) (is : List Instr) (s : State) :
    execAll (bs.map .parseByte ++ is) s = execAll is (parseBytes bs s) := by
  rw [execAll_append, execAll_parseByte]

theorem execAll_singleton {i : Instr} {s t : State} (h : exec i s = .next t) : execAll [i] s = .next t := by
  simp only [execAll, h]

/-- Settles O40: after the garbage the parser is idle and nothing that the PING needs has changed. -/
theorem garbageThenPingIsAnswered : Obligations.GarbageThenPingIsAnswered := by
  intro s g hp hw hc hr hg
  obtain ⟨hidle, honly, hlatch⟩ := parseBytes_garbage hp hg
  have hw' := parseBytes_wf g hw
  rw [execAll_parseBytes]
  generalize parseBytes g s = v at *
  have hpar : v.par = s.par := honly.ran.advances.par
  have henv := honly.env
  have hc' : canSend .pong v := ⟨by rw [hpar]; exact hc.1, by rw [honly.txbuf]; exact hc.2⟩
  have hr' : readyFor 7 v := by
    rw [readyFor, henv]
    exact hr
  obtain ⟨t, ht, htx, htl, hti, -⟩ := pingIsAnsweredByPong v hidle hw' hc' hr'
  rw [shortChecksum, hpar] at ht
  refine ⟨t, execAll_singleton ht, ?_, hti, htl.trans hlatch⟩
  rw [htx, henv, hpar]

/-! ### Too few bytes for a frame (R77, R129) -/

theorem parserIdle.between {s : State} (h : parserIdle s) : parserBetweenBytes s := by
  unfold parserBetweenBytes
  rw [h.1]
  exact h.2

theorem completeFrame_idx (s : State) : (completeFrame s).1.p.idx ≤ s.p.idx := by
  unfold completeFrame
  split
  · exact Nat.zero_le _
  · split
    · exact Nat.le_refl _
    · exact Nat.zero_le _

/-- No state handler moves the index on: the store did (R111). -/
theorem handleByte_idx (st : ParserState) (b : Byte) (s : State) : (handleByte st b s).1.p.idx ≤ s.p.idx := by
  cases st with
  | firstMagic =>
    show (inFirstMagic b s).p.idx ≤ _
    unfold inFirstMagic
    split
    · exact Nat.le_refl _
    · exact Nat.zero_le _
  | secondMagic =>
    show (inSecondMagic b s).p.idx ≤ _
    unfold inSecondMagic
    split
    · exact Nat.le_refl _
    · exact Nat.zero_le _
  | packetType =>
    show (inPacketType b s).p.idx ≤ _
    unfold inPacketType
    split
    · exact Nat.le_refl _
    · split <;> exact Nat.le_refl _
    · exact Nat.zero_le _
  | payload => exact Nat.le_refl _
  | crc32 =>
    show (inCrc32 s).1.p.idx ≤ _
    unfold inCrc32
    split
    · exact completeFrame_idx s
    · exact Nat.le_refl _

theorem parseStep_idx {b : Byte} {s t : State} {r : Option Reply} (h : parseStep b s = (t, r)) :
    t.p.idx ≤ s.p.idx + 1 := by
  obtain rfl : (parseStep b s).1 = t := congrArg Prod.fst h
  unfold parseStep
  split
  · exact Nat.zero_le _
  · exact handleByte_idx s.p.state b (storeByte b s)

/-- Bytes that cannot reach the end of a shortest frame get no reply (R77, R119). -/
theorem parseBytes_tooFew {bs : List Byte} {s : State} (h : parserBetweenBytes s) (hn : s.p.idx + bs.length ≤ 6) :
    OnlyParsed s (parseBytes bs s) := by
  induction bs generalizing s with
  | nil => exact OnlyParsed.refl s
  | cons b bs ih =>
    rw [List.length_cons] at hn
    have honly := parseStep_onlyParsed b s
    rcases hp : parseStep b s with ⟨t, _ | r⟩ <;> rw [hp] at honly <;> have hidx := parseStep_idx hp
    · have hrest := ih (parseStep_between h hp) (by omega)
      rw [← parseByte_none hp] at honly hrest
      exact honly.trans hrest
    · obtain ⟨-, hb, hi⟩ := parserBetween_reply h hp
      simp only [Config.headerLen, Config.crcLen] at hb hi
      omega

/-- A second 0xAA after an idle parser's first is the rejected byte of SECOND_MAGIC (R113). -/
theorem parseBytes_doubleMagic {s : State} (hp : parserIdle s) :
    parserIdle (parseBytes [Config.magic0, Config.magic0] s) ∧
      OnlyParsed s (parseBytes [Config.magic0, Config.magic0] s) ∧
      (parseBytes [Config.magic0, Config.magic0] s).latch = true := by
  have honly := parseBytes_tooFew (bs := [Config.magic0, Config.magic0]) hp.between (by rw [hp.2]; decide)
  have hfirst := parseByte_magic0 hp.1 (by rw [hp.2]; decide)
  have hsecond := parseByte_badSecond (b := Config.magic0) (s := parseByte Config.magic0 s)
    (by rw [hfirst]; rfl) (by simp [hfirst, hp.2]) (by decide)
  have heq : parseBytes [Config.magic0, Config.magic0] s =
      (storeByte Config.magic0 (parseByte Config.magic0 s)).failFrame := hsecond
  rw [heq] at honly ⊢
  exact ⟨⟨rfl, rfl⟩, honly, rfl⟩

/-- Settles O41: SECOND_MAGIC rejects the frame's own 0xAA, and the six bytes left are too few for a frame. -/
theorem strayMagicLosesTheFrame : Obligations.StrayMagicLosesTheFrame := by
  intro s hp _
  obtain ⟨hidle, hmagic, hlatch⟩ := parseBytes_doubleMagic hp
  have hrest := parseBytes_tooFew (bs := Config.magic1 :: typeCode .ping :: le32Bytes (shortChecksum s .ping))
    hidle.between (by simp [hidle.2])
  exact ⟨_, rfl, congrArg Env.tx (hmagic.trans hrest).env, hrest.2 hlatch⟩

/-- Settles O43: R32 is kept by every byte, and bounds the index. -/
theorem frameLengthIsBounded : Obligations.FrameLengthIsBounded := by
  intro bs s hp hw
  obtain ⟨hbetween, hbelow⟩ := parseBytes_between hp.between bs
  exact ⟨_, execAll_parseByte bs s, parserBetween_idx hbetween, hbelow.kept (sp := .rxbuf) hw⟩

end Sys2Proof.Machine
end

section
/-! PROOFS. End to end: a frame in the queue, accepted (O48) and not accepted (O49). -/

namespace Sys2Proof.Machine

/-- The held bytes depend on the queue and the parameters only. -/
theorem heldBytes_setQueue {s t : State} (q : Queue) (h : t.par = s.par) :
    heldBytes (t.setQueue q) = heldBytes (s.setQueue q) :=
  heldBytes_congr rfl h

/-- Settles O48: no byte of the frame raises, so the seven iterations are the parse of the frame. -/
theorem queuedPingIsAnsweredInSevenIterations : Obligations.QueuedPingIsAnsweredInSevenIterations := by
  intro s hinv hp hl hc hr hheld
  have hparse : parseBytes (encodeShort .ping (shortChecksum s .ping)) s =
      (sendPong s).setParser (parserAfter (header .ping) (shortChecksum s .ping) .ping s) :=
    Host.Outcome.next.inj (exec_acceptedPing hp hinv.rxbufWf)
  obtain ⟨honly, htx⟩ := raiseUnlessSent_ready hc hr
  have hlatch : (sendPong s).latch = false := honly.latch.trans hl
  obtain ⟨q, hrun, -, hempty⟩ := mainIters_held (bs := encodeShort .ping (shortChecksum s .ping)) (rest := [])
    hinv.queue (hheld.trans (List.append_nil _).symm) (by rw [hparse]; exact hlatch)
  rw [hparse] at hrun
  have hpar : (sendPong s).par = s.par := (sendPong_ran s).advances.par
  exact ⟨_, hrun, htx, (heldBytes_setQueue q hpar).trans hempty, ⟨rfl, rfl⟩, hlatch⟩

theorem parseByte_setQueue (q : Queue) (b : Byte) (s : State) :
    parseByte b (s.setQueue q) = (parseByte b s).setQueue q := by
  rw [← interrupted_keep, parseByte_interrupted, interrupted_keep]

/-- Iterations over a queue of which no byte but the last raises: the parse of all the bytes, then one report. -/
theorem mainIters_last {bs : List Byte} {b : Byte} {s : State} (hq : queueOk s.par.capacity s.q)
    (hheld : heldBytes s = bs ++ [b]) (hl : (parseBytes bs s).latch = false) :
    ∃ q, heldBytes (s.setQueue q) = [] ∧ execAll (List.replicate (bs.length + 1) .mainIter) s =
      .next (reportErrors ((parseBytes (bs ++ [b]) s).setQueue q)) := by
  obtain ⟨q, hrun, hok, hlast⟩ := mainIters_held hq hheld hl
  have hpar : (parseBytes bs s).par = s.par := (parseBytes_ran bs s).advances.par
  rw [← heldBytes_setQueue q hpar] at hlast
  obtain ⟨-, hempty, hiter⟩ := mainIter_held (by rw [State.setQueue_par, hpar]; exact hok) hlast
  rw [State.setQueue_setQueue, parseByte_setQueue] at hiter
  refine ⟨_, (heldBytes_setQueue _ hpar.symm).trans hempty, ?_⟩
  rw [List.replicate_succ', execAll_append, hrun, parseBytes_append]
  exact execAll_singleton hiter

/-- Under READY the report of a set latch clears it and emits one ERROR frame (R157, R148). -/
theorem reportErrors_ready {s : State} (hl : s.latch = true) (hc : canSend .error s) (hr : readyFor 7 s) :
    OnlyTransmitted (s.setLatch false) (reportErrors s) ∧
      (reportErrors s).env.tx = s.env.tx ++ packetFrame s.par.checksum .error := by
  have heq : reportErrors s = sendError (s.setLatch false) := by
    unfold reportErrors testAndClear
    rw [hl]
  rw [heq]
  exact ⟨sendPacket_onlyTransmitted .error _, (sendPacket_ready (s := s.setLatch false) hc.1 hc.2 hr).2.1⟩

theorem OnlyTransmitted.params {s t : State} (h : OnlyTransmitted s t) : t.par = s.par := by rw [h]

/-- A short frame that is not accepted: its trailer is wrong, or its type has no handler (R120, R123 to R126). -/
theorem parseBytes_notAccepted {ty : PacketType} {crc : Word} {s : State} (hty : isShort ty) (hp : parserIdle s)
    (hw : Memory.wf s.p.buf) (h : crc ≠ shortChecksum s ty ∨ (ty ≠ .ping ∧ ty ≠ .request)) :
    parseBytes (encodeShort ty crc) s = (s.setParser (parserAfter (header ty) crc ty s)).setLatch true := by
  rw [parseBytes_shortFrame hp hty hw]
  rcases h with hcrc | ⟨hping, hrequest⟩
  · exact frameEnd_rejected hcrc ty
  · exact frameEnd_unhandled (handlerOf_eq_none hping hrequest) (header ty) crc s

/-- Settles O49: the frame's last byte raises and the seventh iteration reports it. -/
theorem queuedBadFrameIsAnsweredByOneError : Obligations.QueuedBadFrameIsAnsweredByOneError := by
  intro s ty crc hinv hp hl hc hr hinvalid hresponse hbad hheld
  have hty : isShort ty := ⟨hinvalid, hresponse⟩
  have hsix := parseBytes_sixBytes hp hty (crc.extractLsb' 0 8) (crc.extractLsb' 8 8) (crc.extractLsb' 16 8)
  obtain ⟨q, hempty, hrun⟩ := mainIters_last (b := crc.extractLsb' 24 8) hinv.queue hheld (by rw [hsix]; exact hl)
  change _ = Host.Outcome.next (reportErrors ((parseBytes (encodeShort ty crc) s).setQueue q)) at hrun
  rw [parseBytes_notAccepted hty hp hinv.rxbufWf hbad] at hrun
  obtain ⟨honly, htx⟩ := reportErrors_ready
    (s := ((s.setParser (parserAfter (header ty) crc ty s)).setLatch true).setQueue q) rfl hc hr
  refine ⟨_, hrun, htx, ?_, ?_, honly.latch⟩
  · exact (heldBytes_congr (s := s.setQueue q) honly.queue honly.params).trans hempty
  · rw [parserIdle, honly.parser]
    exact ⟨rfl, rfl⟩

end Sys2Proof.Machine
end

section
/-! PROOFS. The transmit assembler in every environment: the wait of a byte (O20, O21), SEND (O18, O19), the three
senders (O22 to O25), the error report (O45); and that no step stops the block (O58). -/

namespace Sys2Proof.Machine

/-! ### One round of polling (R144) -/

theorem pollOnce_set {s : State} {r : List Bool} (t0 : Nat) (hr : s.env.ready = true :: r) :
    pollOnce t0 s = (.ready, s.setEnv { s.env with ready := r }) := by
  simp only [pollOnce, hr]

/-- A round that finds the flag clear reads the tick and decides by the deadline. -/
theorem pollOnce_clear {s : State} {r : List Bool} {d : Nat} {ds : List Nat} (t0 : Nat)
    (hr : s.env.ready = false :: r) (hd : s.env.dt = d :: ds) :
    pollOnce t0 s =
      (if deadlineElapsed s.par.tickWidth (tickOf s.par.tickWidth (s.env.now + d)) t0 then .timeout else .again,
        s.setEnv { s.env with ready := r, dt := ds, now := s.env.now + d, draws := s.env.draws + 1 }) := by
  simp only [pollOnce, hr, State.readTick, State.nextAdvance, State.setEnv_env, State.setEnv_par, State.setEnv_setEnv,
    hd, List.tail_cons]

/-- Settles O20: the step at a polling control point is one round, and its deadline is the integer one. -/
theorem onePollOfTheWait : Obligations.OnePollOfTheWait := by
  intro s o n i t0 hs hc ht0
  have hstep := (step_of_main (fetch_nothing hs)).trans (MainMove.polls hc).step
  refine ⟨fun r hr => ?_, fun r d ds hr hd => ?_⟩
  · rw [hstep, pollOnce_set t0 hr]
    rfl
  · rw [hstep, pollOnce_clear t0 hr hd, deadlineElapsed_int ht0, apply_ite (afterPoll o n i t0)]
    simp only [decide_eq_true_eq, afterPoll]

/-! ### SEND_BYTE (R144, R145) -/

theorem Waited.tx {s t : State} (h : Waited s t) : t.env.tx = s.env.tx := by
  rw [h.1]
  rfl

theorem sendByte_tx (b : Byte) (s : State) : (sendByte b s).2.env.tx = s.env.tx ++ [b] := (sendByte_waited b s).tx

/-- A wait is abandoned only when more than 100 ms have passed since its byte was written. -/
theorem sendByte_false {b : Byte} {s : State} (h : (sendByte b s).1 = false) :
    s.env.now + 100 < (sendByte b s).2.env.now := by
  have hstart : s.env.now ≤ (s.emitTx b).readTick.2.env.now := (readTick_waited (s.emitTx b)).2
  have hloop : pollLoop (s.emitTx b).readTick.1 ((s.emitTx b).readTick.2.env.ready.length + 1)
      (s.emitTx b).readTick.2 = (false, (sendByte b s).2) := Prod.ext h rfl
  have hwait := pollLoop_false rfl (Nat.le_refl _) (Nat.lt_succ_self _) hloop
  omega

/-- Settles O21: the wait moves the script and the clock alone; its two answers by the first poll and the clock. -/
theorem sendByteEmitsAndWaits : Obligations.SendByteEmitsAndWaits := by
  intro s b
  have hw := sendByte_waited b s
  have hret : (sendByte b s).2.ret = s.ret := hw.ran.ret
  refine ⟨_, (sendByte b s).1, rfl, rfl, sendByte_tx b s, ?_, fun hr => ?_, sendByte_false⟩
  · rw [State.setRet_setRet, ← hret, State.setRet_self]
    exact hw
  · obtain ⟨r, hr⟩ := List.head?_eq_some_iff.mp hr
    exact (sendByte_ready hr).1

/-! ### SEND in every environment (R140 to R143) -/

/-- Whatever becomes of its waits, a SEND whose body fits leaves its frame at the start of TXBUF (R142). -/
theorem sendPacket_frame {pkt : Packet} {s : State} (hc : packetSize pkt ≤ s.par.serCap) (hw : Memory.wf s.tbuf) :
    (sendPacket pkt s).2.readBytes .txbuf 0 (packetSize pkt + 4) = packetFrame s.par.checksum pkt := by
  have hlen : (packetFrame s.par.checksum pkt).length = packetSize pkt + 4 := length_packetFrame _ pkt
  rw [← hlen]
  exact readBytes_of_written (sp := .txbuf) hw (sendPacket_tbuf_fits hc hw)

/-- A SEND whose body does not fit spoils TXBUF below its capacity (R107). -/
theorem sendPacket_tbuf_tooBig {pkt : Packet} {s : State} (hc : s.par.serCap < packetSize pkt) :
    (sendPacket pkt s).2.tbuf = Memory.writeAll s.tbuf 0 (failedBytes s s.par.serCap) := by
  rw [sendPacket_tbuf]
  simp only [loadFrame, serialize, if_pos hc, Nat.min_eq_left hc.le]
  exact State.mem_writeBytes_same s .txbuf 0 _

/-- Settles O18: the body fits or not; either way SEND only transmits. -/
theorem sendTraceIsABeginningOfTheFrame : Obligations.SendTraceIsABeginningOfTheFrame := by
  intro pkt s hw
  refine ⟨_, (sendPacket pkt s).1, exec_send pkt s, rfl, ?_, fun hc => ⟨?_, ?_, ?_⟩, fun hc => ?_⟩
  · rw [sendReturning_setRet]
    exact sendPacket_onlyTransmitted pkt s
  · obtain ⟨k, hpos, hle, hall, htx, -⟩ := sendPacket_spec hc hw
    exact ⟨k, hpos, hle, htx, hall⟩
  · exact sendPacket_frame hc hw
  · exact (sendPacket_below hw).kept (sp := .txbuf) hw
  · obtain ⟨hno, htx⟩ := sendPacket_tooBig hc
    exact ⟨hno, htx, bytesKeptFrom_of_written (sp := .txbuf) hw (sendPacket_tbuf_tooBig hc) (length_failedBytes _ _).le⟩

/-! ### An abandoned SEND (R149) -/

/-- A byte whose first poll finds the flag set uses up one answer and one reading of the tick. -/
theorem sendByte_set {b : Byte} {s : State} {r : List Bool} (hr : s.env.ready = true :: r) :
    sendByte b s = (true, (s.emitTx b).readTick.2.setEnv { (s.emitTx b).readTick.2.env with ready := r }) :=
  pollLoop_ready hr

/-- A round that finds the flag clear, more than 100 ms after the start of the wait, is the last. -/
theorem pollOnce_late {s : State} {r : List Bool} {d : Nat} {ds : List Nat} (hr : s.env.ready = false :: r)
    (hd : s.env.dt = d :: ds) (hlate : 100 < d % 2 ^ s.par.tickWidth) :
    (pollOnce (tickOf s.par.tickWidth s.env.now) s).1 = .timeout := by
  have hdiff : tickDiff s.par.tickWidth (tickOf s.par.tickWidth (s.env.now + d)) (tickOf s.par.tickWidth s.env.now) =
      d % 2 ^ s.par.tickWidth := by
    rw [tickDiff_clocks (Nat.le_add_right _ _), Nat.add_sub_cancel_left]
  rw [pollOnce_clear _ hr hd]
  exact if_pos (decide_eq_true (hdiff ▸ hlate))

theorem pollLoop_timeout {t0 : Nat} {s : State} (h : (pollOnce t0 s).1 = .timeout) (k : Nat) :
    (pollLoop t0 (k + 1) s).1 = false := by
  rcases hp : pollOnce t0 s with ⟨res, t⟩
  obtain rfl : res = .timeout := by rwa [hp] at h
  simp only [pollLoop, hp]

/-- A byte whose first poll finds the flag clear, more than 100 ms after the write, is abandoned. -/
theorem sendByte_late {b : Byte} {s : State} {r : List Bool} {d₀ d : Nat} {ds : List Nat}
    (hr : s.env.ready = false :: r) (hd : s.env.dt = d₀ :: d :: ds) (hlate : 100 < d % 2 ^ s.par.tickWidth) :
    (sendByte b s).1 = false :=
  pollLoop_timeout (pollOnce_late (s := (s.emitTx b).readTick.2) hr (congrArg List.tail hd) hlate) _

theorem sendBytes_cons_sent {b : Byte} {s : State} (h : (sendByte b s).1 = true) (bs : List Byte) :
    sendBytes (b :: bs) s = sendBytes bs (sendByte b s).2 := by
  rcases hb : sendByte b s with ⟨ok, t⟩
  obtain rfl : ok = true := by rwa [hb] at h
  simp only [sendBytes, hb]

theorem sendBytes_cons_abandoned {b : Byte} {s : State} (h : (sendByte b s).1 = false) (bs : List Byte) :
    sendBytes (b :: bs) s = (false, (sendByte b s).2) := by
  rcases hb : sendByte b s with ⟨ok, t⟩
  obtain rfl : ok = false := by rwa [hb] at h
  simp only [sendBytes, hb]

/-- Bytes 0 to k-1 are sent at their first poll, and byte k is abandoned at its own: k+1 bytes are emitted. -/
theorem sendBytes_late {bs : List Byte} {k d : Nat} {ds ds' : List Nat} {r : List Bool} {s : State}
    (hk : k < bs.length) (hr : s.env.ready = List.replicate k true ++ false :: r) (hd : s.env.dt = ds ++ d :: ds')
    (hlen : ds.length = k + 1) (hlate : 100 < d % 2 ^ s.par.tickWidth) :
    (sendBytes bs s).1 = false ∧ (sendBytes bs s).2.env.tx = s.env.tx ++ bs.take (k + 1) := by
  induction k generalizing bs ds s with
  | zero =>
    obtain ⟨b, bs, rfl⟩ := List.exists_cons_of_length_pos hk
    obtain ⟨d₀, rfl⟩ := List.length_eq_one_iff.mp hlen
    rw [sendBytes_cons_abandoned (sendByte_late hr hd hlate)]
    exact ⟨rfl, sendByte_tx b s⟩
  | succ k ih =>
    obtain ⟨b, bs, rfl⟩ := List.exists_cons_of_length_pos (Nat.zero_lt_of_lt hk)
    obtain ⟨d₀, ds, rfl⟩ := List.exists_cons_of_length_eq_add_one hlen
    have hset := sendByte_set (b := b) hr
    rw [sendBytes_cons_sent (congrArg Prod.fst hset)]
    obtain ⟨hno, htx⟩ := ih (bs := bs) (ds := ds) (s := (sendByte b s).2) (by simpa using hk)
      (by rw [hset]; rfl) (by rw [hset]; exact congrArg List.tail hd) (by simpa using hlen) (by rw [hset]; exact hlate)
    exact ⟨hno, by rw [htx, sendByte_tx, List.append_assoc]; rfl⟩

/-- Settles O19: stage 3 runs over the loaded frame, and loading it uses up no answer. -/
theorem timedOutSendEmitsKPlusOneBytes : Obligations.TimedOutSendEmitsKPlusOneBytes := by
  intro pkt s k d ds ds' r ⟨hc, hw⟩ hk hr hd hlen hlate
  have hload := State.writeBytes_eq s .txbuf 0 (packetFrame s.par.checksum pkt)
  obtain ⟨hno, htx⟩ := sendBytes_late (s := s.writeBytes .txbuf 0 (packetFrame s.par.checksum pkt))
    (hk.trans_eq (length_packetFrame s.par.checksum pkt).symm) (by rw [hload]; exact hr) (by rw [hload]; exact hd) hlen
    (by rw [hload]; exact hlate)
  rw [← sendPacket_fits hc hw] at hno htx
  refine ⟨_, exec_send pkt s, congrArg Ret.bool hno, htx.trans (by rw [hload]; rfl), ?_⟩
  rw [sendReturning_setRet]
  exact sendPacket_onlyTransmitted pkt s

/-! ### The senders (R146 to R148) -/

/-- A handler's two outcomes, told from the result of the SEND it makes (R146, R147, R170). -/
theorem raiseUnlessSent_of_send {pkt : Packet} {s u : State} (hu : exec (.send pkt) s = .next u) :
    (u.ret = .bool true → raiseUnlessSent (sendPacket pkt s) = u.setRet s.ret) ∧
    (u.ret = .bool false → raiseUnlessSent (sendPacket pkt s) = (u.setRet s.ret).setLatch true) ∧
    (u.ret = .bool true ∨ u.ret = .bool false) := by
  obtain rfl := Host.Outcome.next.inj hu
  rw [sendReturning_setRet]
  have hret : (sendReturning pkt s).ret = .bool (sendPacket pkt s).1 := rfl
  rw [hret]
  rcases sendPacket pkt s with ⟨_ | _, t⟩
  · exact ⟨nofun, fun _ => State.raise_eq t .transmitTimeout, .inr rfl⟩
  · exact ⟨fun _ => rfl, nofun, .inl rfl⟩

/-- Settles O22: sendPong is what a handler makes of SEND(Pong). -/
theorem sendPongRaisesOnFailure : Obligations.SendPongRaisesOnFailure := by
  intro s u hu
  obtain ⟨hsent, hfailed, hret⟩ := raiseUnlessSent_of_send hu
  exact ⟨fun h => congrArg Host.Outcome.next (hsent h), fun h => congrArg Host.Outcome.next (hfailed h), hret⟩

/-- Settles O23: reading the supplier leaves the result field alone, so it is the one of before the read. -/
theorem sendTemperatureReadsOnceAndRaisesOnFailure : Obligations.SendTemperatureReadsOnceAndRaisesOnFailure := by
  refine ⟨fun s u hu => ?_, fun s w ws hs => ?_, fun s hs => ?_⟩
  · obtain ⟨hsent, hfailed, hret⟩ := raiseUnlessSent_of_send hu
    rw [(readTemp_ran s).ret] at hsent hfailed
    exact ⟨fun h => congrArg Host.Outcome.next (hsent h), fun h => congrArg Host.Outcome.next (hfailed h), hret⟩
  · simp only [State.readTemp, hs]
  · simp only [State.readTemp, hs]

/-- Settles O24: sendError is the state SEND(Error) leaves, whatever its result. -/
theorem sendErrorDiscardsFailure : Obligations.SendErrorDiscardsFailure := by
  intro s ⟨hc, hw⟩
  obtain ⟨k, hpos, hle, hall, htx, -⟩ := sendPacket_spec hc hw
  have honly := sendPacket_onlyTransmitted .error s
  exact ⟨_, k, rfl, honly, honly.latch, hpos, hle, htx, (sendPacket_below (pkt := .error) hw).kept (sp := .txbuf) hw,
    fun hr => hall (sendPacket_ready hc hw hr).1⟩

/-- Under READY sendTemperature emits the frame of the supplier's answer, and raises nothing. -/
theorem sendTemperature_ready {s : State} (hc : canSend (.responseTemp s.readTemp.1) s) (hr : readyFor 11 s) :
    OnlyTransmitted s.readTemp.2 (sendTemperature s) ∧
      (sendTemperature s).env.tx = s.env.tx ++ packetFrame s.par.checksum (.responseTemp s.readTemp.1) := by
  have hread := readTemp_eq s
  have hpar : s.readTemp.2.par = s.par := by rw [hread]; rfl
  have htx : s.readTemp.2.env.tx = s.env.tx := by rw [hread]; rfl
  have hc' : canSend (.responseTemp s.readTemp.1) s.readTemp.2 := by rw [canSend, hpar, readTemp_tbuf]; exact hc
  have hr' : readyFor 11 s.readTemp.2 := by rw [readyFor, hread]; exact hr
  have hsend := raiseUnlessSent_ready hc' hr'
  rwa [htx, hpar] at hsend

/-- Settles O25: each handler's SEND under READY, and TXBUF by the length of its reply. -/
theorem handlersSendWholeFramesUnderReady : Obligations.HandlersSendWholeFramesUnderReady := by
  refine ⟨fun s hc hr => ?_, fun s hc hr => ?_⟩
  · obtain ⟨honly, htx⟩ := raiseUnlessSent_ready hc hr
    exact ⟨_, rfl, honly, htx, (runReply_below (ty := .ping) rfl hc.2).kept (sp := .txbuf) hc.2⟩
  · obtain ⟨honly, htx⟩ := sendTemperature_ready hc hr
    exact ⟨_, rfl, honly, htx, (runReply_below (ty := .request) rfl hc.2).kept (sp := .txbuf) hc.2⟩

/-! ### The error report (R157, R174) -/

/-- With an empty queue an iteration is its report (R156). -/
theorem exec_mainIter_empty {s : State} (he : s.q.empty = true) : exec .mainIter s = .next (reportErrors s) := by
  simp only [exec, execMainIter, popQueue_empty he, parsePopped]

theorem reportErrors_latched {s : State} (hl : s.latch = true) : reportErrors s = sendError (s.setLatch false) := by
  simp only [reportErrors, testAndClear, hl]

/-- Settles O45: with nothing to parse the iteration is the report, and the report of a set latch is sendError. -/
theorem errorReportSendsOneErrorFrame : Obligations.ErrorReportSendsOneErrorFrame := by
  intro s he hl
  have hiter := exec_mainIter_empty he
  refine ⟨by rw [hiter, reportErrors_latched hl]; rfl, fun hc hr => ?_⟩
  obtain ⟨honly, htx⟩ := reportErrors_ready hl hc hr
  refine ⟨_, hiter, honly.latch, htx, honly, ?_⟩
  rw [reportErrors_latched hl]
  exact (sendPacket_below (pkt := .error) (s := s.setLatch false) hc.2).kept (s := s) (sp := .txbuf) hc.2

/-! ### No step stops (R158, R171, R175) -/

/-- Only what reaches into QMEM can stop, and it does not while R26 holds (log 13). -/
theorem exec_total (i : Instr) {s : State} (h : queueOk s.par.capacity s.q) : ∃ t, exec i s = .next t := by
  cases i with
  | push b =>
    obtain ⟨ok, t, ht⟩ := pushQueue_total h b
    simp only [exec, execPush, ht]
    exact ⟨_, rfl⟩
  | enqueue b =>
    obtain ⟨ok, t, ht⟩ := pushQueue_total h b
    simp only [exec, execEnqueue, ht]
    cases ok <;> exact ⟨_, rfl⟩
  | pop =>
    obtain ⟨v, t, ht⟩ := popQueue_total h
    simp only [exec, execPop, ht]
    exact ⟨_, rfl⟩
  | mainIter =>
    obtain ⟨v, t, ht⟩ := popQueue_total h
    simp only [exec, execMainIter, ht]
    exact ⟨_, rfl⟩
  | _ => exact ⟨_, rfl⟩

/-- Every control point has its move (R61); only the POP's needs the queue. -/
theorem mainStep_total {s : State} (h : queueOk s.par.capacity s.q) : ∃ t, mainStep s = .next t := by
  cases hc : s.ctl with
  | iterStart =>
    obtain ⟨v, t, ht⟩ := popQueue_total h
    exact ⟨_, (MainMove.pops hc ht).step⟩
  | parse => exact ⟨_, (MainMove.parses hc).step⟩
  | readTemp => exact ⟨_, (MainMove.readsTemp hc).step⟩
  | startSend => exact ⟨_, (MainMove.loads hc).step⟩
  | emit => exact ⟨_, (MainMove.emits hc).step⟩
  | poll => exact ⟨_, (MainMove.polls hc).step⟩
  | endSend => exact ⟨_, (MainMove.finishes hc).step⟩
  | report => exact ⟨_, (MainMove.reports hc).step⟩

/-- Whatever the head of the schedule, what it runs has an outcome: taking the event leaves the queue alone. -/
theorem step_total {s : State} (h : queueOk s.par.capacity s.q) : ∃ t, step s = .next t := by
  obtain ⟨frame, noFrame, wireUsedUp, rx, call, waits, nothing, main⟩ := stepRunsWhatIsFetched
  rcases hs : s.env.sched with _ | ⟨e, es⟩
  · exact nothing s hs ▸ mainStep_total h
  have hinstr (i : Instr) (es : List Event) : ∃ t, exec i (s.setSched es) = .next t := exec_total i h
  have hmain : ∃ t, mainStep (s.setSched es) = .next t := mainStep_total h
  cases e with
  | rx b => exact rx s b es hs ▸ hinstr _ _
  | main => exact main s es hs ▸ hmain
  | call i =>
    by_cases hc : s.ctl = .iterStart
    · exact call s i es hc hs ▸ hinstr _ _
    · exact waits s _ es hc hs (.inl ⟨i, rfl⟩) ▸ mainStep_total h
  | wire bs =>
    by_cases hc : s.ctl = .iterStart
    · rcases bs with _ | ⟨b, bs⟩
      · exact wireUsedUp s es hc hs ▸ hmain
      · cases hd : decode s.par.stubLen (b :: bs) with
        | ok p => exact frame s (b :: bs) es p.1 p.2 hc hs hd ▸ hinstr _ _
        | error e => exact noFrame s b bs es e hc hs hd ▸ hinstr _ _
    · exact waits s _ es hc hs (.inr ⟨bs, rfl⟩) ▸ mainStep_total h

/-- Settles O58: of the invariant the queue's part is enough. -/
theorem theBlockNeverStops : Obligations.TheBlockNeverStops := fun _ h => step_total h.queue

end Sys2Proof.Machine
end

section
/-! PROOFS. An iteration of the main loop: idle (O44), with a byte to parse (O46), and the latch after it (O47). -/

namespace Sys2Proof.Machine

/-- Running the parser or a send leaves the held bytes alone (R27). -/
theorem OnlyRan.heldBytes {s t : State} (h : OnlyRan s t) : heldBytes t = heldBytes s :=
  heldBytes_congr h.queue h.advances.par

/-- The instruction POP is the queue's POP but for the result it delivers (R92, log 16). -/
theorem exec_pop_setRet {s t u : State} {v : Option Byte} (hpop : popQueue s = some (v, t))
    (h : exec .pop s = .next u) : u.setRet s.ret = t := by
  obtain ⟨w, t', hpop', rfl⟩ := exec_pop_cases h
  obtain ⟨-, rfl⟩ : w = v ∧ t' = t := by simpa [hpop] using hpop'.symm
  rcases popQueue_cases hpop with ⟨-, -, rfl⟩ | ⟨-, -, -, rfl⟩ <;> rfl

/-- Settles O44: nothing is popped, and the report of a clear latch does nothing. -/
theorem idleIterationChangesNothing : Obligations.IdleIterationChangesNothing := by
  intro s he hl
  rw [exec_mainIter_empty he, reportErrors_clear hl]

/-- Settles O46: the POP takes `b`, and neither the parser nor the report touches the bytes it leaves. -/
theorem iterationParsesOneByteThenReports : Obligations.IterationParsesOneByteThenReports := by
  intro s u b rest hq hheld hu
  obtain ⟨hpop, hrest, hiter⟩ := mainIter_held hq hheld
  rw [exec_pop_setRet hpop hu]
  generalize s.setQueue (queuePopped s.par.capacity s.q) = popped at hrest hiter
  refine ⟨parseByte b popped, reportErrors (parseByte b popped), rfl, hiter, ?_, reportErrors_clear, ?_⟩
  · calc heldBytes (reportErrors (parseByte b popped))
      _ = heldBytes (parseByte b popped) := (reportErrors_ran _).1.heldBytes
      _ = heldBytes popped := (parseByte_ran b popped).heldBytes
      _ = rest := hrest
  · intro hl
    rw [reportErrors_latched hl]
    rfl

/-- Settles O47: every iteration ends with the report, which leaves the latch clear. -/
theorem latchIsClearAfterAnIteration : Obligations.LatchIsClearAfterAnIteration := by
  intro s t h
  obtain ⟨v, u, -, rfl⟩ := exec_mainIter_cases h
  exact (reportErrors_ran (parsePopped v u)).2

end Sys2Proof.Machine
end

section
/-! PROOFS. The interrupt context: every instruction answers a next state (O7), and what a step that takes an arriving
byte writes (O52). -/

namespace Sys2Proof.Machine

/-- Settles O7: the queue's part of the invariant rules out the one fault (log 13). -/
theorem everyInstructionCompletes : Obligations.EveryInstructionCompletes := fun i _ h => exec_total i h

/-- The slot a PUSH writes reads as the byte pushed (R91). -/
theorem readByte_queuePushed_endIdx (s : State) (b : Byte) :
    (s.setQueue (queuePushed s.par.capacity b s.q)).readByte .qmem s.q.endIdx = b :=
  (State.readByte_writeByte s .qmem s.q.endIdx s.q.endIdx b).trans (if_pos rfl)

/-- Settles O52: at any control point the step is an ENQUEUE (R60, R172), which either meets a full queue and sets the
latch alone, or stores the byte and leaves the latch. -/
theorem interruptContextFrame : Obligations.InterruptContextFrame := by
  intro s t b es hs ht
  rw [step_of_instr (fetch_rx hs)] at ht
  rcases exec_enqueue_cases ht with ⟨hfull, rfl⟩ | ⟨hroom, -, rfl⟩
  case inl =>
    exact ⟨rfl, fun _ _ => rfl, fun _ => ⟨rfl, rfl⟩, fun hroom => absurd (hroom.symm.trans hfull) Bool.false_ne_true⟩
  case inr =>
    refine ⟨rfl, fun a ha => ?others, fun hfull => absurd (hroom.symm.trans hfull) Bool.false_ne_true,
      fun _ => ⟨?written, rfl⟩⟩
    case others => exact readByte_queuePushed_of_ne (s.setSched es) b ha
    case written => exact readByte_queuePushed_endIdx (s.setSched es) b

end Sys2Proof.Machine
end

section
/-! PROOFS. The reset state (O5). -/

namespace Sys2Proof.Machine

/-- Nothing has been written at reset, in any space (93 U3). -/
@[simp] theorem State.mem_reset (sp : Space) : State.reset.mem sp = [] := by
  cases sp <;> rfl

/-- A byte of a space nothing has written since reset reads as its power-on value (93 U3; log 8). -/
theorem State.readByte_of_mem_nil {s : State} {sp : Space} (h : s.mem sp = []) (a : Nat) :
    s.readByte sp a = Config.powerOnByte sp a := by
  simp only [State.readByte, h, Memory.read?]

/-- Settles O5: the registers are the values `State.reset` writes out (R185), and a byte of a space is its power-on
value because every space is empty. -/
theorem resetState : Obligations.ResetState :=
  ⟨rfl, rfl, rfl, rfl, rfl, rfl, rfl, rfl, rfl, fun sp a => State.readByte_of_mem_nil (State.mem_reset sp) a⟩

end Sys2Proof.Machine
end
